-- ==== Sys2Proof/Word.lean ====
section
/-! DEFINITION. The word types: every register, buffer entry and field element is one byte, and the bus address has
11 bits (spec 00_scope.md R9, R11). -/

namespace Sys2Proof

/-- A register, a buffer entry, a command byte or a field element (00_scope.md R9; 40_field_arithmetic.md R120). -/
abbrev Byte := BitVec 8

/-- A bus address; no address outside 0x000 to 0x7FF exists (20_memory.md R81). -/
abbrev Addr := BitVec 11

end Sys2Proof
end

