-- ==== Sys2Proof/Syntax.lean ====
section
/-! DEFINITION. The commands of the core: one constructor per row of spec/opcode_table.json (30_encoding.md R101 to R103). -/

namespace Sys2Proof

/-- A command of the core. Commands carry no operand: they read fixed registers and buffers (30_encoding.md R104). -/
inductive Instr where
  /-- GF_ADD, byte 0x01 (40_field_arithmetic.md R121). -/
  | gfAdd
  /-- GF_MUL, byte 0x02 (40_field_arithmetic.md R123). -/
  | gfMul
  /-- GF_INV, byte 0x03 (40_field_arithmetic.md R127). -/
  | gfInv
  /-- GF_POW, byte 0x04 (40_field_arithmetic.md R130). -/
  | gfPow
  /-- ENCODE, byte 0x05 (41_encoder.md R150). -/
  | encode
  /-- SYNDROME, byte 0x06 (42_syndrome.md R170). -/
  | syndrome
  /-- LOCATE, byte 0x07 (43_locator.md R190). -/
  | locate
  /-- CORRECT, byte 0x08 (44_corrector.md R220). -/
  | correct
  /-- DECODE, byte 0x09 (45_decode.md R250). -/
  | decode
  /-- The row (illegal): any of the 247 other bytes, kept as written (30_encoding.md R103). -/
  | illegal (v : Byte)
  deriving DecidableEq, Repr

end Sys2Proof
end

