-- ==== Sys2Proof/WellFormed.lean ====
section
/-! DEFINITION. Which terms of `Instr` stand for a byte the host can write: the row (illegal) holds an illegal byte. -/

namespace Sys2Proof

/-- The 247 illegal bytes 0x00, 0x0A to 0x0F and 0x10 to 0xFF (30_encoding.md R103). -/
def illegalByte (v : Byte) : Bool :=
  v.toNat == 0 || 10 ≤ v.toNat

/-- The check on instructions: only `illegal` carries data, and its byte is one of the illegal ones. -/
def Instr.wellFormed : Instr → Bool
  | .gfAdd => true
  | .gfMul => true
  | .gfInv => true
  | .gfPow => true
  | .encode => true
  | .syndrome => true
  | .locate => true
  | .correct => true
  | .decode => true
  | .illegal v => illegalByte v

end Sys2Proof
end

