-- ==== Sys2Proof/Decode.lean ====
section
/-! DEFINITION. The decoder of command bytes, total on every byte and every byte list, and the encoder
(30_encoding.md R100 to R103, R106). -/

namespace Sys2Proof

/-- The field `zero`, bits [7:4] of a command byte (30_encoding.md R100). -/
def zeroField (v : Byte) : BitVec 4 := v.extractLsb' 4 4

/-- The field `op`, bits [3:0] of a command byte (30_encoding.md R100). -/
def opField (v : Byte) : BitVec 4 := v.extractLsb' 0 4

/-- Decoding of one command byte (30_encoding.md R102): a nonzero `zero` field is illegal, then `op` selects the command
of R101, and the remaining values of `op` are illegal. -/
def decodeByte (v : Byte) : Instr :=
  if zeroField v ≠ 0 then .illegal v
  else
    match (opField v).toNat with
    | 1 => .gfAdd
    | 2 => .gfMul
    | 3 => .gfInv
    | 4 => .gfPow
    | 5 => .encode
    | 6 => .syndrome
    | 7 => .locate
    | 8 => .correct
    | 9 => .decode
    | _ => .illegal v

/-- Why a list of bytes holds no instruction. -/
inductive DecodeError where
  /-- There is no byte to read: a decoder reads one byte and is done (30_encoding.md R100). -/
  | noByte
  deriving DecidableEq, Repr

/-- Decoding of a byte list: the command of its first byte and the bytes after it. Every command is exactly one byte long
(30_encoding.md R106). -/
def decode : List Byte → Except DecodeError (Instr × List Byte)
  | [] => .error .noByte
  | v :: rest => .ok (decodeByte v, rest)

/-- The command byte of an instruction (30_encoding.md R101, R103). -/
def encodeByte : Instr → Byte
  | .gfAdd => 0x01
  | .gfMul => 0x02
  | .gfInv => 0x03
  | .gfPow => 0x04
  | .encode => 0x05
  | .syndrome => 0x06
  | .locate => 0x07
  | .correct => 0x08
  | .decode => 0x09
  | .illegal v => v

/-- The words of an instruction: its one command byte. -/
def encode (i : Instr) : List Byte := [encodeByte i]

/-- The byte an opcode-table word stands for: a command has no byte beyond the first, and bits from `nbits` up are 0. -/
def tableByte (nbits w : Nat) : Byte := BitVec.ofNat 8 (w % 2 ^ nbits)

/-- The instruction the decoder reads from an opcode-table word. Bytes of the row (illegal) decode to `illegal`, which is
that row's instruction (log entry 14). -/
def decodeTableWord (nbits w : Nat) : Option Instr :=
  match decode [tableByte nbits w] with
  | .ok (i, _) => some i
  | .error _ => none

end Sys2Proof
end

