-- ==== Sys2Proof/Config.lean ====
section
/-! DEFINITION. The values the spec leaves open, as constants without a body: nothing can evaluate them, so whatever is
proved holds for every value. The parameters that 00_scope.md R9 fixes stand where they are used; `LAT` (R10) has no
place because the model has no time (log entry 9). -/

namespace Sys2Proof

/-- The byte on bus_rdata in the `n`-th access made with bus_we and bus_re both asserted (20_memory.md R70;
93_implementation_defined.md U3). Free value, log entry 6. -/
opaque Config.freeRdata : Nat → Byte

/-- What the inverse circuit gives for the operand 0x00, which 40_field_arithmetic.md R127 leaves undefined. GF_INV never
uses it (it reports DIV_BY_ZERO) and CORRECT never meets it in a reachable state (44_corrector.md R228). Free value, log
entry 7. -/
opaque Config.inverseOfZero : Byte

end Sys2Proof
end

