-- ==== Sys2Proof/Machine/Field.lean ====
section
/-! DEFINITION. Arithmetic in GF(2^8) with modulus P = 0x11D (40_field_arithmetic.md): the four field functions that every
command uses, the tables EXP and INV, and the multiplier network of R124. Index and exponent arithmetic is on Nat and Int
(00_scope.md R12). -/

namespace Sys2Proof.Machine

/-- The modulus P = x^8+x^4+x^3+x^2+1 as a 9-bit constant (00_scope.md R3). -/
def modulusP : Nat := 0x11D

/-- The primitive element alpha = 2 (00_scope.md R4). -/
def alpha : Byte := 0x02

/-- Bit `i` of `v`, as 0 or 1 (00_scope.md R11). -/
def bitOf (v i : Nat) : Nat := (v >>> i) % 2

/-- Field addition: bitwise exclusive or (40_field_arithmetic.md R121). -/
def gfAdd (x y : Byte) : Byte := x ^^^ y

/-- The carry-less product of `x` and bits 0 to `n - 1` of `y`: `x` shifted by `i`, exclusive-ored in for every bit `i` that
is 1 (40_field_arithmetic.md R123, first loop). -/
def clmul (x y : Nat) : Nat → Nat
  | 0 => 0
  | i + 1 => clmul x y i ^^^ (bitOf y i * (x <<< i))

/-- Reduction modulo P of bits `7 + n` down to 8, highest first: where bit `8 + i` is 1, P shifted by `i` is exclusive-ored
in (40_field_arithmetic.md R123, second loop). -/
def reduceModP (p : Nat) : Nat → Nat
  | 0 => p
  | i + 1 => reduceModP (p ^^^ (bitOf p (8 + i) * (modulusP <<< i))) i

/-- Field multiplication: the 15-bit carry-less product of the two bytes, its bits 14 to 8 reduced modulo P, bits [7:0] of
the outcome (40_field_arithmetic.md R123). -/
def gfMul (x y : Byte) : Byte :=
  BitVec.ofNat 8 (reduceModP (clmul x.toNat y.toNat 8) 7)

/-- Field power by repeated multiplication from 1; the empty product is 1, also for the base 0 (40_field_arithmetic.md R130;
92_eei_decisions.md D7). -/
def gfPow (x : Byte) : Nat → Byte
  | 0 => 0x01
  | n + 1 => gfMul (gfPow x n) x

/-- The antilog table of 40_field_arithmetic.md R131, row by row: entry `16 i + j` is column `j` of row `i`. That each entry
is `gfPow alpha` of its index is proved in Laws/Field.lean. -/
def expRows : List (List Byte) := [
    [0x01, 0x02, 0x04, 0x08, 0x10, 0x20, 0x40, 0x80, 0x1D, 0x3A, 0x74, 0xE8, 0xCD, 0x87, 0x13, 0x26],
    [0x4C, 0x98, 0x2D, 0x5A, 0xB4, 0x75, 0xEA, 0xC9, 0x8F, 0x03, 0x06, 0x0C, 0x18, 0x30, 0x60, 0xC0],
    [0x9D, 0x27, 0x4E, 0x9C, 0x25, 0x4A, 0x94, 0x35, 0x6A, 0xD4, 0xB5, 0x77, 0xEE, 0xC1, 0x9F, 0x23],
    [0x46, 0x8C, 0x05, 0x0A, 0x14, 0x28, 0x50, 0xA0, 0x5D, 0xBA, 0x69, 0xD2, 0xB9, 0x6F, 0xDE, 0xA1],
    [0x5F, 0xBE, 0x61, 0xC2, 0x99, 0x2F, 0x5E, 0xBC, 0x65, 0xCA, 0x89, 0x0F, 0x1E, 0x3C, 0x78, 0xF0],
    [0xFD, 0xE7, 0xD3, 0xBB, 0x6B, 0xD6, 0xB1, 0x7F, 0xFE, 0xE1, 0xDF, 0xA3, 0x5B, 0xB6, 0x71, 0xE2],
    [0xD9, 0xAF, 0x43, 0x86, 0x11, 0x22, 0x44, 0x88, 0x0D, 0x1A, 0x34, 0x68, 0xD0, 0xBD, 0x67, 0xCE],
    [0x81, 0x1F, 0x3E, 0x7C, 0xF8, 0xED, 0xC7, 0x93, 0x3B, 0x76, 0xEC, 0xC5, 0x97, 0x33, 0x66, 0xCC],
    [0x85, 0x17, 0x2E, 0x5C, 0xB8, 0x6D, 0xDA, 0xA9, 0x4F, 0x9E, 0x21, 0x42, 0x84, 0x15, 0x2A, 0x54],
    [0xA8, 0x4D, 0x9A, 0x29, 0x52, 0xA4, 0x55, 0xAA, 0x49, 0x92, 0x39, 0x72, 0xE4, 0xD5, 0xB7, 0x73],
    [0xE6, 0xD1, 0xBF, 0x63, 0xC6, 0x91, 0x3F, 0x7E, 0xFC, 0xE5, 0xD7, 0xB3, 0x7B, 0xF6, 0xF1, 0xFF],
    [0xE3, 0xDB, 0xAB, 0x4B, 0x96, 0x31, 0x62, 0xC4, 0x95, 0x37, 0x6E, 0xDC, 0xA5, 0x57, 0xAE, 0x41],
    [0x82, 0x19, 0x32, 0x64, 0xC8, 0x8D, 0x07, 0x0E, 0x1C, 0x38, 0x70, 0xE0, 0xDD, 0xA7, 0x53, 0xA6],
    [0x51, 0xA2, 0x59, 0xB2, 0x79, 0xF2, 0xF9, 0xEF, 0xC3, 0x9B, 0x2B, 0x56, 0xAC, 0x45, 0x8A, 0x09],
    [0x12, 0x24, 0x48, 0x90, 0x3D, 0x7A, 0xF4, 0xF5, 0xF7, 0xF3, 0xFB, 0xEB, 0xCB, 0x8B, 0x0B, 0x16],
    [0x2C, 0x58, 0xB0, 0x7D, 0xFA, 0xE9, 0xCF, 0x83, 0x1B, 0x36, 0x6C, 0xD8, 0xAD, 0x47, 0x8E]]

/-- `EXP[i]` for i = 0 to 254 (40_field_arithmetic.md R131). -/
def expTable (i : Nat) : Byte := (expRows.getD (i / 16) []).getD (i % 16) 0x00

/-- alpha to an integer exponent of any sign: `EXP[e mod 255]` (00_scope.md R12). -/
def alphaPow (e : Int) : Byte := expTable (e % 255).toNat

/-- The inverse table of 40_field_arithmetic.md R128, row = high nibble, column = low nibble; its undefined entry 0 is never
read. That each entry is an inverse of its index is proved in Laws/Field.lean. -/
def invRows : List (List Byte) := [
    [0x00, 0x01, 0x8E, 0xF4, 0x47, 0xA7, 0x7A, 0xBA, 0xAD, 0x9D, 0xDD, 0x98, 0x3D, 0xAA, 0x5D, 0x96],
    [0xD8, 0x72, 0xC0, 0x58, 0xE0, 0x3E, 0x4C, 0x66, 0x90, 0xDE, 0x55, 0x80, 0xA0, 0x83, 0x4B, 0x2A],
    [0x6C, 0xED, 0x39, 0x51, 0x60, 0x56, 0x2C, 0x8A, 0x70, 0xD0, 0x1F, 0x4A, 0x26, 0x8B, 0x33, 0x6E],
    [0x48, 0x89, 0x6F, 0x2E, 0xA4, 0xC3, 0x40, 0x5E, 0x50, 0x22, 0xCF, 0xA9, 0xAB, 0x0C, 0x15, 0xE1],
    [0x36, 0x5F, 0xF8, 0xD5, 0x92, 0x4E, 0xA6, 0x04, 0x30, 0x88, 0x2B, 0x1E, 0x16, 0x67, 0x45, 0x93],
    [0x38, 0x23, 0x68, 0x8C, 0x81, 0x1A, 0x25, 0x61, 0x13, 0xC1, 0xCB, 0x63, 0x97, 0x0E, 0x37, 0x41],
    [0x24, 0x57, 0xCA, 0x5B, 0xB9, 0xC4, 0x17, 0x4D, 0x52, 0x8D, 0xEF, 0xB3, 0x20, 0xEC, 0x2F, 0x32],
    [0x28, 0xD1, 0x11, 0xD9, 0xE9, 0xFB, 0xDA, 0x79, 0xDB, 0x77, 0x06, 0xBB, 0x84, 0xCD, 0xFE, 0xFC],
    [0x1B, 0x54, 0xA1, 0x1D, 0x7C, 0xCC, 0xE4, 0xB0, 0x49, 0x31, 0x27, 0x2D, 0x53, 0x69, 0x02, 0xF5],
    [0x18, 0xDF, 0x44, 0x4F, 0x9B, 0xBC, 0x0F, 0x5C, 0x0B, 0xDC, 0xBD, 0x94, 0xAC, 0x09, 0xC7, 0xA2],
    [0x1C, 0x82, 0x9F, 0xC6, 0x34, 0xC2, 0x46, 0x05, 0xCE, 0x3B, 0x0D, 0x3C, 0x9C, 0x08, 0xBE, 0xB7],
    [0x87, 0xE5, 0xEE, 0x6B, 0xEB, 0xF2, 0xBF, 0xAF, 0xC5, 0x64, 0x07, 0x7B, 0x95, 0x9A, 0xAE, 0xB6],
    [0x12, 0x59, 0xA5, 0x35, 0x65, 0xB8, 0xA3, 0x9E, 0xD2, 0xF7, 0x62, 0x5A, 0x85, 0x7D, 0xA8, 0x3A],
    [0x29, 0x71, 0xC8, 0xF6, 0xF9, 0x43, 0xD7, 0xD6, 0x10, 0x73, 0x76, 0x78, 0x99, 0x0A, 0x19, 0x91],
    [0x14, 0x3F, 0xE6, 0xF0, 0x86, 0xB1, 0xE2, 0xF1, 0xFA, 0x74, 0xF3, 0xB4, 0x6D, 0x21, 0xB2, 0x6A],
    [0xE3, 0xE7, 0xB5, 0xEA, 0x03, 0x8F, 0xD3, 0xC9, 0x42, 0xD4, 0xE8, 0x75, 0x7F, 0xFF, 0x7E, 0xFD]]

/-- `INV[x]` for x = 0x01 to 0xFF (40_field_arithmetic.md R128). -/
def invTable (x : Byte) : Byte := (invRows.getD (x.toNat / 16) []).getD (x.toNat % 16) 0x00

/-- The inverse: the one `y` with `gfMul x y = 1` for x other than 0 (40_field_arithmetic.md R127); for 0, which R127 leaves
undefined, a free value (log entry 7). -/
def gfInv (x : Byte) : Byte := if x = 0x00 then Config.inverseOfZero else invTable x

/-- The log table `LOG[x]`: the one i in 0 to 254 with `EXP[i] = x`; none for 0 (40_field_arithmetic.md R132). No command
reads it. -/
def gfLog (x : Byte) : Option Nat := (List.range 255).find? fun i => expTable i == x

/-- The field sum of a list. -/
def xorSum : List Byte → Byte
  | [] => 0x00
  | x :: xs => gfAdd x (xorSum xs)

/-- The value at `x` of the polynomial with coefficient list `c`, constant term first: the sum of `c[i]` times `x` to the i
(00_scope.md R14), computed by Horner's rule (log entry 16). -/
def polyEval : List Byte → Byte → Byte
  | [], _ => 0x00
  | c :: cs, x => gfAdd c (gfMul x (polyEval cs x))

/-- The coefficients of `x ⊕ c` times a polynomial: the polynomial shifted up by one degree plus `c` times it. -/
def mulLinear (c : Byte) (p : List Byte) : List Byte :=
  List.zipWith gfAdd (0x00 :: p) (p.map (gfMul c) ++ [0x00])

/-- The formal derivative of a coefficient list: the coefficient of x^(i-1) is `c[i]` for odd i, and the even-degree terms
vanish (00_scope.md R14; 44_corrector.md R223). -/
def formalDerivative : List Byte → List Byte
  | [] => []
  | _ :: cs => cs.mapIdx fun i c => if i % 2 = 0 then c else 0x00

/-! ### The multiplier as a combinational network (40_field_arithmetic.md R124) -/

/-- Product bit `p_m`: the exclusive or of `x[i] & y[m - i]` over all i with both indices in 0 to 7 (R124, step 1). -/
def networkProductBit (x y : Byte) (m : Nat) : Bool :=
  (List.range 8).foldr (fun i acc => xor (x.getLsbD i && decide (i ≤ m) && y.getLsbD (m - i)) acc) false

/-- Which product bits feed each result bit, bit 0 first (R124, step 2). -/
def networkTaps : List (List Nat) := [
  [0, 8, 12, 13, 14],
  [1, 9, 13, 14],
  [2, 8, 10, 12, 13],
  [3, 8, 9, 11, 12],
  [4, 8, 9, 10, 14],
  [5, 9, 10, 11],
  [6, 10, 11, 12],
  [7, 11, 12, 13]]

/-- Result bit `n` of the network: the exclusive or of its product bits. -/
def networkBit (x y : Byte) (n : Nat) : Bool :=
  (networkTaps.getD n []).foldr (fun m acc => xor (networkProductBit x y m) acc) false

/-- The multiplier network of R124, an equivalent form of `gfMul` that no command uses. -/
def networkMul (x y : Byte) : Byte :=
  (List.range 8).foldr (fun n acc => acc ||| ((BitVec.ofBool (networkBit x y n)).setWidth 8 <<< n)) 0x00

end Sys2Proof.Machine
end

