-- ==== Sys2Proof/Machine/State.lean ====
section
/-! DEFINITION. What the machine holds: the core's architectural state (10_state.md R30), the host's bus activity still to
come, and what the bus outputs showed last. All of it is plain data. -/

namespace Sys2Proof.Machine

/-- The result codes of STATUS.RESULT (60_exceptions.md R271). Code 7 is never produced, so it has no name. -/
inductive ResultCode where
  | ok
  | invalidParameters
  | uncorrectable
  | divByZero
  | illegalCommand
  | sequenceError
  | locked
  deriving DecidableEq, Repr

/-- The five buffers (10_state.md R35 to R39). -/
inductive Buffer where
  /-- CW, the codeword buffer (R35). -/
  | cw
  /-- SYN, the syndrome buffer (R36). -/
  | syn
  /-- LAMBDA, the error-locator buffer (R37). -/
  | lambda
  /-- ERRPOS, the error-position list (R38). -/
  | errpos
  /-- ERRMAG, the error-magnitude list (R39). -/
  | errmag
  deriving DecidableEq, Repr

/-- What a bus address names (20_memory.md R71). -/
inductive Place where
  | cmd | status | k | r | a | b | e | res | ldeg | nerr
  /-- Entry `i` of a buffer. -/
  | entry (buf : Buffer) (i : Nat)
  /-- A reserved address: reads 0x00, ignores writes (20_memory.md R74, R80). -/
  | reserved
  deriving DecidableEq, Repr

/-- One bus access of the host (20_memory.md R70; 30_encoding.md R107). -/
inductive Access where
  /-- `RD addr`. -/
  | read (addr : Addr)
  /-- `WR addr, data`. -/
  | write (addr : Addr) (data : Byte)
  deriving DecidableEq, Repr

/-- What the host can do to the core's pins, one event a step (20_memory.md R70; 70_reset_and_hazards.md R300). -/
inductive HostEvent where
  /-- A read or a write, held until it completes. -/
  | access (acc : Access)
  /-- bus_we and bus_re asserted together: a write whose bus_rdata is unspecified (20_memory.md R70). -/
  | writeAndRead (addr : Addr) (data : Byte)
  /-- No request and rst low: the core idles and holds its state (60_exceptions.md R285). -/
  | idle
  /-- rst high on at least one rising clock edge, with no command running (70_reset_and_hazards.md R300). -/
  | reset
  /-- rst rises while the command started by writing `v` to CMD runs: the command is abandoned and its write counts as not
  performed (70_reset_and_hazards.md R300; 93_implementation_defined.md U11). -/
  | resetDuringCommand (v : Byte)
  deriving DecidableEq, Repr

/-- What bus_ready and bus_rdata showed for the last event (20_memory.md R70). The model's own field, log entry 5. -/
inductive BusReply where
  /-- No access was requested. -/
  | idle
  /-- rst was high, so bus_ready was 0 (70_reset_and_hazards.md R300). -/
  | inReset
  /-- A write completed. -/
  | written
  /-- A read completed with `v` on bus_rdata. -/
  | data (v : Byte)
  /-- A write made with bus_re asserted too completed, with the unspecified byte `v` on bus_rdata. -/
  | writtenWith (v : Byte)
  deriving DecidableEq, Repr

/-- Why the model stops. The hardware itself never stops (60_exceptions.md R270). -/
inductive Fault where
  /-- Entry `i` of a buffer was read and nothing has written it since reset. Raised by bus reads and by every command that
  reads a buffer (10_state.md R54; 20_memory.md R73; 93_implementation_defined.md U2). Safe: the hardware returns some byte
  and goes on, so nothing can be proved of such a run. -/
  | unwrittenEntry (buf : Buffer) (i : Nat)
  /-- A command reached an entry past the end of a buffer. Raised by LOCATE and CORRECT in states that break 10_state.md
  R48 (a validity flag set with invalid K and R), which no run reaches. Safe, log entry 8. -/
  | noSuchEntry (buf : Buffer) (i : Nat)
  deriving DecidableEq, Repr

/-- Why an instruction has no meaning. -/
inductive Refusal where
  /-- Raised by `exec` for an instruction without a meaning; no arm does. Safe. -/
  | notModelled (mnemonic : String)
  deriving DecidableEq, Repr

/-- The state of the machine. The fields down to `mem` are the core's (10_state.md R30); `pending`, `reply` and `draws` are
the model's own (log entries 3, 5 and 6). -/
structure State where
  /-- CMD, 0x000: the last byte written to it (10_state.md R34). -/
  cmd : Byte
  /-- STATUS.RESULT, bits [2:0] (10_state.md R42). -/
  result : ResultCode
  /-- STATUS.SYN_VALID, bit 4 (10_state.md R43). -/
  synValid : Bool
  /-- STATUS.LOC_VALID, bit 5 (10_state.md R44). -/
  locValid : Bool
  /-- STATUS.SYN_ZERO, bit 6 (10_state.md R46). -/
  synZero : Bool
  /-- STATUS.FATAL, bit 7 (10_state.md R47). -/
  fatal : Bool
  /-- K, 0x002: the data count. -/
  k : Byte
  /-- R, 0x003: the parity count. -/
  r : Byte
  /-- A, 0x004: the first field operand. -/
  a : Byte
  /-- B, 0x005: the second field operand. -/
  b : Byte
  /-- E, 0x006: the exponent. -/
  e : Byte
  /-- RES, 0x007: the field result. -/
  res : Byte
  /-- LDEG, 0x008: the locator length of the last LOCATE. -/
  ldeg : Byte
  /-- NERR, 0x009: how many positions the last CORRECT changed. -/
  nerr : Byte
  /-- The written entries of the five buffers, by bus address, addresses strictly rising; an address not listed is an entry
  nothing has written since reset (10_state.md R54). -/
  mem : List Host.Cell
  /-- The host's bus activity still to come, oldest first. -/
  pending : List HostEvent
  /-- What the bus outputs showed for the last event. -/
  reply : BusReply
  /-- How many free values of bus_rdata have been drawn. -/
  draws : Nat
  deriving DecidableEq, Repr

/-- The machine right after reset (10_state.md R53): every register and flag 0, every buffer entry unwritten. The values of
`pending`, `reply` and `draws` are the model's (log entries 3, 5 and 6). -/
def State.reset : State where
  cmd := 0x00
  result := .ok
  synValid := false
  locValid := false
  synZero := false
  fatal := false
  k := 0x00
  r := 0x00
  a := 0x00
  b := 0x00
  e := 0x00
  res := 0x00
  ldeg := 0x00
  nerr := 0x00
  mem := []
  pending := []
  reply := .idle
  draws := 0

end Sys2Proof.Machine
end

