-- ==== Sys2Proof/Machine/Ops.lean ====
section
/-! DEFINITION. The shared operations on the state: the memory of written buffer entries, the entries of a buffer, the
registers a command writes, ending a command, and reset. -/

namespace Sys2Proof.Machine

/-! ### Memory: the written entries, by bus address -/

/-- The byte at address `a`, or none where nothing has written it since reset (10_state.md R54). -/
def Memory.get : List Host.Cell → Nat → Option Byte
  | [], _ => none
  | (x, v) :: m, a => if x = a then some v else Memory.get m a

/-- The memory with `v` at address `a`, kept with rising addresses. -/
def Memory.put : List Host.Cell → Nat → Byte → List Host.Cell
  | [], a, v => [(a, v)]
  | (x, w) :: m, a, v =>
    if a < x then (a, v) :: (x, w) :: m
    else if x = a then (a, v) :: m
    else (x, w) :: Memory.put m a v

/-- The canonical form: addresses strictly rising. An unlisted address reads as no value, so no entry can equal what an
unlisted address reads as. -/
def Memory.wf : List Host.Cell → Bool
  | [] => true
  | [_] => true
  | (x, _) :: (y, w) :: m => decide (x < y) && Memory.wf ((y, w) :: m)

/-! ### Buffers -/

/-- The bus address of entry 0 (20_memory.md R71). -/
def Buffer.base : Buffer → Nat
  | .cw => 0x100
  | .syn => 0x200
  | .lambda => 0x300
  | .errpos => 0x400
  | .errmag => 0x480

/-- How many entries the buffer has (10_state.md R35 to R39). -/
def Buffer.size : Buffer → Nat
  | .cw => 255
  | .syn => 254
  | .lambda => 255
  | .errpos => 128
  | .errmag => 128

/-- The bus address of entry `i` (20_memory.md R71). -/
def Buffer.address (buf : Buffer) (i : Nat) : Nat := buf.base + i

/-- Whether a bus address is that of a buffer entry (20_memory.md R71). -/
def isEntryAddress (a : Nat) : Bool :=
  [Buffer.cw, .syn, .lambda, .errpos, .errmag].any fun buf => decide (buf.base ≤ a) && decide (a < buf.base + buf.size)

/-- Entry `i` of a buffer: its byte, or the fault of reading an unwritten entry (10_state.md R54) or one that does not
exist (log entry 8). -/
def readEntry (s : State) (buf : Buffer) (i : Nat) : Except Fault Byte :=
  if i < buf.size then
    match Memory.get s.mem (buf.address i) with
    | some v => .ok v
    | none => .error (.unwrittenEntry buf i)
  else .error (.noSuchEntry buf i)

/-- Entries `start` to `start + n - 1` of a buffer, in order; the first that cannot be read is the fault. -/
def readEntries (s : State) (buf : Buffer) (start : Nat) : Nat → Except Fault (List Byte)
  | 0 => .ok []
  | n + 1 =>
    match readEntry s buf start with
    | .error f => .error f
    | .ok v =>
      match readEntries s buf (start + 1) n with
      | .error f => .error f
      | .ok vs => .ok (v :: vs)

/-- The state with `v` in entry `i` of a buffer. -/
def State.setEntry (s : State) (buf : Buffer) (i : Nat) (v : Byte) : State :=
  { s with mem := Memory.put s.mem (buf.address i) v }

/-- The state with a list of bytes in the entries of a buffer from `start` up. -/
def State.setEntries (s : State) (buf : Buffer) (start : Nat) : List Byte → State
  | [] => s
  | v :: vs => (s.setEntry buf start v).setEntries buf (start + 1) vs

/-- A command's write of a list of bytes to a buffer from `start` up, where all of those entries exist; otherwise the fault
names the first one that does not (log entry 8). -/
def writeEntries (s : State) (buf : Buffer) (start : Nat) (vs : List Byte) : Except Fault State :=
  if start + vs.length ≤ buf.size then .ok (s.setEntries buf start vs)
  else .error (.noSuchEntry buf (max start buf.size))

/-! ### Registers that commands write (10_state.md R31) -/

/-- `x[RES] <- v`. -/
def State.setRes (s : State) (v : Byte) : State := { s with res := v }

/-- `x[LDEG] <- len`; a stored index is at most 255 (00_scope.md R12). -/
def State.setLdeg (s : State) (len : Nat) : State := { s with ldeg := BitVec.ofNat 8 len }

/-- `x[NERR] <- n`. -/
def State.setNerr (s : State) (n : Nat) : State := { s with nerr := BitVec.ofNat 8 n }

/-! ### Ending a command (00_scope.md R13; 60_exceptions.md R270, R279) -/

/-- `raise c`: the one way a command reports an error. It writes the code into STATUS.RESULT and makes no other change:
nothing is saved, no mode changes and no vector is taken (60_exceptions.md R270, R279). There is no operation that returns
from an error: the host issues the next command, which overwrites RESULT. -/
def State.raise (s : State) (c : ResultCode) : State := { s with result := c }

/-- `finish OK`. -/
def State.finishOk (s : State) : State := s.raise .ok

/-- The DIV_BY_ZERO entry: FATAL is set and the code reported (60_exceptions.md R275). -/
def State.lockDivByZero (s : State) : State := { s with fatal := true }.raise .divByZero

/-- A command's outcome as a step's outcome. -/
def outcomeOf : Except Fault State → Host.Outcome State Fault Refusal
  | .ok s => .next s
  | .error f => .fault f

/-- A command: the fatal-lock check comes first, before anything that depends on which command it is, and a locked core
answers LOCKED and does nothing else (60_exceptions.md R272 check 1, R273; log entry 15). -/
def runCommand (s : State) (body : State → Except Fault State) : Host.Outcome State Fault Refusal :=
  if s.fatal then .next (s.raise .locked) else outcomeOf (body s)

/-! ### Reset (70_reset_and_hazards.md R300, R302) -/

/-- The state after rst: every register and flag at its reset value and every buffer entry unwritten, whatever the state
was. What the host does next, and the model's counter of drawn values, stay (log entry 10). -/
def State.resetCore (s : State) : State :=
  { State.reset with pending := s.pending, reply := .inReset, draws := s.draws }

end Sys2Proof.Machine
end

