-- ==== Sys2Proof/Machine/Flags.lean ====
section
/-! DEFINITION. The STATUS register: its layout and every rule by which a command or a host write changes its flags
(10_state.md R40 to R49). -/

namespace Sys2Proof.Machine

/-- The code of a result in STATUS[2:0] (60_exceptions.md R271). -/
def ResultCode.code : ResultCode → BitVec 3
  | .ok => 0
  | .invalidParameters => 1
  | .uncorrectable => 2
  | .divByZero => 3
  | .illegalCommand => 4
  | .sequenceError => 5
  | .locked => 6

/-- STATUS = {FATAL, SYN_ZERO, LOC_VALID, SYN_VALID, 0b0, RESULT} (10_state.md R41). -/
def State.statusByte (s : State) : Byte :=
  BitVec.ofBool s.fatal ++ BitVec.ofBool s.synZero ++ BitVec.ofBool s.locValid ++ BitVec.ofBool s.synValid ++ 0#1 ++
    s.result.code

/-- `SYN_VALID <- 0; LOC_VALID <- 0; SYN_ZERO <- 0`: the invalidation event of a host write to K, R or CW (10_state.md R45),
and what ENCODE (41_encoder.md R154) and CORRECT (44_corrector.md R227) do when they finish. -/
def State.clearValidity (s : State) : State :=
  { s with synValid := false, locValid := false, synZero := false }

/-- The flags after a SYNDROME that succeeds: SYN_VALID set, LOC_VALID cleared, SYN_ZERO telling whether every syndrome is
0x00 (42_syndrome.md R170; 10_state.md R43, R44, R46). -/
def State.setSyndromeFlags (s : State) (syndromes : List Byte) : State :=
  { s with synValid := true, locValid := false, synZero := syndromes.all (· == 0x00) }

/-- `LOC_VALID <- v` (43_locator.md R190, R197). -/
def State.setLocValid (s : State) (v : Bool) : State := { s with locValid := v }

end Sys2Proof.Machine
end

