-- ==== Sys2Proof/Machine/Operands.lean ====
section
/-! DEFINITION. How commands read their operands (30_encoding.md R104, R105): fixed registers as unsigned numbers or field
elements, the parameter predicate, and the map from bus addresses to places (20_memory.md R71). -/

namespace Sys2Proof.Machine

/-- k = x[K], unsigned (30_encoding.md R105). -/
def State.dataCount (s : State) : Nat := s.k.toNat

/-- r = x[R], unsigned (30_encoding.md R105). -/
def State.parityCount (s : State) : Nat := s.r.toNat

/-- n = k + r, formed without wrap (30_encoding.md R105). -/
def State.codeLength (s : State) : Nat := s.dataCount + s.parityCount

/-- e = zext(x[E]), an unsigned integer that is never reduced (30_encoding.md R105). -/
def State.exponent (s : State) : Nat := s.e.toNat

/-- L = x[LDEG], unsigned (30_encoding.md R105). -/
def State.locatorLength (s : State) : Nat := s.ldeg.toNat

/-- `params_ok(k, r)`: k at least 1, r at least 1, and k + r at most 255 (41_encoder.md R151). -/
def paramsOk (k r : Nat) : Bool := decide (1 ≤ k) && decide (1 ≤ r) && decide (k + r ≤ 255)

/-- `params_ok` of the present K and R. -/
def State.paramsOk (s : State) : Bool := Machine.paramsOk s.dataCount s.parityCount

/-- The place a bus address names (20_memory.md R71). -/
def placeOf (addr : Addr) : Place :=
  let a := addr.toNat
  if a = 0x000 then .cmd
  else if a = 0x001 then .status
  else if a = 0x002 then .k
  else if a = 0x003 then .r
  else if a = 0x004 then .a
  else if a = 0x005 then .b
  else if a = 0x006 then .e
  else if a = 0x007 then .res
  else if a = 0x008 then .ldeg
  else if a = 0x009 then .nerr
  else if a < 0x100 then .reserved
  else if a ≤ 0x1FE then .entry .cw (a - 0x100)
  else if a < 0x200 then .reserved
  else if a ≤ 0x2FD then .entry .syn (a - 0x200)
  else if a < 0x300 then .reserved
  else if a ≤ 0x3FE then .entry .lambda (a - 0x300)
  else if a < 0x400 then .reserved
  else if a ≤ 0x47F then .entry .errpos (a - 0x400)
  else if a ≤ 0x4FF then .entry .errmag (a - 0x480)
  else .reserved

/-- The address of CMD (20_memory.md R71). -/
def cmdAddr : Addr := 0x000
/-- The address of STATUS. -/
def statusAddr : Addr := 0x001
/-- The address of K. -/
def kAddr : Addr := 0x002
/-- The address of R. -/
def rAddr : Addr := 0x003
/-- The address of A. -/
def aAddr : Addr := 0x004
/-- The address of B. -/
def bAddr : Addr := 0x005
/-- The address of E. -/
def eAddr : Addr := 0x006
/-- The address of RES. -/
def resAddr : Addr := 0x007
/-- The address of LDEG. -/
def ldegAddr : Addr := 0x008
/-- The address of NERR. -/
def nerrAddr : Addr := 0x009

/-- The bus address of entry `i` of a buffer, as the 11 address bits. -/
def entryAddr (buf : Buffer) (i : Nat) : Addr := BitVec.ofNat 11 (buf.address i)

end Sys2Proof.Machine
end

