-- ==== Sys2Proof/Machine/Locator.lean ====
section
/-! DEFINITION. The error-locator solver, Massey's algorithm (43_locator.md). -/

namespace Sys2Proof.Machine

/-- The Berlekamp-Massey state, local to one LOCATE (43_locator.md R193). -/
structure BerlekampMassey where
  /-- C: the current locator polynomial, constant term first, r + 1 coefficients. -/
  current : List Byte
  /-- B: the previous locator, the baseline. -/
  baseline : List Byte
  /-- L: the current length, the error-count estimate. -/
  len : Nat
  /-- m: the shift since the baseline was saved. -/
  shift : Nat
  /-- b: the correction factor, the discrepancy saved with the baseline. -/
  factor : Byte
  deriving DecidableEq, Repr

/-- The initial state for r syndromes: C = B = 1, L = 0, m = 1, b = 0x01 (43_locator.md R193). -/
def BerlekampMassey.init (r : Nat) : BerlekampMassey where
  current := 0x01 :: List.replicate r 0x00
  baseline := 0x01 :: List.replicate r 0x00
  len := 0
  shift := 1
  factor := 0x01

/-- The discrepancy at iteration n: s_n ⊕ the sum of C[i] ⊗ s_(n-i) for i = 1 to L (43_locator.md R194). Its index n - i is
never negative, because L ≤ n. -/
def discrepancy (sq : List Byte) (st : BerlekampMassey) (n : Nat) : Byte :=
  gfAdd (sq.getD n 0x00)
    (xorSum ((List.range st.len).map fun i => gfMul (st.current.getD (i + 1) 0x00) (sq.getD (n - (i + 1)) 0x00)))

/-- C ⊕ c ⊗ x^m ⊗ B on the coefficients of C: coefficient i gets c ⊗ B[i-m] for i ≥ m and nothing below
(43_locator.md R195). -/
def addShifted (cur : List Byte) (c : Byte) (m : Nat) (base : List Byte) : List Byte :=
  cur.mapIdx fun i x => if m ≤ i then gfAdd x (gfMul c (base.getD (i - m) 0x00)) else x

/-- The update at iteration n with discrepancy d (43_locator.md R195): nothing but m advances for d = 0; the length grows
where 2L ≤ n; otherwise the polynomial is adjusted. -/
def BerlekampMassey.update (st : BerlekampMassey) (n : Nat) (d : Byte) : BerlekampMassey :=
  if d = 0x00 then { st with shift := st.shift + 1 }
  else
    let next := addShifted st.current (gfMul d (gfInv st.factor)) st.shift st.baseline
    if 2 * st.len ≤ n then
      { current := next, baseline := st.current, len := n + 1 - st.len, shift := 1, factor := d }
    else { st with current := next, shift := st.shift + 1 }

/-- Iteration n: the discrepancy, then the update (43_locator.md R196). -/
def BerlekampMassey.iterate (sq : List Byte) (st : BerlekampMassey) (n : Nat) : BerlekampMassey :=
  st.update n (discrepancy sq st n)

/-- The state after the first n iterations on the sequence `sq`. -/
def berlekampMassey (sq : List Byte) (n : Nat) : BerlekampMassey :=
  (List.range n).foldl (BerlekampMassey.iterate sq) (BerlekampMassey.init sq.length)

/-- The syndromes in order of rising generator-root exponent: s_j = SYN[r-1-j] (43_locator.md R192). -/
def syndromeSequence (syn : List Byte) : List Byte := syn.reverse

/-- `locate(SYN[0..r-1], r)`: exactly r iterations; the locator polynomial C[0..r] and the length L (43_locator.md R196,
R200). -/
def locate (syn : List Byte) : List Byte × Nat :=
  let st := berlekampMassey (syndromeSequence syn) syn.length
  (st.current, st.len)

/-- The pseudocode of LOCATE (43_locator.md R190, R197): LAMBDA and LDEG are written whether the result is OK or
UNCORRECTABLE. -/
def locateBody (s : State) : Except Fault State :=
  if s.synValid then
    match readEntries s .syn 0 s.parityCount with
    | .error f => .error f
    | .ok syn =>
      match writeEntries s .lambda 0 (locate syn).1 with
      | .error f => .error f
      | .ok s' =>
        if (locate syn).2 ≤ s.parityCount / 2 then
          .ok ((s'.setLdeg (locate syn).2).setLocValid true).finishOk
        else .ok (((s'.setLdeg (locate syn).2).setLocValid false).raise .uncorrectable)
  else .ok (s.raise .sequenceError)

/-- LOCATE (43_locator.md R190). -/
def execLocate (s : State) : Host.Outcome State Fault Refusal := runCommand s locateBody

end Sys2Proof.Machine
end

