-- ==== Sys2Proof/Machine/Corrector.lean ====
section
/-! DEFINITION. The error locator search and the corrector (44_corrector.md). -/

namespace Sys2Proof.Machine

/-- X_p = α^(n-1-p), the locator value of position p (00_scope.md R15; 44_corrector.md R221). -/
def locatorValue (n p : Nat) : Byte := alphaPow ((n : Int) - 1 - p)

/-- The inverse of X_p: EXP[(255 - (n-1-p)) mod 255] (44_corrector.md R221). -/
def locatorInverse (n p : Nat) : Byte := alphaPow (255 - ((n : Int) - 1 - p))

/-- The root search: every position p of the n, in rising order, where the locator polynomial is zero at the inverse of X_p
(44_corrector.md R221). -/
def rootPositions (lam : List Byte) (n : Nat) : List Nat :=
  (List.range n).filter fun p => polyEval lam (locatorInverse n p) == 0x00

/-- The error evaluator: Ω[i] = the sum of s_(i-j) ⊗ LAMBDA[j] for j = 0 to i, i = 0 to r - 1 (44_corrector.md R222). -/
def evaluator (sq lam : List Byte) (r : Nat) : List Byte :=
  (List.range r).map fun i =>
    xorSum ((List.range (i + 1)).map fun j => gfMul (sq.getD (i - j) 0x00) (lam.getD j 0x00))

/-- The divisor of Forney's formula at position p: C' at the inverse of X_p (44_corrector.md R224). -/
def forneyDivisor (lam : List Byte) (n p : Nat) : Byte :=
  polyEval (formalDerivative lam) (locatorInverse n p)

/-- The magnitude at position p: X ⊗ Ω(X⁻¹) ⊗ inv(C'(X⁻¹)) (44_corrector.md R224). -/
def forney (om lam : List Byte) (n p : Nat) : Byte :=
  gfMul (gfMul (locatorValue n p) (polyEval om (locatorInverse n p))) (gfInv (forneyDivisor lam n p))

/-- The magnitudes at a list of root positions. -/
def magnitudes (syn lam : List Byte) (n : Nat) (roots : List Nat) : List Byte :=
  roots.map (forney (evaluator (syndromeSequence syn) lam syn.length) lam n)

/-- `CW[p] <- CW[p] ⊕ Y_p` for each position and magnitude, in order (44_corrector.md R226). -/
def applyCorrections (s : State) : List (Nat × Byte) → Except Fault State
  | [] => .ok s
  | (p, y) :: rest =>
    match readEntry s .cw p with
    | .error f => .error f
    | .ok v => applyCorrections (s.setEntry .cw p (gfAdd v y)) rest

/-- ERRPOS and ERRMAG for the positions found, and NERR (44_corrector.md R226). -/
def recordErrors (s : State) (roots : List Nat) (mags : List Byte) : Except Fault State :=
  match writeEntries s .errpos 0 (roots.map (BitVec.ofNat 8)) with
  | .error f => .error f
  | .ok s' =>
    match writeEntries s' .errmag 0 mags with
    | .error f => .error f
    | .ok s'' => .ok (s''.setNerr roots.length)

/-- The pseudocode of CORRECT (44_corrector.md R220, R225, R226, R227). -/
def correctBody (s : State) : Except Fault State :=
  if s.locValid then
    match readEntries s .lambda 0 (s.parityCount + 1) with
    | .error f => .error f
    | .ok lam =>
      if (rootPositions lam s.codeLength).length ≠ s.locatorLength then
        .ok ((s.setNerr 0).clearValidity.raise .uncorrectable)
      else
        match readEntries s .syn 0 s.parityCount with
        | .error f => .error f
        | .ok syn =>
          let roots := rootPositions lam s.codeLength
          let mags := magnitudes syn lam s.codeLength roots
          match applyCorrections s (roots.zip mags) with
          | .error f => .error f
          | .ok s' =>
            match recordErrors s' roots mags with
            | .error f => .error f
            | .ok s'' => .ok s''.clearValidity.finishOk
  else .ok (s.raise .sequenceError)

/-- CORRECT (44_corrector.md R220). -/
def execCorrect (s : State) : Host.Outcome State Fault Refusal := runCommand s correctBody

end Sys2Proof.Machine
end

