-- ==== Sys2Proof/Machine/Syndrome.lean ====
section
/-! DEFINITION. The syndrome evaluator (42_syndrome.md). -/

namespace Sys2Proof.Machine

/-- The value at `x` of the codeword polynomial whose highest-degree coefficient is position 0, by Horner's rule over the
positions in order (00_scope.md R15; 42_syndrome.md R171). -/
def codewordEval (cw : List Byte) (x : Byte) : Byte :=
  cw.foldl (fun acc c => gfAdd (gfMul acc x) c) 0x00

/-- `syndromes(CW[0..n-1], r)`: S[i] is the value at α^(r-1-i) (42_syndrome.md R171). -/
def syndromes (cw : List Byte) (r : Nat) : List Byte :=
  (List.range r).map fun i => codewordEval cw (alphaPow ((r : Int) - 1 - i))

/-- The pseudocode of SYNDROME (42_syndrome.md R170, R172). -/
def syndromeBody (s : State) : Except Fault State :=
  if s.paramsOk then
    match readEntries s .cw 0 s.codeLength with
    | .error f => .error f
    | .ok cw =>
      match writeEntries s .syn 0 (syndromes cw s.parityCount) with
      | .error f => .error f
      | .ok s' => .ok (s'.setSyndromeFlags (syndromes cw s.parityCount)).finishOk
  else .ok (s.raise .invalidParameters)

/-- SYNDROME (42_syndrome.md R170). -/
def execSyndrome (s : State) : Host.Outcome State Fault Refusal := runCommand s syndromeBody

end Sys2Proof.Machine
end

