-- ==== Sys2Proof/Machine/Decoder.lean ====
section
/-! DEFINITION. The composite decode (45_decode.md). -/

namespace Sys2Proof.Machine

/-- The next stage of DECODE, run only where the stage before it left RESULT = OK (45_decode.md R251). -/
def thenStage (stage : Except Fault State) (next : State → Except Fault State) : Except Fault State :=
  match stage with
  | .error f => .error f
  | .ok s => if s.result = .ok then next s else .ok s

/-- The pipeline: the bodies of SYNDROME, LOCATE and CORRECT in turn, each with every state effect it has; no early exit on
zero syndromes (45_decode.md R251). -/
def decodeBody (s : State) : Except Fault State :=
  thenStage (thenStage (syndromeBody s) locateBody) correctBody

/-- DECODE (45_decode.md R250). -/
def execDecode (s : State) : Host.Outcome State Fault Refusal := runCommand s decodeBody

end Sys2Proof.Machine
end

