-- ==== Sys2Proof/Machine/Encoder.lean ====
section
/-! DEFINITION. The systematic encoder (41_encoder.md). -/

namespace Sys2Proof.Machine

/-- The generator polynomial g_r(x) = (x ⊕ α^0)(x ⊕ α^1) … (x ⊕ α^(r-1)), coefficients low degree first
(41_encoder.md R152). -/
def generator : Nat → List Byte
  | 0 => [0x01]
  | r + 1 => mulLinear (alphaPow r) (generator r)

/-- One step of the parity shift register: with the feedback `f` = data byte ⊕ P[0], every P[j] becomes
P[j+1] ⊕ f ⊗ g[r-1-j], and the last one f ⊗ g[0] (41_encoder.md R153). `taps` is g[r-1], …, g[0]. -/
def parityStep (taps : List Byte) (p : List Byte) (d : Byte) : List Byte :=
  let f := gfAdd d (p.headD 0x00)
  List.zipWith (fun next g => gfAdd next (gfMul f g)) (p.tail ++ [0x00]) taps

/-- The coefficients g[r-1], …, g[0] the shift register is tapped with (41_encoder.md R153); g[r] = 1 is left off. -/
def parityTaps (r : Nat) : List Byte := ((generator r).take r).reverse

/-- `parity(d[0..k-1], r)`: the shift register starts at zero and takes the data bytes in order; P[0] is the highest-degree
term of the remainder (41_encoder.md R153). -/
def parity (d : List Byte) (r : Nat) : List Byte :=
  d.foldl (parityStep (parityTaps r)) (List.replicate r 0x00)

/-- The pseudocode of ENCODE (41_encoder.md R150, R151, R154). -/
def encodeBody (s : State) : Except Fault State :=
  if s.paramsOk then
    match readEntries s .cw 0 s.dataCount with
    | .error f => .error f
    | .ok d =>
      match writeEntries s .cw s.dataCount (parity d s.parityCount) with
      | .error f => .error f
      | .ok s' => .ok s'.clearValidity.finishOk
  else .ok (s.raise .invalidParameters)

/-- ENCODE (41_encoder.md R150). -/
def execEncode (s : State) : Host.Outcome State Fault Refusal := runCommand s encodeBody

end Sys2Proof.Machine
end

