-- ==== Sys2Proof/Machine/FieldCommands.lean ====
section
/-! DEFINITION. The four field commands and the illegal bytes (40_field_arithmetic.md; 60_exceptions.md R274). -/

namespace Sys2Proof.Machine

/-- GF_ADD (40_field_arithmetic.md R121). -/
def execGfAdd (s : State) : Host.Outcome State Fault Refusal :=
  runCommand s fun s => .ok (s.setRes (gfAdd s.a s.b)).finishOk

/-- GF_MUL (40_field_arithmetic.md R123). -/
def execGfMul (s : State) : Host.Outcome State Fault Refusal :=
  runCommand s fun s => .ok (s.setRes (gfMul s.a s.b)).finishOk

/-- GF_INV (40_field_arithmetic.md R127): the operand 0x00 locks the core with DIV_BY_ZERO and leaves RES unchanged
(60_exceptions.md R275). The model goes on as the hardware does (93_implementation_defined.md U1, log entry 1). -/
def execGfInv (s : State) : Host.Outcome State Fault Refusal :=
  runCommand s fun s =>
    if s.a = 0x00 then .ok s.lockDivByZero else .ok (s.setRes (gfInv s.a)).finishOk

/-- GF_POW (40_field_arithmetic.md R130). -/
def execGfPow (s : State) : Host.Outcome State Fault Refusal :=
  runCommand s fun s => .ok (s.setRes (gfPow s.a s.exponent)).finishOk

/-- An illegal byte: ILLEGAL_COMMAND and nothing else, the same for every illegal byte (30_encoding.md R103;
60_exceptions.md R274). -/
def execIllegal (_v : Byte) (s : State) : Host.Outcome State Fault Refusal :=
  runCommand s fun s => .ok (s.raise .illegalCommand)

end Sys2Proof.Machine
end

