-- ==== Sys2Proof/Machine/Dispatch.lean ====
section
/-! DEFINITION. The meaning of each instruction, one arm per constructor. -/

namespace Sys2Proof.Machine

-- What a command does after its byte is stored in CMD (20_memory.md R79; 60_exceptions.md R272).
def exec (i : Instr) (s : State) : Host.Outcome State Fault Refusal :=
  match i with
  | .gfAdd => Sys2Proof.Machine.execGfAdd s
  | .gfMul => Sys2Proof.Machine.execGfMul s
  | .gfInv => Sys2Proof.Machine.execGfInv s
  | .gfPow => Sys2Proof.Machine.execGfPow s
  | .encode => Sys2Proof.Machine.execEncode s
  | .syndrome => Sys2Proof.Machine.execSyndrome s
  | .locate => Sys2Proof.Machine.execLocate s
  | .correct => Sys2Proof.Machine.execCorrect s
  | .decode => Sys2Proof.Machine.execDecode s
  | .illegal v => Sys2Proof.Machine.execIllegal v s

end Sys2Proof.Machine
end

