-- ==== Sys2Proof/Machine/Bus.lean ====
section
/-! DEFINITION. Bus accesses and the other events of the host (20_memory.md; 70_reset_and_hazards.md R300). -/

namespace Sys2Proof.Machine

/-- `MemRead(addr, 1)`: one byte, no state changed; an unwritten entry faults (20_memory.md R72, R73, R74). -/
def busRead (s : State) (addr : Addr) : Except Fault Byte :=
  match placeOf addr with
  | .cmd => .ok s.cmd
  | .status => .ok s.statusByte
  | .k => .ok s.k
  | .r => .ok s.r
  | .a => .ok s.a
  | .b => .ok s.b
  | .e => .ok s.e
  | .res => .ok s.res
  | .ldeg => .ok s.ldeg
  | .nerr => .ok s.nerr
  | .entry buf i => readEntry s buf i
  | .reserved => .ok 0x00

/-- A write of `v` to CMD: it is stored, whether or not the command is legal or accepted, then the command runs to
completion (20_memory.md R79; 10_state.md R34). -/
def writeCmd (s : State) (v : Byte) : Host.Outcome State Fault Refusal :=
  exec (decodeByte v) { s with cmd := v }

/-- `MemWrite(addr, 1, v)` (20_memory.md R77): K, R and CW invalidate (10_state.md R45), and read-only and reserved addresses
have no effect at all (R80). -/
def busWrite (s : State) (addr : Addr) (v : Byte) : Host.Outcome State Fault Refusal :=
  match placeOf addr with
  | .cmd => writeCmd s v
  | .k => .next ({ s with k := v }.clearValidity)
  | .r => .next ({ s with r := v }.clearValidity)
  | .a => .next { s with a := v }
  | .b => .next { s with b := v }
  | .e => .next { s with e := v }
  | .entry .cw i => .next (s.setEntry .cw i v).clearValidity
  | .entry .syn _ => .next s
  | .entry .lambda _ => .next s
  | .entry .errpos _ => .next s
  | .entry .errmag _ => .next s
  | .status => .next s
  | .res => .next s
  | .ldeg => .next s
  | .nerr => .next s
  | .reserved => .next s

/-- One event of the host. A read shows its byte in `reply`; a write made with bus_re asserted too shows a free value there
(20_memory.md R70); a reset, between accesses or during a command, leaves the reset state (70_reset_and_hazards.md R300). -/
def perform (ev : HostEvent) (s : State) : Host.Outcome State Fault Refusal :=
  match ev with
  | .access (.read addr) =>
    match busRead s addr with
    | .ok v => .next { s with reply := .data v }
    | .error f => .fault f
  | .access (.write addr v) => busWrite { s with reply := .written } addr v
  | .writeAndRead addr v =>
    busWrite { s with reply := .writtenWith (Config.freeRdata s.draws), draws := s.draws + 1 } addr v
  | .idle => .next { s with reply := .idle }
  | .reset => .next s.resetCore
  | .resetDuringCommand _ => .next s.resetCore

/-- The next event of the host is taken off `pending` and performed; with none left the core idles (60_exceptions.md R285;
log entry 4). -/
def stepEvent (s : State) : Host.Outcome State Fault Refusal :=
  match s.pending with
  | [] => .next { s with reply := .idle }
  | ev :: rest => perform ev { s with pending := rest }

/-- The state with the write of `v` to CMD as the host's next event. -/
def State.withCommand (s : State) (v : Byte) : State :=
  { s with pending := .access (.write cmdAddr v) :: s.pending }

end Sys2Proof.Machine
end

