-- ==== Sys2Proof/Machine/Step.lean ====
section
/-! DEFINITION. The step: one event of the host, performed to completion (20_memory.md R79, R87). -/

namespace Sys2Proof.Machine

/-- One step of the machine. -/
def step (s : State) : Host.Outcome State Fault Refusal := stepEvent s

/-- The state whose very next step runs the command with the table word `w`: the core fetches nothing (10_state.md R33), so
the command is put where the step takes its next event from, as the host's write of that byte to CMD (log entry 3). -/
def State.withFetchWord (s : State) (nbits w : Nat) : State := s.withCommand (tableByte nbits w)

end Sys2Proof.Machine
end

