-- ==== Sys2Proof/Machine/HostScript.lean ====
section
/-! DEFINITION. The spec's notation for host programs: script lines, their expansions and the 20-bit transaction words
(30_encoding.md R107 to R109). It is notation, not hardware: the machine sees only the accesses. -/

namespace Sys2Proof.Machine

/-- A line of a host script (30_encoding.md R107, R108). -/
inductive ScriptLine where
  /-- `WR addr, byte`. -/
  | wr (addr : Addr) (v : Byte)
  /-- `RD addr`: the value is discarded. -/
  | rd (addr : Addr)
  /-- `RD addr -> byte`: a read whose expected value the program states. -/
  | rdExpect (addr : Addr) (v : Byte)
  /-- A command mnemonic: `WR CMD, byte`. -/
  | command (i : Instr)
  /-- `SETKR k, r`. -/
  | setKR (k r : Byte)
  /-- `LOADCW p, v0, …, vm`. -/
  | loadCW (p : Nat) (vs : List Byte)
  /-- `CHECK result`: `RD STATUS` and a comparison of its bits [2:0]. -/
  | check (c : ResultCode)
  deriving DecidableEq, Repr

/-- `WR CW+p, v0`, `WR CW+(p+1), v1` and so on (30_encoding.md R108). -/
def loadAccesses (p : Nat) : List Byte → List Access
  | [] => []
  | v :: vs => .write (entryAddr .cw p) v :: loadAccesses (p + 1) vs

/-- The accesses a line stands for (30_encoding.md R107, R108). -/
def ScriptLine.expand : ScriptLine → List Access
  | .wr addr v => [.write addr v]
  | .rd addr => [.read addr]
  | .rdExpect addr _ => [.read addr]
  | .command i => [.write cmdAddr (encodeByte i)]
  | .setKR k r => [.write kAddr k, .write rAddr r]
  | .loadCW p vs => loadAccesses p vs
  | .check _ => [.read statusAddr]

/-- Whether a line's stated expectation holds of the bus reply to its access; a line without one always holds. -/
def ScriptLine.holds (line : ScriptLine) (reply : BusReply) : Bool :=
  match line with
  | .rdExpect _ v => reply == .data v
  | .check c =>
    match reply with
    | .data v => v.extractLsb' 0 3 == c.code
    | _ => false
  | _ => true

/-- The state with a host program put before what the host does next (log entry 3). -/
def State.withScript (s : State) (lines : List ScriptLine) : State :=
  { s with pending := (lines.flatMap ScriptLine.expand).map HostEvent.access ++ s.pending }

/-- TW = {dir, addr[10:0], data[7:0]}: dir is 1 for WR and 0 for RD, and data is 0x00 for RD (30_encoding.md R109). -/
def transactionWord : Access → BitVec 20
  | .write addr v => 1#1 ++ addr ++ v
  | .read addr => 0#1 ++ addr ++ 0x00#8

/-- The access a transaction word stands for; a read whose data field is not 0x00 is no transaction word. -/
def decodeTransaction (tw : BitVec 20) : Option Access :=
  let addr : Addr := tw.extractLsb' 8 11
  let data : Byte := tw.extractLsb' 0 8
  if tw.getLsbD 19 then some (.write addr data)
  else if data = 0x00 then some (.read addr)
  else none

end Sys2Proof.Machine
end

