-- ==== Sys2Proof/Safety.lean ====
section
/-! DEFINITION. What claims are stated in terms of: the invariants of 10_state.md R48, and which states and runs are
safe. -/

namespace Sys2Proof.Machine

/-- K and R hold valid parameters and SYN holds the syndromes of the present CW, with SYN_ZERO telling whether they are all
zero (10_state.md R46, R48). -/
def State.SyndromesCurrent (s : State) : Prop :=
  s.paramsOk = true ∧
    ∃ cw, readEntries s .cw 0 s.codeLength = .ok cw ∧
      readEntries s .syn 0 s.parityCount = .ok (syndromes cw s.parityCount) ∧
      s.synZero = (syndromes cw s.parityCount).all (· == 0x00)

/-- LAMBDA and LDEG hold what LOCATE computes from the present SYN, and L is at most floor(R/2) (10_state.md R48). -/
def State.LocatorCurrent (s : State) : Prop :=
  ∃ syn, readEntries s .syn 0 s.parityCount = .ok syn ∧
    readEntries s .lambda 0 (s.parityCount + 1) = .ok (locate syn).1 ∧
    s.locatorLength = (locate syn).2 ∧ s.locatorLength ≤ s.parityCount / 2

/-- The invariants of 10_state.md R48, with the canonical form of the memory. -/
structure State.Inv (s : State) : Prop where
  /-- The memory lists addresses strictly rising. -/
  memWf : Memory.wf s.mem = true
  /-- The memory lists addresses of buffer entries only. -/
  memEntries : ∀ c ∈ s.mem, isEntryAddress c.1 = true
  /-- LOC_VALID = 1 ⇒ SYN_VALID = 1. -/
  locSyn : s.locValid = true → s.synValid = true
  /-- SYN_ZERO = 1 ⇒ SYN_VALID = 1. -/
  zeroSyn : s.synZero = true → s.synValid = true
  /-- SYN_VALID = 1 ⇒ the parameters are valid and SYN is current. -/
  synCurrent : s.synValid = true → s.SyndromesCurrent
  /-- LOC_VALID = 1 ⇒ LAMBDA and LDEG are current. -/
  locCurrent : s.locValid = true → s.LocatorCurrent

/-- Every entry a command reads as the received word, CW[0 … n-1], has been written. -/
def State.wordWritten (s : State) (n : Nat) : Prop :=
  ∀ p, p < n → (Memory.get s.mem (Buffer.cw.address p)).isSome = true

/-- A run of `n` steps that meets no fault: what a host program owes (10_state.md R54). -/
def State.SafeFor (s : State) (n : Nat) : Prop :=
  ∃ t, Sys2Proof.core.run n s = .next t

end Sys2Proof.Machine
end

