-- ==== Sys2Proof/Certificates/Slice0/Obligations.lean ====
section
/-! DEFINITION. The statements about the model. The definitions under `Sys2Proof.Claims` say in the spec's own terms (sums,
pseudocode, address ranges) what the statements compare the model with. -/

namespace Sys2Proof.Claims

open Sys2Proof.Machine

/-- The byte at a bus address of a buffer entry; none where it is unwritten. -/
abbrev byteAt (s : State) (a : Nat) : Option Byte := Memory.get s.mem a

/-- Every byte from address `lo` up to but not including `hi` apart, memory reads the same. -/
def SameOutside (s t : State) (lo hi : Nat) : Prop :=
  ∀ a, ¬(lo ≤ a ∧ a < hi) → byteAt t a = byteAt s a

/-- The entries from address `base` up hold the bytes of a list. -/
def Holds (s : State) (base : Nat) (vs : List Byte) : Prop :=
  ∀ i (h : i < vs.length), byteAt s (base + i) = some vs[i]

/-- `params_ok` in plain arithmetic (41_encoder.md R151). -/
def ValidParams (s : State) : Prop :=
  1 ≤ s.k.toNat ∧ 1 ≤ s.r.toNat ∧ s.k.toNat + s.r.toNat ≤ 255

/-- The number of a result code (60_exceptions.md R271). -/
def codeNumber : ResultCode → Nat
  | .ok => 0
  | .invalidParameters => 1
  | .uncorrectable => 2
  | .divByZero => 3
  | .illegalCommand => 4
  | .sequenceError => 5
  | .locked => 6

/-- STATUS as a number, field by field (10_state.md R41). -/
def statusNumber (s : State) : Nat :=
  codeNumber s.result + 16 * s.synValid.toNat + 32 * s.locValid.toNat + 64 * s.synZero.toNat + 128 * s.fatal.toNat

/-- What the address map says a read returns; none for an unwritten entry (20_memory.md R71, R72, R74). -/
def mapRead (s : State) (a : Nat) : Option Byte :=
  if a = 0x000 then some s.cmd
  else if a = 0x001 then some (BitVec.ofNat 8 (statusNumber s))
  else if a = 0x002 then some s.k
  else if a = 0x003 then some s.r
  else if a = 0x004 then some s.a
  else if a = 0x005 then some s.b
  else if a = 0x006 then some s.e
  else if a = 0x007 then some s.res
  else if a = 0x008 then some s.ldeg
  else if a = 0x009 then some s.nerr
  else if a ≤ 0x0FF then some 0x00
  else if a ≤ 0x1FE then byteAt s a
  else if a = 0x1FF then some 0x00
  else if a ≤ 0x2FD then byteAt s a
  else if a ≤ 0x2FF then some 0x00
  else if a ≤ 0x3FE then byteAt s a
  else if a = 0x3FF then some 0x00
  else if a ≤ 0x4FF then byteAt s a
  else some 0x00

/-- The byte the next event writes to CMD, if it does. -/
def commandWritten (s : State) : Option Byte :=
  match s.pending with
  | .access (.write addr v) :: _ => if addr = 0x000 then some v else none
  | .writeAndRead addr v :: _ => if addr = 0x000 then some v else none
  | _ => none

/-- The address the next event writes, if it writes. -/
def addressWritten (s : State) : Option Nat :=
  match s.pending with
  | .access (.write addr _) :: _ => some addr.toNat
  | .writeAndRead addr _ :: _ => some addr.toNat
  | _ => none

/-- The next event is the invalidation event: a write to K, R or CW (10_state.md R45). -/
def invalidates (s : State) : Prop :=
  ∃ a, addressWritten s = some a ∧ (a = 0x002 ∨ a = 0x003 ∨ 0x100 ≤ a ∧ a ≤ 0x1FE)

/-- A step from `s` to `t` writes `v` to CMD, and the command ends with one of the codes. -/
def commandEnds (s t : State) (v : Byte) (codes : List ResultCode) : Prop :=
  commandWritten s = some v ∧ t.result ∈ codes

/-- The positions below `n` where two states' codeword buffers differ, in rising order. -/
def differingPositions (s t : State) (n : Nat) : List Nat :=
  (List.range n).filter fun p => byteAt t (0x100 + p) != byteAt s (0x100 + p)

/-- The next event asserts rst. -/
def resetNext (s : State) : Prop :=
  ∃ rest, s.pending = .reset :: rest ∨ ∃ v, s.pending = .resetDuringCommand v :: rest

/-- An event that is neither a command, nor a reset, nor a write to `addr`. -/
def LeavesAlone (addr : Addr) : HostEvent → Prop
  | .access (.read _) => True
  | .access (.write c _) => c ≠ addr ∧ c ≠ 0x000
  | .writeAndRead c _ => c ≠ addr ∧ c ≠ 0x000
  | .idle => True
  | .reset => False
  | .resetDuringCommand _ => False

/-- The pseudocode of the multiplier on a 15-bit product (40_field_arithmetic.md R123). -/
def carrylessProduct (a b : Byte) : BitVec 15 :=
  (List.range 8).foldl (fun p i => if b.getLsbD i then p ^^^ (a.setWidth 15 <<< i) else p) 0
def reducedProduct (p : BitVec 15) : BitVec 15 :=
  [14, 13, 12, 11, 10, 9, 8].foldl (fun p i => if p.getLsbD i then p ^^^ (0x11D#15 <<< (i - 8)) else p) p
def mul (a b : Byte) : Byte := (reducedProduct (carrylessProduct a b)).extractLsb' 0 8

/-- A byte as a polynomial over GF(2): bit i is the coefficient of x^i (40_field_arithmetic.md R120). -/
noncomputable def toPoly (v : Byte) : Polynomial (ZMod 2) :=
  ∑ i ∈ Finset.range 8, if v.getLsbD i then Polynomial.X ^ i else 0

/-- P = x^8 + x^4 + x^3 + x^2 + 1 (00_scope.md R3). -/
noncomputable def polyP : Polynomial (ZMod 2) :=
  Polynomial.X ^ 8 + Polynomial.X ^ 4 + Polynomial.X ^ 3 + Polynomial.X ^ 2 + 1

/-- The sum over i < n of `f i` in the field. -/
def sumTo (n : Nat) (f : Nat → Byte) : Byte := xorSum ((List.range n).map f)

/-- The sum of `c[i]` times `x` to the i (00_scope.md R14). -/
def evalSum (c : List Byte) (x : Byte) : Byte :=
  sumTo c.length fun i => gfMul (c.getD i 0x00) (gfPow x i)

/-- The derivative's value: the sum over odd i of `c[i]` times `x` to the i - 1 (00_scope.md R14). -/
def derivSum (c : List Byte) (x : Byte) : Byte :=
  sumTo c.length fun i => if i % 2 = 1 then gfMul (c.getD i 0x00) (gfPow x (i - 1)) else 0x00

/-- The parity shift register, cell by cell (41_encoder.md R153). -/
def parityRegister (d : List Byte) (r : Nat) : Nat → Byte :=
  d.foldl (fun p x =>
    let f := gfAdd x (p 0)
    fun j =>
      if j + 1 < r then gfAdd (p (j + 1)) (gfMul f ((generator r).getD (r - 1 - j) 0x00))
      else gfMul f ((generator r).getD 0 0x00)) fun _ => 0x00

/-- S[i] as the sum over positions of CW[p] times (α^(r-1-i))^(n-1-p) (42_syndrome.md R171). -/
def syndromeSum (cw : List Byte) (r i : Nat) : Byte :=
  sumTo cw.length fun p =>
    gfMul (cw.getD p 0x00) (gfPow (gfPow alpha (r - 1 - i)) (cw.length - 1 - p))

/-- X_p = α^(n-1-p) as a power (00_scope.md R15). -/
def positionValue (n p : Nat) : Byte := gfPow alpha (n - 1 - p)

/-- Forney's magnitude at position p, from the sums of 44_corrector.md R222 to R224; `syn` is SYN[0 … r-1]. -/
def magnitudeSum (syn lam : List Byte) (n p : Nat) : Byte :=
  let x := positionValue n p
  let xi := gfInv x
  let sq := syn.reverse
  let om := fun i => sumTo (i + 1) fun j => gfMul (sq.getD (i - j) 0x00) (lam.getD j 0x00)
  gfMul (gfMul x (sumTo syn.length fun i => gfMul (om i) (gfPow xi i))) (gfInv (derivSum lam xi))

/-- The next state of an outcome, changed by `f`. -/
def mapNext (f : State → State) : Host.Outcome State Fault Refusal → Host.Outcome State Fault Refusal
  | .next t => .next (f t)
  | .fault r => .fault r
  | .refused q => .refused q

/-- The next host write, issued only if the one before it left RESULT = OK (45_decode.md R254). -/
def ifOk (o : Host.Outcome State Fault Refusal) (next : State → Host.Outcome State Fault Refusal) :
    Host.Outcome State Fault Refusal :=
  match o with
  | .next t => if t.result = .ok then next t else .next t
  | .fault r => .fault r
  | .refused q => .refused q

/-- The codes a command may end with once the core is not locked (60_exceptions.md R271). -/
def raisable : Instr → List ResultCode
  | .gfAdd => [.ok]
  | .gfMul => [.ok]
  | .gfInv => [.ok, .divByZero]
  | .gfPow => [.ok]
  | .encode => [.ok, .invalidParameters]
  | .syndrome => [.ok, .invalidParameters]
  | .locate => [.ok, .uncorrectable, .sequenceError]
  | .correct => [.ok, .uncorrectable, .sequenceError]
  | .decode => [.ok, .invalidParameters, .uncorrectable]
  | .illegal _ => [.illegalCommand]

end Sys2Proof.Claims

section

open Sys2Proof Sys2Proof.Machine Sys2Proof.Claims

/-! ### Encoding -/

/-- 30_encoding.md R101, R102: the byte selects the command, every other byte is illegal, and the fatal-lock check comes
before decoding, so that a locked core answers every byte alike. -/
def Obligations.DecoderFollowsOpcodeMap : Prop :=
  (∀ v : Byte, decodeByte v =
    if v = 0x01 then .gfAdd else if v = 0x02 then .gfMul else if v = 0x03 then .gfInv else if v = 0x04 then .gfPow
    else if v = 0x05 then .encode else if v = 0x06 then .syndrome else if v = 0x07 then .locate
    else if v = 0x08 then .correct else if v = 0x09 then .decode else .illegal v) ∧
  ∀ (s : State) (v : Byte), s.fatal = true → writeCmd s v = .next { s with cmd := v, result := .locked }

/-- Decoding an encoded well-formed instruction gives it back with the bytes after it, and every byte decodes to a
well-formed instruction that encodes to it. -/
def Obligations.DecodeAndEncodeAgree : Prop :=
  (∀ (i : Instr) (rest : List Byte), i.wellFormed = true → decode (encode i ++ rest) = .ok (i, rest)) ∧
  ∀ v : Byte, (decodeByte v).wellFormed = true ∧ encodeByte (decodeByte v) = v

/-- A word of each family, written out bit by bit from 30_encoding.md R100, R101, decodes to its instruction. -/
def Obligations.WrittenOutWordsDecode : Prop :=
  decodeTableWord 8 0b00000001 = some .gfAdd ∧ decodeTableWord 8 0b00000010 = some .gfMul ∧
  decodeTableWord 8 0b00000101 = some .encode ∧ decodeTableWord 8 0b00000110 = some .syndrome ∧
  decodeTableWord 8 0b00000111 = some .locate ∧ decodeTableWord 8 0b00001000 = some .correct ∧
  decodeTableWord 8 0b00001001 = some .decode ∧ decodeTableWord 8 0b00000000 = some (.illegal 0x00) ∧
  decodeTableWord 8 0b00010001 = some (.illegal 0x11)

/-- A transaction word is {dir, addr, data}, and it decodes to its access (30_encoding.md R109). -/
def Obligations.TransactionWordCarriesItsAccess : Prop :=
  ∀ (addr : Addr) (v : Byte),
    (transactionWord (.write addr v)).toNat = 2 ^ 19 + 2 ^ 8 * addr.toNat + v.toNat ∧
    (transactionWord (.read addr)).toNat = 2 ^ 8 * addr.toNat ∧
    decodeTransaction (transactionWord (.write addr v)) = some (.write addr v) ∧
    decodeTransaction (transactionWord (.read addr)) = some (.read addr)

/-! ### The bus and the step -/

/-- 20_memory.md R72, R73, R74: a read returns what the address map says and changes no state of the core, a reserved address
reads 0x00, and an unwritten entry faults. -/
def Obligations.HostReadFollowsAddressMap : Prop :=
  ∀ (s : State) (addr : Addr) (rest : List HostEvent), s.pending = .access (.read addr) :: rest →
    (∀ v, mapRead s addr.toNat = some v → step s = .next { s with pending := rest, reply := .data v }) ∧
    (mapRead s addr.toNat = none →
      ∃ buf i, buf.address i = addr.toNat ∧ step s = .fault (.unwrittenEntry buf i))

/-- 20_memory.md R77, R80 and 10_state.md R45: a write to CMD stores the byte and runs the command, K, R and CW store and
invalidate whatever the value was, A, B and E store, and every other write has no effect. -/
def Obligations.HostWriteFollowsAddressMap : Prop :=
  ∀ (s u : State) (addr : Addr) (v : Byte) (rest : List HostEvent),
    s.pending = .access (.write addr v) :: rest → u = { s with pending := rest, reply := .written } →
    (addr.toNat = 0x000 → step s = exec (decodeByte v) { u with cmd := v }) ∧
    (addr.toNat = 0x002 →
      step s = .next { u with k := v, synValid := false, locValid := false, synZero := false }) ∧
    (addr.toNat = 0x003 →
      step s = .next { u with r := v, synValid := false, locValid := false, synZero := false }) ∧
    (addr.toNat = 0x004 → step s = .next { u with a := v }) ∧
    (addr.toNat = 0x005 → step s = .next { u with b := v }) ∧
    (addr.toNat = 0x006 → step s = .next { u with e := v }) ∧
    (0x100 ≤ addr.toNat ∧ addr.toNat ≤ 0x1FE →
      ∃ t, step s = .next t ∧
        t = { u with mem := t.mem, synValid := false, locValid := false, synZero := false } ∧
        byteAt t addr.toNat = some v ∧ ∀ a, a ≠ addr.toNat → byteAt t a = byteAt s a) ∧
    (addr.toNat = 0x001 ∨ (0x007 ≤ addr.toNat ∧ addr.toNat ≤ 0x0FF) ∨ 0x1FF ≤ addr.toNat → step s = .next u)

/-- 20_memory.md R78: after a write to a read/write register or a CW entry that address reads the value, and no event but a
command, a reset or a write to it changes what it reads. -/
def Obligations.WrittenValueStaysUntilOverwritten : Prop :=
  ∀ addr : Addr, (addr.toNat ≤ 0x006 ∧ addr.toNat ≠ 0x001) ∨ (0x100 ≤ addr.toNat ∧ addr.toNat ≤ 0x1FE) →
    (∀ (s : State) (v : Byte) (rest : List HostEvent), s.pending = .access (.write addr v) :: rest →
      (addr.toNat ≠ 0x000 → ∃ t, step s = .next t) ∧ ∀ t, step s = .next t → mapRead t addr.toNat = some v) ∧
    ∀ (s t : State) (ev : HostEvent) (rest : List HostEvent), s.pending = ev :: rest → LeavesAlone addr ev →
      step s = .next t → mapRead t addr.toNat = mapRead s addr.toNat

/-- A write made with bus_re asserted too is that write, with an unspecified byte on bus_rdata (20_memory.md R70); the byte
is the free value of log entry 6 and the statement holds for every value of it. -/
def Obligations.WriteWithReadAssertedIsTheWrite : Prop :=
  ∀ (s : State) (addr : Addr) (v : Byte) (rest : List HostEvent),
    step { s with pending := .writeAndRead addr v :: rest } =
      mapNext (fun t => { t with reply := .writtenWith (Config.freeRdata s.draws), draws := s.draws + 1 })
        (step { s with pending := .access (.write addr v) :: rest })

/-- A step whose next event writes a well-formed instruction's byte to CMD is `exec` of that instruction, in the state with
the event taken off the host's list, the byte stored in CMD and the write's reply on the bus (20_memory.md R79). -/
def Obligations.StepRunsTheDecodedInstruction : Prop :=
  ∀ (s : State) (i : Instr) (rest : List HostEvent), i.wellFormed = true →
    s.pending = .access (.write 0x000 (encodeByte i)) :: rest →
    step s = exec i { s with pending := rest, reply := .written, cmd := encodeByte i }

/-- With no request the core holds its state (60_exceptions.md R285); that an empty list of events is idle time is the
model's choice (log entry 4). -/
def Obligations.IdleCoreHoldsItsState : Prop :=
  (∀ s : State, s.pending = [] → step s = .next { s with reply := .idle }) ∧
  ∀ (s : State) (rest : List HostEvent), s.pending = .idle :: rest →
    step s = .next { s with pending := rest, reply := .idle }

/-! ### Field arithmetic -/

/-- 40_field_arithmetic.md R121: GF_ADD writes A xor B to RES, reports OK and changes nothing else. -/
def Obligations.GfAddWritesTheSum : Prop :=
  ∀ s : State, s.fatal = false → exec .gfAdd s = .next { s with res := s.a ^^^ s.b, result := .ok }

/-- 40_field_arithmetic.md R123: GF_MUL writes the carry-less product reduced modulo 0x11D to RES, by the rule's own
pseudocode on a 15-bit product, reports OK and changes nothing else. -/
def Obligations.GfMulWritesTheProduct : Prop :=
  ∀ s : State, s.fatal = false → exec .gfMul s = .next { s with res := mul s.a s.b, result := .ok }

/-- Field multiplication is multiplication of polynomials over GF(2) modulo P (40_field_arithmetic.md R120, R123;
00_scope.md R17). -/
def Obligations.MultiplicationIsPolynomialProductModP : Prop :=
  ∀ a b : Byte, polyP ∣ toPoly a * toPoly b - toPoly (gfMul a b)

/-- 40_field_arithmetic.md R124: the combinational network computes the same product. -/
def Obligations.MultiplierNetworkIsEquivalent : Prop :=
  ∀ a b : Byte, networkMul a b = gfMul a b

/-- 40_field_arithmetic.md R122 and R126: the laws of field addition and multiplication. -/
def Obligations.FieldLawsHold : Prop :=
  ∀ a b c : Byte,
    gfAdd a b = gfAdd b a ∧ gfAdd (gfAdd a b) c = gfAdd a (gfAdd b c) ∧ gfAdd a 0x00 = a ∧ gfAdd a a = 0x00 ∧
    gfMul a b = gfMul b a ∧ gfMul a (gfAdd b c) = gfAdd (gfMul a b) (gfMul a c) ∧
    gfMul (gfMul a b) c = gfMul a (gfMul b c) ∧ gfMul a 0x01 = a ∧ gfMul a 0x00 = 0x00 ∧
    (gfMul a b = 0x00 → a = 0x00 ∨ b = 0x00)

/-- 40_field_arithmetic.md R127: GF_INV writes the one element whose product with A is 1; for A = 0 it sets FATAL, reports
DIV_BY_ZERO and leaves RES unchanged. -/
def Obligations.GfInvWritesTheOneInverse : Prop :=
  ∀ s : State, s.fatal = false →
    (s.a ≠ 0x00 → ∃ y : Byte, y ≠ 0x00 ∧ gfMul s.a y = 0x01 ∧ (∀ z, gfMul s.a z = 0x01 → z = y) ∧
      exec .gfInv s = .next { s with res := y, result := .ok }) ∧
    (s.a = 0x00 → exec .gfInv s = .next { s with fatal := true, result := .divByZero })

/-- 40_field_arithmetic.md R130: GF_POW multiplies A into 1 exactly E times, E unsigned and unreduced, with the corner cases
the rule lists. -/
def Obligations.GfPowWritesThePower : Prop :=
  ∀ s : State, s.fatal = false →
    ∃ y : Byte, y = (fun acc => gfMul acc s.a)^[s.e.toNat] 0x01 ∧
      exec .gfPow s = .next { s with res := y, result := .ok } ∧
      (s.e = 0 → y = 0x01) ∧ (s.a = 0x00 → s.e ≠ 0 → y = 0x00) ∧ (s.a ≠ 0x00 → s.e.toNat = 255 → y = 0x01)

/-- 40_field_arithmetic.md R133: the power and table laws. -/
def Obligations.PowerAndTableLawsHold : Prop :=
  ∀ a : Byte, a ≠ 0x00 → ∃ l, l < 255 ∧ gfLog a = some l ∧
    (∀ e, gfPow a e = expTable (l * e % 255)) ∧
    (∀ e f, gfPow a (e + f) = gfMul (gfPow a e) (gfPow a f)) ∧
    gfPow a 255 = 0x01 ∧ gfInv a = gfPow a 254 ∧ gfInv a = expTable ((255 - l) % 255) ∧
    ∀ b : Byte, b ≠ 0x00 → ∃ m, gfLog b = some m ∧ gfMul a b = expTable ((l + m) % 255)

/-- 40_field_arithmetic.md R134: EXP lists 255 distinct nonzero elements, so α has order 255, and the generator roots and
the locator values X_p are distinct. -/
def Obligations.AlphaHasOrder255 : Prop :=
  (∀ i j, i < 255 → j < 255 → expTable i = expTable j → i = j) ∧ (∀ i, i < 255 → expTable i ≠ 0x00) ∧
  gfPow alpha 255 = 0x01 ∧ (∀ e, 0 < e → e < 255 → gfPow alpha e ≠ 0x01) ∧
  (∀ r, r ≤ 254 → ∀ i j : Nat, i < r → j < r → alphaPow i = alphaPow j → i = j) ∧
  ∀ n, n ≤ 255 → ∀ p q, p < n → q < n → locatorValue n p = locatorValue n q → p = q

/-- The Horner evaluation of the model is the sum of 00_scope.md R14, and so is its formal derivative. -/
def Obligations.PolynomialEvaluationIsThePowerSum : Prop :=
  ∀ (c : List Byte) (x : Byte),
    polyEval c x = evalSum c x ∧ polyEval (formalDerivative c) x = derivSum c x

/-! ### Errors that change nothing but RESULT, and the lock -/

/-- 60_exceptions.md R274: an illegal byte reports ILLEGAL_COMMAND and nothing else changes beyond CMD. -/
def Obligations.IllegalByteChangesOnlyResult : Prop :=
  ∀ (s : State) (v : Byte), s.fatal = false →
    exec (.illegal v) s = .next { s with result := .illegalCommand } ∧
    ∀ rest, illegalByte v = true → s.pending = .access (.write 0x000 v) :: rest →
      step s = .next { s with pending := rest, reply := .written, cmd := v, result := .illegalCommand }

/-- 41_encoder.md R151: ENCODE, SYNDROME and DECODE with invalid parameters change nothing but RESULT, whatever the buffers
hold; with valid parameters they never report it. -/
def Obligations.InvalidParametersChangeOnlyResult : Prop :=
  ∀ (s : State) (i : Instr), s.fatal = false → i = .encode ∨ i = .syndrome ∨ i = .decode →
    (¬ValidParams s → exec i s = .next { s with result := .invalidParameters }) ∧
    (ValidParams s → ∀ t, exec i s = .next t → t.result ≠ .invalidParameters)

/-- 60_exceptions.md R276: LOCATE without SYN_VALID and CORRECT without LOC_VALID report SEQUENCE_ERROR and change nothing
else. -/
def Obligations.OutOfOrderStagesReportSequenceError : Prop :=
  ∀ s : State, s.fatal = false →
    (s.synValid = false → exec .locate s = .next { s with result := .sequenceError }) ∧
    (s.locValid = false → exec .correct s = .next { s with result := .sequenceError })

/-- 10_state.md R47: a locked core refuses every command with LOCKED and no other change, only a reset unlocks it, and only
GF_INV of 0 locks it. -/
def Obligations.FatalLocksUntilReset : Prop :=
  (∀ (s : State) (v : Byte) (rest : List HostEvent), s.fatal = true → s.pending = .access (.write 0x000 v) :: rest →
    step s = .next { s with pending := rest, reply := .written, cmd := v, result := .locked }) ∧
  ∀ s t : State, step s = .next t →
    (s.fatal = true → t.fatal = false → resetNext s) ∧
    (s.fatal = false → (t.fatal = true ↔ commandWritten s = some 0x03 ∧ s.a = 0x00)) ∧
    (s.fatal = false → t.fatal = true → t.result = .divByZero)

/-! ### The encoder -/

/-- 41_encoder.md R152: g_r is monic of degree r, is the product of the factors x ⊕ α^j, has exactly the generator roots, and
has the coefficients the rule lists for r = 1 to 8. -/
def Obligations.GeneratorHasExactlyItsRoots : Prop :=
  (∀ r, (generator r).length = r + 1 ∧ (generator r).getD r 0x00 = 0x01 ∧
    ∀ x, polyEval (generator r) x = (List.range r).foldl (fun acc j => gfMul acc (gfAdd x (alphaPow j))) 0x01) ∧
  (∀ r x, r ≤ 254 → (polyEval (generator r) x = 0x00 ↔ ∃ j : Nat, j < r ∧ x = alphaPow j)) ∧
  generator 1 = [0x01, 0x01] ∧ generator 2 = [0x02, 0x03, 0x01] ∧ generator 3 = [0x08, 0x0E, 0x07, 0x01] ∧
  generator 4 = [0x40, 0x78, 0x36, 0x0F, 0x01] ∧ generator 5 = [0x74, 0x93, 0x3F, 0xC6, 0x1F, 0x01] ∧
  generator 6 = [0x26, 0xE3, 0x20, 0xDA, 0x01, 0x3F, 0x01] ∧
  generator 7 = [0x75, 0x44, 0x0B, 0xA4, 0x9A, 0x7A, 0x7F, 0x01] ∧
  generator 8 = [0x18, 0xC8, 0xAD, 0xEF, 0x36, 0x51, 0x0B, 0xFF, 0x01]

/-- 41_encoder.md R154, with the shift register of R153: with valid parameters and the data block written, ENCODE ends OK,
CW[k … k+r-1] holds the parity, the validity flags are clear, and every other register and byte is unchanged. -/
def Obligations.EncodeWritesTheParity : Prop :=
  ∀ (s : State) (d : List Byte), s.fatal = false → ValidParams s → d.length = s.k.toNat → Holds s 0x100 d →
    ∃ t, exec .encode s = .next t ∧
      t = { s with mem := t.mem, synValid := false, locValid := false, synZero := false, result := .ok } ∧
      (∀ j, j < s.r.toNat → byteAt t (0x100 + s.k.toNat + j) = some (parityRegister d s.r.toNat j)) ∧
      SameOutside s t (0x100 + s.k.toNat) (0x100 + s.k.toNat + s.r.toNat)

/-- 41_encoder.md R155: after ENCODE OK the data block is as it was, a SYNDROME right after finds every syndrome zero, and a
DECODE right after ends OK with NERR = 0 and CW unchanged. -/
def Obligations.EncodedWordIsACodeword : Prop :=
  ∀ s t : State, exec .encode s = .next t → t.result = .ok →
    (∀ i, i < s.k.toNat → byteAt t (0x100 + i) = byteAt s (0x100 + i)) ∧
    (∃ u, exec .syndrome t = .next u ∧ u.result = .ok ∧ u.synZero = true ∧
      ∀ i, i < s.r.toNat → byteAt u (0x200 + i) = some 0x00) ∧
    ∃ w, exec .decode t = .next w ∧ w.result = .ok ∧ w.nerr = 0x00 ∧
      ∀ p, p < 255 → byteAt w (0x100 + p) = byteAt t (0x100 + p)

/-! ### The syndrome evaluator -/

/-- 42_syndrome.md R171, R172: with valid parameters and the word written, SYNDROME ends OK, SYN[i] is the evaluation of the
word at α^(r-1-i) as a sum over positions, the flags are set as the rule says, and every other register and byte is
unchanged. -/
def Obligations.SyndromeEvaluatesTheReceivedWord : Prop :=
  ∀ (s : State) (cw : List Byte), s.fatal = false → ValidParams s → cw.length = s.k.toNat + s.r.toNat →
    Holds s 0x100 cw →
    ∃ t, exec .syndrome s = .next t ∧
      t = { s with mem := t.mem, synValid := true, locValid := false, synZero := t.synZero, result := .ok } ∧
      (∀ i, i < s.r.toNat → byteAt t (0x200 + i) = some (syndromeSum cw s.r.toNat i)) ∧
      (t.synZero = true ↔ ∀ i, i < s.r.toNat → syndromeSum cw s.r.toNat i = 0x00) ∧
      SameOutside s t 0x200 (0x200 + s.r.toNat)

/-- 42_syndrome.md R173: the syndromes of a codeword are zero, those of a codeword plus an error word are those of the error
word, which are the sums of its bytes times powers of X_p, and a single error makes every syndrome nonzero. -/
def Obligations.SyndromesDependOnTheErrorsAlone : Prop :=
  ∀ (d e : List Byte) (r : Nat), 1 ≤ d.length → 1 ≤ r → d.length + r ≤ 255 → e.length = d.length + r →
    (∀ i, i < r → (syndromes (d ++ parity d r) r).getD i 0xFF = 0x00) ∧
    syndromes (List.zipWith gfAdd (d ++ parity d r) e) r = syndromes e r ∧
    (∀ i, i < r → (syndromes e r).getD i 0x00 =
      sumTo e.length fun p => gfMul (e.getD p 0x00) (gfPow (positionValue e.length p) (r - 1 - i))) ∧
    ∀ p y i, p < e.length → y ≠ 0x00 → i < r → e = (List.replicate e.length 0x00).set p y →
      (syndromes e r).getD i 0x00 = gfMul y (gfPow alpha ((r - 1 - i) * (e.length - 1 - p))) ∧
      (syndromes e r).getD i 0x00 ≠ 0x00

/-! ### The error-locator solver -/

/-- 43_locator.md R193 to R196: the initial state, the discrepancy, the three arms of the update, coefficient by
coefficient, and what LOCATE takes from the last state, on the syndromes in order of rising root exponent (R192). -/
def Obligations.LocatorFollowsMasseysRecurrence : Prop :=
  ∀ syn : List Byte,
    locate syn = ((berlekampMassey syn.reverse syn.length).current, (berlekampMassey syn.reverse syn.length).len) ∧
    (∀ i, i ≤ syn.length →
      (berlekampMassey syn.reverse 0).current.getD i 0xFF = (if i = 0 then 0x01 else 0x00) ∧
      (berlekampMassey syn.reverse 0).baseline.getD i 0xFF = (if i = 0 then 0x01 else 0x00)) ∧
    (berlekampMassey syn.reverse 0).len = 0 ∧ (berlekampMassey syn.reverse 0).shift = 1 ∧
    (berlekampMassey syn.reverse 0).factor = 0x01 ∧
    ∀ n st st' d, n < syn.length → st = berlekampMassey syn.reverse n → st' = berlekampMassey syn.reverse (n + 1) →
      d = gfAdd (syn.reverse.getD n 0x00)
        (sumTo st.len fun j => gfMul (st.current.getD (j + 1) 0x00) (syn.reverse.getD (n - (j + 1)) 0x00)) →
      st.len ≤ n ∧
      (d = 0x00 → st' = { st with shift := st.shift + 1 }) ∧
      (d ≠ 0x00 →
        (∀ i, i ≤ syn.length → st'.current.getD i 0xFF =
          gfAdd (st.current.getD i 0xFF)
            (if st.shift ≤ i then gfMul (gfMul d (gfInv st.factor)) (st.baseline.getD (i - st.shift) 0xFF) else 0x00)) ∧
        (2 * st.len ≤ n →
          st'.len = n + 1 - st.len ∧ st'.baseline = st.current ∧ st'.factor = d ∧ st'.shift = 1) ∧
        (n < 2 * st.len →
          st'.len = st.len ∧ st'.baseline = st.baseline ∧ st'.factor = st.factor ∧ st'.shift = st.shift + 1))

/-- 43_locator.md R197: with SYN_VALID = 1 and SYN readable, LOCATE writes LAMBDA[0 … r] and LDEG whether it ends OK or
UNCORRECTABLE, LOC_VALID records which, and every other register and byte is unchanged. -/
def Obligations.LocateWritesTheLocator : Prop :=
  ∀ (s : State) (syn : List Byte), s.fatal = false → s.synValid = true → s.r.toNat ≤ 254 →
    syn.length = s.r.toNat → Holds s 0x200 syn →
    ∃ t, exec .locate s = .next t ∧
      t = { s with
        mem := t.mem, ldeg := t.ldeg, locValid := decide ((locate syn).2 ≤ s.r.toNat / 2),
        result := if (locate syn).2 ≤ s.r.toNat / 2 then .ok else .uncorrectable } ∧
      t.ldeg.toNat = (locate syn).2 ∧
      (∀ i, i ≤ s.r.toNat → byteAt t (0x300 + i) = (locate syn).1[i]?) ∧
      SameOutside s t 0x300 (0x300 + s.r.toNat + 1)

/-- The shape of the locator at every iteration, for any syndromes: b is never 0, C[0] = 1, deg C ≤ L and L is at most the
number of iterations (43_locator.md, section 4, items 1 to 3). -/
def Obligations.LocatorShapeHoldsAtEveryIteration : Prop :=
  ∀ (syn : List Byte) (n : Nat) (st : BerlekampMassey), n ≤ syn.length → st = berlekampMassey syn.reverse n →
    st.factor ≠ 0x00 ∧ st.current.getD 0 0x00 = 0x01 ∧ st.len ≤ n ∧
    ∀ i, st.current.getD i 0x00 ≠ 0x00 → i ≤ st.len

/-- LOCATE's polynomial generates the syndromes, for any SYN contents: from index L on, every syndrome is the locator's
combination of the L before it (43_locator.md, section 4, item 5). -/
def Obligations.LocatorGeneratesTheSyndromes : Prop :=
  ∀ (syn : List Byte) (n : Nat), (locate syn).2 ≤ n → n < syn.length →
    gfAdd (syn.reverse.getD n 0x00)
      (sumTo (locate syn).2 fun j =>
        gfMul ((locate syn).1.getD (j + 1) 0x00) (syn.reverse.getD (n - (j + 1)) 0x00)) = 0x00

/-! ### The corrector -/

/-- 44_corrector.md R221: the scan lists, in rising order, exactly the positions where the locator is zero at the inverse of
X_p. -/
def Obligations.RootSearchScansEveryPosition : Prop :=
  ∀ (lam : List Byte) (n : Nat), n ≤ 255 →
    (rootPositions lam n).Pairwise (· < ·) ∧
    ∀ p, p ∈ rootPositions lam n ↔ p < n ∧ evalSum lam (gfInv (positionValue n p)) = 0x00

/-- 44_corrector.md R222, R223, R224, R226: with LOC_VALID = 1, its operands readable and as many roots as LDEG says, CORRECT
ends OK, adds Forney's magnitude to CW at every root position, lists positions and magnitudes in rising order, counts them in
NERR, clears the validity flags, and leaves every other register and byte unchanged. -/
def Obligations.CorrectAddsForneysMagnitudes : Prop :=
  ∀ (s : State) (syn lam : List Byte) (roots : List Nat), s.fatal = false → s.locValid = true → ValidParams s →
    syn.length = s.r.toNat → lam.length = s.r.toNat + 1 → Holds s 0x200 syn → Holds s 0x300 lam →
    roots = rootPositions lam (s.k.toNat + s.r.toNat) → roots.length = s.ldeg.toNat → roots.length ≤ 128 →
    (∀ p ∈ roots, (byteAt s (0x100 + p)).isSome = true) →
    ∃ t, exec .correct s = .next t ∧
      t = { s with
        mem := t.mem, nerr := t.nerr, synValid := false, locValid := false, synZero := false, result := .ok } ∧
      t.nerr.toNat = roots.length ∧
      (∀ i (h : i < roots.length) v, byteAt s (0x100 + roots[i]) = some v →
        byteAt t (0x100 + roots[i]) = some (gfAdd v (magnitudeSum syn lam (s.k.toNat + s.r.toNat) roots[i])) ∧
        byteAt t (0x400 + i) = some (BitVec.ofNat 8 roots[i]) ∧
        byteAt t (0x480 + i) = some (magnitudeSum syn lam (s.k.toNat + s.r.toNat) roots[i])) ∧
      ∀ a, (∀ p ∈ roots, a ≠ 0x100 + p) → ¬(0x400 ≤ a ∧ a < 0x400 + roots.length) →
        ¬(0x480 ≤ a ∧ a < 0x480 + roots.length) → byteAt t a = byteAt s a

/-- 44_corrector.md R225: where the number of roots differs from LDEG, CORRECT reports UNCORRECTABLE, sets NERR to 0, clears
the validity flags and changes nothing else: no byte of CW, ERRPOS or ERRMAG. -/
def Obligations.RootCountMismatchLeavesTheWord : Prop :=
  ∀ (s : State) (lam : List Byte), s.fatal = false → s.locValid = true → s.r.toNat ≤ 254 →
    lam.length = s.r.toNat + 1 → Holds s 0x300 lam →
    (rootPositions lam (s.k.toNat + s.r.toNat)).length ≠ s.ldeg.toNat →
    exec .correct s = .next { s with
      nerr := 0x00, synValid := false, locValid := false, synZero := false, result := .uncorrectable }

/-- A fact about LOCATE's polynomial, for any syndromes: it has at most as many roots among the positions as its length, and
where it has exactly that many, Forney's divisor is nonzero at each of them (44_corrector.md, section 6). -/
def Obligations.ForneyNeverDividesByZero : Prop :=
  ∀ (syn : List Byte) (n : Nat), syn.length ≤ 254 → n ≤ 255 →
    (rootPositions (locate syn).1 n).length ≤ (locate syn).2 ∧
    ((rootPositions (locate syn).1 n).length = (locate syn).2 →
      ∀ p ∈ rootPositions (locate syn).1 n, forneyDivisor (locate syn).1 n p ≠ 0x00)

/-- CORRECT never divides by zero (44_corrector.md R228): from a state that meets the invariants with LOC_VALID = 1, with
LAMBDA as that state holds it, the roots are at most LDEG, where they are LDEG Forney's divisor is nonzero at each, and
CORRECT completes with OK in that case and UNCORRECTABLE in the other, the core not locked. -/
def Obligations.CorrectNeverDividesByZero : Prop :=
  ∀ (s : State) (lam : List Byte) (roots : List Nat), s.Inv → s.fatal = false → s.locValid = true →
    lam.length = s.r.toNat + 1 → Holds s 0x300 lam → roots = rootPositions lam (s.k.toNat + s.r.toNat) →
    roots.length ≤ s.ldeg.toNat ∧
    (roots.length = s.ldeg.toNat → ∀ p ∈ roots, forneyDivisor lam (s.k.toNat + s.r.toNat) p ≠ 0x00) ∧
    ∃ t, exec .correct s = .next t ∧ t.fatal = false ∧
      t.result = if roots.length = s.ldeg.toNat then .ok else .uncorrectable

/-! ### The composite decode -/

/-- 45_decode.md R254: DECODE ends as the three host writes do, each issued only if the one before left RESULT = OK, except
that CMD holds 0x09. -/
def Obligations.DecodeIsTheThreeCommands : Prop :=
  ∀ s : State, writeCmd s 0x09 =
    mapNext (fun t => { t with cmd := 0x09 })
      (ifOk (ifOk (writeCmd s 0x06) fun t => writeCmd t 0x07) fun t => writeCmd t 0x08)

/-- With valid parameters and the word written, DECODE always ends in a next state, in one of the three outcomes of
45_decode.md R252, with what each leaves and what each leaves unchanged. -/
def Obligations.DecodeEndsInOneOfItsOutcomes : Prop :=
  ∀ s : State, s.fatal = false → ValidParams s → s.wordWritten (s.k.toNat + s.r.toNat) →
    ∃ t, exec .decode s = .next t ∧
      t = { s with
        mem := t.mem, ldeg := t.ldeg, nerr := t.nerr, synValid := t.synValid, locValid := false, synZero := false,
        result := t.result } ∧
      (∀ i, i < s.r.toNat → (byteAt t (0x200 + i)).isSome = true) ∧
      (∀ i, i ≤ s.r.toNat → (byteAt t (0x300 + i)).isSome = true) ∧
      (∀ a, ¬(0x100 ≤ a ∧ a < 0x100 + s.k.toNat + s.r.toNat) → ¬(0x200 ≤ a ∧ a < 0x200 + s.r.toNat) →
        ¬(0x300 ≤ a ∧ a ≤ 0x300 + s.r.toNat) →
        ¬(t.result = .ok ∧ (0x400 ≤ a ∧ a < 0x400 + t.nerr.toNat ∨ 0x480 ≤ a ∧ a < 0x480 + t.nerr.toNat)) →
        byteAt t a = byteAt s a) ∧
      ((t.result = .uncorrectable ∧ s.r.toNat / 2 < t.ldeg.toNat ∧ t.synValid = true ∧ t.nerr = s.nerr ∧
          ∀ p, p < 255 → byteAt t (0x100 + p) = byteAt s (0x100 + p)) ∨
        (t.result = .uncorrectable ∧ t.ldeg.toNat ≤ s.r.toNat / 2 ∧ t.synValid = false ∧ t.nerr = 0x00 ∧
          ∀ p, p < 255 → byteAt t (0x100 + p) = byteAt s (0x100 + p)) ∨
        (t.result = .ok ∧ t.nerr = t.ldeg ∧ t.ldeg.toNat ≤ s.r.toNat / 2 ∧ t.synValid = false ∧
          ∀ p, p < 255 → byteAt t (0x100 + p) ≠ byteAt s (0x100 + p) →
            ∃ i, i < t.nerr.toNat ∧ byteAt t (0x400 + i) = some (BitVec.ofNat 8 p)))

/-- DECODE corrects any single byte error at any position, data or parity, of any codeword with at least two parity bytes:
it ends OK, restores the codeword, and reports the position and the value of the error (45_decode.md, R253's second bullet
for one error). -/
def Obligations.DecodeCorrectsASingleError : Prop :=
  ∀ (s : State) (d : List Byte) (p : Nat) (y : Byte), s.fatal = false → ValidParams s → 2 ≤ s.r.toNat →
    d.length = s.k.toNat → p < s.k.toNat + s.r.toNat → y ≠ 0x00 →
    Holds s 0x100 ((d ++ parity d s.r.toNat).modify p (gfAdd · y)) →
    ∃ t, exec .decode s = .next t ∧ t.result = .ok ∧ t.nerr = 0x01 ∧ Holds t 0x100 (d ++ parity d s.r.toNat) ∧
      byteAt t 0x400 = some (BitVec.ofNat 8 p) ∧ byteAt t 0x480 = some y

/-- 45_decode.md R253: after an ENCODE that ends OK, in any unlocked state with the same K and R whose word differs from the
encoded one in at most floor(r/2) positions (none of them among the cases), DECODE ends OK, counts those positions in NERR,
lists them with their errors, and leaves the encoded word, with the data the encoder was given. -/
def Obligations.DecodeCorrectsUpToCapability : Prop :=
  ∀ (s t u : State) (errors : List Nat), exec .encode s = .next t → t.result = .ok →
    u.fatal = false → u.k = t.k → u.r = t.r → u.wordWritten (t.k.toNat + t.r.toNat) →
    errors = differingPositions t u (t.k.toNat + t.r.toNat) → errors.length ≤ t.r.toNat / 2 →
    ∃ w, exec .decode u = .next w ∧ w.result = .ok ∧ w.nerr.toNat = errors.length ∧
      (∀ p, p < t.k.toNat + t.r.toNat → byteAt w (0x100 + p) = byteAt t (0x100 + p)) ∧
      (∀ p, p < s.k.toNat → byteAt w (0x100 + p) = byteAt s (0x100 + p)) ∧
      ∀ i (h : i < errors.length) x y, byteAt t (0x100 + errors[i]) = some x → byteAt u (0x100 + errors[i]) = some y →
        byteAt w (0x400 + i) = some (BitVec.ofNat 8 errors[i]) ∧ byteAt w (0x480 + i) = some (gfAdd x y)

/-! ### STATUS and the whole machine -/

/-- 10_state.md R41: STATUS reads {FATAL, SYN_ZERO, LOC_VALID, SYN_VALID, 0b0, RESULT}, bit 3 is 0 and code 7 never
appears. -/
def Obligations.StatusHasItsLayout : Prop :=
  ∀ s : State, s.statusByte.toNat = statusNumber s ∧ s.statusByte.getLsbD 3 = false ∧ s.statusByte.toNat % 8 ≠ 7

/-- 10_state.md R42: every command writes RESULT, so what it held before has no influence, and nothing but a command or a
reset changes it. -/
def Obligations.ResultIsWrittenByCommandsAlone : Prop :=
  (∀ (i : Instr) (s : State) (c : ResultCode), exec i { s with result := c } = exec i s) ∧
  ∀ s t : State, step s = .next t → t.result ≠ s.result → (commandWritten s).isSome = true ∨ resetNext s

/-- 60_exceptions.md R271: the numbers of the codes, and which commands may report which once the core is not locked. -/
def Obligations.EachCommandRaisesItsOwnCodes : Prop :=
  (∀ c : ResultCode, c.code.toNat = codeNumber c) ∧
  ∀ (i : Instr) (s t : State), exec i s = .next t →
    (s.fatal = true → t.result = .locked) ∧ (s.fatal = false → t.result ∈ raisable i)

/-- 60_exceptions.md R272: the checks of a CMD write in their order, and what a command that passes them may report. -/
def Obligations.ChecksComeInTheirOrder : Prop :=
  ∀ (s : State) (v : Byte),
    (s.fatal = true → writeCmd s v = .next { s with cmd := v, result := .locked }) ∧
    (s.fatal = false →
      (illegalByte v = true → writeCmd s v = .next { s with cmd := v, result := .illegalCommand }) ∧
      (v = 0x07 ∧ s.synValid = false ∨ v = 0x08 ∧ s.locValid = false →
        writeCmd s v = .next { s with cmd := v, result := .sequenceError }) ∧
      ((v = 0x05 ∨ v = 0x06 ∨ v = 0x09) ∧ ¬ValidParams s →
        writeCmd s v = .next { s with cmd := v, result := .invalidParameters }) ∧
      (v = 0x03 ∧ s.a = 0x00 → writeCmd s v = .next { s with cmd := v, fatal := true, result := .divByZero }) ∧
      (illegalByte v = false → ¬(v = 0x07 ∧ s.synValid = false ∨ v = 0x08 ∧ s.locValid = false) →
        ¬((v = 0x05 ∨ v = 0x06 ∨ v = 0x09) ∧ ¬ValidParams s) → ¬(v = 0x03 ∧ s.a = 0x00) →
        ∀ t, writeCmd s v = .next t →
          t.result = .ok ∨ (t.result = .uncorrectable ∧ (v = 0x07 ∨ v = 0x08 ∨ v = 0x09))))

/-- Each validity flag is set, and cleared, by no step but those 10_state.md R43, R44 and R46 name: an invalidation, a reset,
or a command that ends with the code given. DECODE counts by its stages; a DECODE that sets SYN_VALID stopped at LOCATE, and
none leaves SYN_ZERO set that was not. Where SYN_VALID is cleared, LOC_VALID and SYN_ZERO are 0 too. -/
def Obligations.ValidityFlagsChangeOnlyByTheirRules : Prop :=
  ∀ s t : State, step s = .next t →
    (s.synValid = false → t.synValid = true →
      commandEnds s t 0x06 [.ok] ∨ commandEnds s t 0x09 [.uncorrectable]) ∧
    (s.synValid = true → t.synValid = false →
      (resetNext s ∨ invalidates s ∨ commandEnds s t 0x05 [.ok] ∨ commandEnds s t 0x08 [.ok, .uncorrectable] ∨
        commandEnds s t 0x09 [.ok, .uncorrectable]) ∧
      t.locValid = false ∧ t.synZero = false) ∧
    (s.locValid = false → t.locValid = true → commandEnds s t 0x07 [.ok]) ∧
    (s.locValid = true → t.locValid = false →
      resetNext s ∨ invalidates s ∨ commandEnds s t 0x05 [.ok] ∨ commandEnds s t 0x06 [.ok] ∨
        commandEnds s t 0x07 [.uncorrectable] ∨ commandEnds s t 0x08 [.ok, .uncorrectable] ∨
        commandEnds s t 0x09 [.ok, .uncorrectable]) ∧
    (s.synZero = false → t.synZero = true → commandEnds s t 0x06 [.ok]) ∧
    (s.synZero = true → t.synZero = false →
      resetNext s ∨ invalidates s ∨ commandEnds s t 0x05 [.ok] ∨ commandEnds s t 0x06 [.ok] ∨
        commandEnds s t 0x08 [.ok, .uncorrectable] ∨ commandEnds s t 0x09 [.ok, .uncorrectable])

/-- What each command may write (30_encoding.md, section 3): its operands, CMD and the host's side never; RES, LDEG, NERR
and FATAL only by the commands that own them; and no byte of memory outside its results. -/
def Obligations.CommandsWriteOnlyTheirResults : Prop :=
  ∀ (i : Instr) (s t : State), exec i s = .next t →
    (t.cmd = s.cmd ∧ t.k = s.k ∧ t.r = s.r ∧ t.a = s.a ∧ t.b = s.b ∧ t.e = s.e ∧ t.pending = s.pending ∧
      t.reply = s.reply ∧ t.draws = s.draws) ∧
    (t.res ≠ s.res → i = .gfAdd ∨ i = .gfMul ∨ i = .gfInv ∨ i = .gfPow) ∧
    (t.ldeg ≠ s.ldeg → i = .locate ∨ i = .decode) ∧ (t.nerr ≠ s.nerr → i = .correct ∨ i = .decode) ∧
    (t.fatal ≠ s.fatal → i = .gfInv) ∧
    ∀ a, byteAt t a ≠ byteAt s a →
      (i = .encode ∧ 0x100 + s.k.toNat ≤ a ∧ a < 0x100 + s.k.toNat + s.r.toNat) ∨
      ((i = .syndrome ∨ i = .decode) ∧ 0x200 ≤ a ∧ a < 0x200 + s.r.toNat) ∨
      ((i = .locate ∨ i = .decode) ∧ 0x300 ≤ a ∧ a ≤ 0x300 + s.r.toNat) ∨
      ((i = .correct ∨ i = .decode) ∧
        (0x100 ≤ a ∧ a < 0x100 + s.k.toNat + s.r.toNat ∨ 0x400 ≤ a ∧ a < 0x400 + t.nerr.toNat ∨
          0x480 ≤ a ∧ a < 0x480 + t.nerr.toNat))

/-! ### Reset, unwritten entries and the invariants -/

/-- 10_state.md R53: after reset every register and flag is 0, STATUS reads 0x00 and every buffer entry is unwritten. -/
def Obligations.ResetLeavesEverythingZero : Prop :=
  State.reset.cmd = 0x00 ∧ State.reset.statusByte = 0x00 ∧ State.reset.result = .ok ∧ State.reset.synValid = false ∧
  State.reset.locValid = false ∧ State.reset.synZero = false ∧ State.reset.fatal = false ∧ State.reset.k = 0x00 ∧
  State.reset.r = 0x00 ∧ State.reset.a = 0x00 ∧ State.reset.b = 0x00 ∧ State.reset.e = 0x00 ∧ State.reset.res = 0x00 ∧
  State.reset.ldeg = 0x00 ∧ State.reset.nerr = 0x00 ∧ ∀ a, byteAt State.reset a = none

/-- 70_reset_and_hazards.md R300: rst loads the reset values whatever the state was, between accesses or during a command,
leaves every buffer entry unwritten, holds bus_ready at 0, and the host's accesses still to come proceed afterwards. -/
def Obligations.RstLoadsTheResetState : Prop :=
  ∀ (s : State) (ev : HostEvent) (rest : List HostEvent), s.pending = ev :: rest →
    ev = .reset ∨ (∃ v, ev = .resetDuringCommand v) →
    ∃ t, step s = .next t ∧ t.cmd = 0x00 ∧ t.statusByte = 0x00 ∧ t.fatal = false ∧ t.synValid = false ∧
      t.locValid = false ∧ t.synZero = false ∧ t.k = 0x00 ∧ t.r = 0x00 ∧ t.a = 0x00 ∧ t.b = 0x00 ∧ t.e = 0x00 ∧
      t.res = 0x00 ∧ t.ldeg = 0x00 ∧ t.nerr = 0x00 ∧ (∀ a, byteAt t a = none) ∧ t.pending = rest ∧ t.reply = .inReset

/-- A command whose operands hold an unwritten entry faults at the first one, and only there (10_state.md R54). -/
def Obligations.UnwrittenOperandFaults : Prop :=
  ∀ (s : State) (p : Nat), s.fatal = false → ValidParams s → byteAt s (0x100 + p) = none →
    (∀ q, q < p → (byteAt s (0x100 + q)).isSome = true) →
    (p < s.k.toNat → exec .encode s = .fault (.unwrittenEntry .cw p)) ∧
    (p < s.k.toNat + s.r.toNat →
      exec .syndrome s = .fault (.unwrittenEntry .cw p) ∧ exec .decode s = .fault (.unwrittenEntry .cw p))

/-- From a state that meets the invariants, a step faults only where the host reads an unwritten entry itself or starts
ENCODE, SYNDROME or DECODE before writing CW, so LOCATE, CORRECT and every other event always complete; no step ever refuses
(70_reset_and_hazards.md, section 1). -/
def Obligations.OnlyTheHostMeetsUnwrittenEntries : Prop :=
  (∀ (s : State) (q : Refusal), step s ≠ .refused q) ∧
  ∀ (s : State) (f : Fault), s.Inv → step s = .fault f →
    ∃ buf i, f = .unwrittenEntry buf i ∧
      ((∃ addr rest, s.pending = .access (.read addr) :: rest ∧ buf.address i = addr.toNat) ∨
        (buf = .cw ∧
          (commandWritten s = some 0x05 ∨ commandWritten s = some 0x06 ∨ commandWritten s = some 0x09)))

/-- The reset state meets the invariants of 10_state.md R48. -/
def Obligations.ResetMeetsTheInvariants : Prop := State.reset.Inv

/-- 10_state.md R48: every step from a state that meets the invariants leads to one that meets them. -/
def Obligations.EveryStepKeepsTheInvariants : Prop :=
  ∀ s t : State, s.Inv → step s = .next t → t.Inv

end
end

