-- ==== Sys2Proof/Laws/Memory.lean ====
section
/-! SUPPORT. The laws of the memory: read after write, and that writing keeps the canonical form, in which equal contents are
equal lists. -/

namespace Sys2Proof.Machine

@[simp] theorem Memory.get_nil (a : Nat) : Memory.get [] a = none := rfl

theorem Memory.get_put_self (m : List Host.Cell) (a : Nat) (v : Byte) :
    Memory.get (Memory.put m a v) a = some v := by
  induction m with
  | nil => simp [Memory.put, Memory.get]
  | cons c m ih =>
    obtain ⟨x, w⟩ := c
    by_cases hlt : a < x
    · simp [Memory.put, hlt, Memory.get]
    · by_cases hx : x = a
      · simp [Memory.put, hx, Memory.get]
      · simp [Memory.put, hlt, hx, Memory.get, ih]

theorem Memory.get_put_ne (m : List Host.Cell) {a c : Nat} (v : Byte) (h : c ≠ a) :
    Memory.get (Memory.put m a v) c = Memory.get m c := by
  induction m with
  | nil => simp [Memory.put, Memory.get, Ne.symm h]
  | cons d m ih =>
    obtain ⟨x, w⟩ := d
    by_cases hlt : a < x
    · simp [Memory.put, hlt, Memory.get, Ne.symm h]
    · by_cases hx : x = a
      · subst hx
        simp [Memory.put, Memory.get, Ne.symm h]
      · simp [Memory.put, hlt, hx, Memory.get, ih]

/-- Reading one address after writing another or the same, in one rewrite. -/
theorem Memory.get_put (m : List Host.Cell) (a c : Nat) (v : Byte) :
    Memory.get (Memory.put m a v) c = if c = a then some v else Memory.get m c := by
  by_cases h : c = a
  · subst h; simp [Memory.get_put_self]
  · simp [h, Memory.get_put_ne m v h]

/-! ### The canonical form -/

/-- Canonical form of a nonempty memory: the first address lies below every other one and the rest is canonical. -/
theorem Memory.wf_cons (x : Nat) (w : Byte) (m : List Host.Cell) :
    Memory.wf ((x, w) :: m) = true ↔ (∀ c ∈ m, x < c.1) ∧ Memory.wf m = true := by
  induction m generalizing x w with
  | nil => simp [Memory.wf]
  | cons d m ih =>
    obtain ⟨y, u⟩ := d
    simp only [Memory.wf, Bool.and_eq_true, decide_eq_true_eq, List.mem_cons, forall_eq_or_imp]
    constructor
    · rintro ⟨hxy, hm⟩
      exact ⟨⟨hxy, fun c hc => Nat.lt_trans hxy (((ih y u).1 hm).1 c hc)⟩, hm⟩
    · rintro ⟨⟨hxy, _⟩, hm⟩
      exact ⟨hxy, hm⟩

/-- The addresses a write lists: the one written and those listed before. -/
theorem Memory.mem_put {m : List Host.Cell} {a : Nat} {v : Byte} {c : Host.Cell} (h : c ∈ Memory.put m a v) :
    c.1 = a ∨ c ∈ m := by
  induction m with
  | nil => simp only [Memory.put, List.mem_singleton] at h; exact .inl (by rw [h])
  | cons d m ih =>
    obtain ⟨x, w⟩ := d
    simp only [Memory.put] at h
    split at h
    · rcases List.mem_cons.1 h with rfl | h
      · exact .inl rfl
      · exact .inr h
    · split at h
      · rcases List.mem_cons.1 h with rfl | h
        · exact .inl rfl
        · exact .inr (List.mem_cons_of_mem _ h)
      · rcases List.mem_cons.1 h with rfl | h
        · exact .inr List.mem_cons_self
        · exact (ih h).imp id (List.mem_cons_of_mem _)

/-- Writing keeps the canonical form. -/
theorem Memory.put_wf (m : List Host.Cell) (a : Nat) (v : Byte) (h : Memory.wf m = true) :
    Memory.wf (Memory.put m a v) = true := by
  induction m with
  | nil => rfl
  | cons d m ih =>
    obtain ⟨x, w⟩ := d
    obtain ⟨hx, hm⟩ := (Memory.wf_cons x w m).1 h
    simp only [Memory.put]
    split
    · next hlt =>
      refine (Memory.wf_cons a v _).2 ⟨fun c hc => ?_, h⟩
      rcases List.mem_cons.1 hc with rfl | hc
      · exact hlt
      · exact Nat.lt_trans hlt (hx c hc)
    · split
      · next hxa =>
        subst hxa
        exact (Memory.wf_cons x v m).2 ⟨hx, hm⟩
      · next hlt hxa =>
        refine (Memory.wf_cons x w _).2 ⟨fun c hc => ?_, ih hm⟩
        rcases Memory.mem_put hc with hca | hc
        · omega
        · exact hx c hc

theorem Memory.get_eq_none {m : List Host.Cell} {a : Nat} (h : ∀ c ∈ m, a < c.1) : Memory.get m a = none := by
  induction m with
  | nil => rfl
  | cons d m ih =>
    obtain ⟨x, w⟩ := d
    have hx : a < x := h (x, w) List.mem_cons_self
    simp only [Memory.get]
    rw [if_neg (by omega)]
    exact ih fun c hc => h c (List.mem_cons_of_mem _ hc)

/-- In the canonical form, memories that read the same at every address are the same list. -/
theorem Memory.ext_of_wf {m m' : List Host.Cell} (h : Memory.wf m = true) (h' : Memory.wf m' = true)
    (hget : ∀ a, Memory.get m a = Memory.get m' a) : m = m' := by
  induction m generalizing m' with
  | nil =>
    cases m' with
    | nil => rfl
    | cons d m' => obtain ⟨x, w⟩ := d; simpa [Memory.get] using hget x
  | cons d m ih =>
    obtain ⟨x, w⟩ := d
    obtain ⟨hx, hm⟩ := (Memory.wf_cons x w m).1 h
    cases m' with
    | nil => simpa [Memory.get] using hget x
    | cons d' m' =>
      obtain ⟨y, u⟩ := d'
      obtain ⟨hy, hm'⟩ := (Memory.wf_cons y u m').1 h'
      have hxy : x = y := by
        rcases Nat.lt_trichotomy x y with hlt | heq | hlt
        · have := hget x
          rw [Memory.get_eq_none (m := (y, u) :: m') (a := x)] at this
          · simp [Memory.get] at this
          · intro c hc
            rcases List.mem_cons.1 hc with rfl | hc
            · exact hlt
            · exact Nat.lt_trans hlt (hy c hc)
        · exact heq
        · have := hget y
          rw [Memory.get_eq_none (m := (x, w) :: m) (a := y)] at this
          · simp [Memory.get] at this
          · intro c hc
            rcases List.mem_cons.1 hc with rfl | hc
            · exact hlt
            · exact Nat.lt_trans hlt (hx c hc)
      subst hxy
      have hwu : w = u := by simpa [Memory.get] using hget x
      subst hwu
      congr 1
      refine ih hm hm' fun a => ?_
      by_cases hax : x = a
      · subst hax
        rw [Memory.get_eq_none hx, Memory.get_eq_none hy]
      · simpa [Memory.get, hax] using hget a

end Sys2Proof.Machine
end

