-- ==== Sys2Proof/Laws/State.lean ====
section
/-! SUPPORT. What each named update of the state does to each field, one rewriting lemma a pair, so that no proof unfolds a
record update. -/

namespace Sys2Proof.Machine

variable (s : State)

/-! ### setEntry -/

@[simp] theorem State.setEntry_cmd (buf : Buffer) (i : Nat) (v : Byte) : (s.setEntry buf i v).cmd = s.cmd := rfl
@[simp] theorem State.setEntry_result (buf : Buffer) (i : Nat) (v : Byte) : (s.setEntry buf i v).result = s.result := rfl
@[simp] theorem State.setEntry_synValid (buf : Buffer) (i : Nat) (v : Byte) : (s.setEntry buf i v).synValid = s.synValid := rfl
@[simp] theorem State.setEntry_locValid (buf : Buffer) (i : Nat) (v : Byte) : (s.setEntry buf i v).locValid = s.locValid := rfl
@[simp] theorem State.setEntry_synZero (buf : Buffer) (i : Nat) (v : Byte) : (s.setEntry buf i v).synZero = s.synZero := rfl
@[simp] theorem State.setEntry_fatal (buf : Buffer) (i : Nat) (v : Byte) : (s.setEntry buf i v).fatal = s.fatal := rfl
@[simp] theorem State.setEntry_k (buf : Buffer) (i : Nat) (v : Byte) : (s.setEntry buf i v).k = s.k := rfl
@[simp] theorem State.setEntry_r (buf : Buffer) (i : Nat) (v : Byte) : (s.setEntry buf i v).r = s.r := rfl
@[simp] theorem State.setEntry_a (buf : Buffer) (i : Nat) (v : Byte) : (s.setEntry buf i v).a = s.a := rfl
@[simp] theorem State.setEntry_b (buf : Buffer) (i : Nat) (v : Byte) : (s.setEntry buf i v).b = s.b := rfl
@[simp] theorem State.setEntry_e (buf : Buffer) (i : Nat) (v : Byte) : (s.setEntry buf i v).e = s.e := rfl
@[simp] theorem State.setEntry_res (buf : Buffer) (i : Nat) (v : Byte) : (s.setEntry buf i v).res = s.res := rfl
@[simp] theorem State.setEntry_ldeg (buf : Buffer) (i : Nat) (v : Byte) : (s.setEntry buf i v).ldeg = s.ldeg := rfl
@[simp] theorem State.setEntry_nerr (buf : Buffer) (i : Nat) (v : Byte) : (s.setEntry buf i v).nerr = s.nerr := rfl
@[simp] theorem State.setEntry_mem (buf : Buffer) (i : Nat) (v : Byte) : (s.setEntry buf i v).mem = Memory.put s.mem (buf.address i) v := rfl
@[simp] theorem State.setEntry_pending (buf : Buffer) (i : Nat) (v : Byte) : (s.setEntry buf i v).pending = s.pending := rfl
@[simp] theorem State.setEntry_reply (buf : Buffer) (i : Nat) (v : Byte) : (s.setEntry buf i v).reply = s.reply := rfl
@[simp] theorem State.setEntry_draws (buf : Buffer) (i : Nat) (v : Byte) : (s.setEntry buf i v).draws = s.draws := rfl

/-! ### setRes -/

@[simp] theorem State.setRes_cmd (v : Byte) : (s.setRes v).cmd = s.cmd := rfl
@[simp] theorem State.setRes_result (v : Byte) : (s.setRes v).result = s.result := rfl
@[simp] theorem State.setRes_synValid (v : Byte) : (s.setRes v).synValid = s.synValid := rfl
@[simp] theorem State.setRes_locValid (v : Byte) : (s.setRes v).locValid = s.locValid := rfl
@[simp] theorem State.setRes_synZero (v : Byte) : (s.setRes v).synZero = s.synZero := rfl
@[simp] theorem State.setRes_fatal (v : Byte) : (s.setRes v).fatal = s.fatal := rfl
@[simp] theorem State.setRes_k (v : Byte) : (s.setRes v).k = s.k := rfl
@[simp] theorem State.setRes_r (v : Byte) : (s.setRes v).r = s.r := rfl
@[simp] theorem State.setRes_a (v : Byte) : (s.setRes v).a = s.a := rfl
@[simp] theorem State.setRes_b (v : Byte) : (s.setRes v).b = s.b := rfl
@[simp] theorem State.setRes_e (v : Byte) : (s.setRes v).e = s.e := rfl
@[simp] theorem State.setRes_res (v : Byte) : (s.setRes v).res = v := rfl
@[simp] theorem State.setRes_ldeg (v : Byte) : (s.setRes v).ldeg = s.ldeg := rfl
@[simp] theorem State.setRes_nerr (v : Byte) : (s.setRes v).nerr = s.nerr := rfl
@[simp] theorem State.setRes_mem (v : Byte) : (s.setRes v).mem = s.mem := rfl
@[simp] theorem State.setRes_pending (v : Byte) : (s.setRes v).pending = s.pending := rfl
@[simp] theorem State.setRes_reply (v : Byte) : (s.setRes v).reply = s.reply := rfl
@[simp] theorem State.setRes_draws (v : Byte) : (s.setRes v).draws = s.draws := rfl

/-! ### setLdeg -/

@[simp] theorem State.setLdeg_cmd (n : Nat) : (s.setLdeg n).cmd = s.cmd := rfl
@[simp] theorem State.setLdeg_result (n : Nat) : (s.setLdeg n).result = s.result := rfl
@[simp] theorem State.setLdeg_synValid (n : Nat) : (s.setLdeg n).synValid = s.synValid := rfl
@[simp] theorem State.setLdeg_locValid (n : Nat) : (s.setLdeg n).locValid = s.locValid := rfl
@[simp] theorem State.setLdeg_synZero (n : Nat) : (s.setLdeg n).synZero = s.synZero := rfl
@[simp] theorem State.setLdeg_fatal (n : Nat) : (s.setLdeg n).fatal = s.fatal := rfl
@[simp] theorem State.setLdeg_k (n : Nat) : (s.setLdeg n).k = s.k := rfl
@[simp] theorem State.setLdeg_r (n : Nat) : (s.setLdeg n).r = s.r := rfl
@[simp] theorem State.setLdeg_a (n : Nat) : (s.setLdeg n).a = s.a := rfl
@[simp] theorem State.setLdeg_b (n : Nat) : (s.setLdeg n).b = s.b := rfl
@[simp] theorem State.setLdeg_e (n : Nat) : (s.setLdeg n).e = s.e := rfl
@[simp] theorem State.setLdeg_res (n : Nat) : (s.setLdeg n).res = s.res := rfl
@[simp] theorem State.setLdeg_ldeg (n : Nat) : (s.setLdeg n).ldeg = BitVec.ofNat 8 n := rfl
@[simp] theorem State.setLdeg_nerr (n : Nat) : (s.setLdeg n).nerr = s.nerr := rfl
@[simp] theorem State.setLdeg_mem (n : Nat) : (s.setLdeg n).mem = s.mem := rfl
@[simp] theorem State.setLdeg_pending (n : Nat) : (s.setLdeg n).pending = s.pending := rfl
@[simp] theorem State.setLdeg_reply (n : Nat) : (s.setLdeg n).reply = s.reply := rfl
@[simp] theorem State.setLdeg_draws (n : Nat) : (s.setLdeg n).draws = s.draws := rfl

/-! ### setNerr -/

@[simp] theorem State.setNerr_cmd (n : Nat) : (s.setNerr n).cmd = s.cmd := rfl
@[simp] theorem State.setNerr_result (n : Nat) : (s.setNerr n).result = s.result := rfl
@[simp] theorem State.setNerr_synValid (n : Nat) : (s.setNerr n).synValid = s.synValid := rfl
@[simp] theorem State.setNerr_locValid (n : Nat) : (s.setNerr n).locValid = s.locValid := rfl
@[simp] theorem State.setNerr_synZero (n : Nat) : (s.setNerr n).synZero = s.synZero := rfl
@[simp] theorem State.setNerr_fatal (n : Nat) : (s.setNerr n).fatal = s.fatal := rfl
@[simp] theorem State.setNerr_k (n : Nat) : (s.setNerr n).k = s.k := rfl
@[simp] theorem State.setNerr_r (n : Nat) : (s.setNerr n).r = s.r := rfl
@[simp] theorem State.setNerr_a (n : Nat) : (s.setNerr n).a = s.a := rfl
@[simp] theorem State.setNerr_b (n : Nat) : (s.setNerr n).b = s.b := rfl
@[simp] theorem State.setNerr_e (n : Nat) : (s.setNerr n).e = s.e := rfl
@[simp] theorem State.setNerr_res (n : Nat) : (s.setNerr n).res = s.res := rfl
@[simp] theorem State.setNerr_ldeg (n : Nat) : (s.setNerr n).ldeg = s.ldeg := rfl
@[simp] theorem State.setNerr_nerr (n : Nat) : (s.setNerr n).nerr = BitVec.ofNat 8 n := rfl
@[simp] theorem State.setNerr_mem (n : Nat) : (s.setNerr n).mem = s.mem := rfl
@[simp] theorem State.setNerr_pending (n : Nat) : (s.setNerr n).pending = s.pending := rfl
@[simp] theorem State.setNerr_reply (n : Nat) : (s.setNerr n).reply = s.reply := rfl
@[simp] theorem State.setNerr_draws (n : Nat) : (s.setNerr n).draws = s.draws := rfl

/-! ### raise -/

@[simp] theorem State.raise_cmd (c : ResultCode) : (s.raise c).cmd = s.cmd := rfl
@[simp] theorem State.raise_result (c : ResultCode) : (s.raise c).result = c := rfl
@[simp] theorem State.raise_synValid (c : ResultCode) : (s.raise c).synValid = s.synValid := rfl
@[simp] theorem State.raise_locValid (c : ResultCode) : (s.raise c).locValid = s.locValid := rfl
@[simp] theorem State.raise_synZero (c : ResultCode) : (s.raise c).synZero = s.synZero := rfl
@[simp] theorem State.raise_fatal (c : ResultCode) : (s.raise c).fatal = s.fatal := rfl
@[simp] theorem State.raise_k (c : ResultCode) : (s.raise c).k = s.k := rfl
@[simp] theorem State.raise_r (c : ResultCode) : (s.raise c).r = s.r := rfl
@[simp] theorem State.raise_a (c : ResultCode) : (s.raise c).a = s.a := rfl
@[simp] theorem State.raise_b (c : ResultCode) : (s.raise c).b = s.b := rfl
@[simp] theorem State.raise_e (c : ResultCode) : (s.raise c).e = s.e := rfl
@[simp] theorem State.raise_res (c : ResultCode) : (s.raise c).res = s.res := rfl
@[simp] theorem State.raise_ldeg (c : ResultCode) : (s.raise c).ldeg = s.ldeg := rfl
@[simp] theorem State.raise_nerr (c : ResultCode) : (s.raise c).nerr = s.nerr := rfl
@[simp] theorem State.raise_mem (c : ResultCode) : (s.raise c).mem = s.mem := rfl
@[simp] theorem State.raise_pending (c : ResultCode) : (s.raise c).pending = s.pending := rfl
@[simp] theorem State.raise_reply (c : ResultCode) : (s.raise c).reply = s.reply := rfl
@[simp] theorem State.raise_draws (c : ResultCode) : (s.raise c).draws = s.draws := rfl

/-! ### finishOk -/

@[simp] theorem State.finishOk_cmd : (s.finishOk).cmd = s.cmd := rfl
@[simp] theorem State.finishOk_result : (s.finishOk).result = .ok := rfl
@[simp] theorem State.finishOk_synValid : (s.finishOk).synValid = s.synValid := rfl
@[simp] theorem State.finishOk_locValid : (s.finishOk).locValid = s.locValid := rfl
@[simp] theorem State.finishOk_synZero : (s.finishOk).synZero = s.synZero := rfl
@[simp] theorem State.finishOk_fatal : (s.finishOk).fatal = s.fatal := rfl
@[simp] theorem State.finishOk_k : (s.finishOk).k = s.k := rfl
@[simp] theorem State.finishOk_r : (s.finishOk).r = s.r := rfl
@[simp] theorem State.finishOk_a : (s.finishOk).a = s.a := rfl
@[simp] theorem State.finishOk_b : (s.finishOk).b = s.b := rfl
@[simp] theorem State.finishOk_e : (s.finishOk).e = s.e := rfl
@[simp] theorem State.finishOk_res : (s.finishOk).res = s.res := rfl
@[simp] theorem State.finishOk_ldeg : (s.finishOk).ldeg = s.ldeg := rfl
@[simp] theorem State.finishOk_nerr : (s.finishOk).nerr = s.nerr := rfl
@[simp] theorem State.finishOk_mem : (s.finishOk).mem = s.mem := rfl
@[simp] theorem State.finishOk_pending : (s.finishOk).pending = s.pending := rfl
@[simp] theorem State.finishOk_reply : (s.finishOk).reply = s.reply := rfl
@[simp] theorem State.finishOk_draws : (s.finishOk).draws = s.draws := rfl

/-! ### lockDivByZero -/

@[simp] theorem State.lockDivByZero_cmd : (s.lockDivByZero).cmd = s.cmd := rfl
@[simp] theorem State.lockDivByZero_result : (s.lockDivByZero).result = .divByZero := rfl
@[simp] theorem State.lockDivByZero_synValid : (s.lockDivByZero).synValid = s.synValid := rfl
@[simp] theorem State.lockDivByZero_locValid : (s.lockDivByZero).locValid = s.locValid := rfl
@[simp] theorem State.lockDivByZero_synZero : (s.lockDivByZero).synZero = s.synZero := rfl
@[simp] theorem State.lockDivByZero_fatal : (s.lockDivByZero).fatal = true := rfl
@[simp] theorem State.lockDivByZero_k : (s.lockDivByZero).k = s.k := rfl
@[simp] theorem State.lockDivByZero_r : (s.lockDivByZero).r = s.r := rfl
@[simp] theorem State.lockDivByZero_a : (s.lockDivByZero).a = s.a := rfl
@[simp] theorem State.lockDivByZero_b : (s.lockDivByZero).b = s.b := rfl
@[simp] theorem State.lockDivByZero_e : (s.lockDivByZero).e = s.e := rfl
@[simp] theorem State.lockDivByZero_res : (s.lockDivByZero).res = s.res := rfl
@[simp] theorem State.lockDivByZero_ldeg : (s.lockDivByZero).ldeg = s.ldeg := rfl
@[simp] theorem State.lockDivByZero_nerr : (s.lockDivByZero).nerr = s.nerr := rfl
@[simp] theorem State.lockDivByZero_mem : (s.lockDivByZero).mem = s.mem := rfl
@[simp] theorem State.lockDivByZero_pending : (s.lockDivByZero).pending = s.pending := rfl
@[simp] theorem State.lockDivByZero_reply : (s.lockDivByZero).reply = s.reply := rfl
@[simp] theorem State.lockDivByZero_draws : (s.lockDivByZero).draws = s.draws := rfl

/-! ### clearValidity -/

@[simp] theorem State.clearValidity_cmd : (s.clearValidity).cmd = s.cmd := rfl
@[simp] theorem State.clearValidity_result : (s.clearValidity).result = s.result := rfl
@[simp] theorem State.clearValidity_synValid : (s.clearValidity).synValid = false := rfl
@[simp] theorem State.clearValidity_locValid : (s.clearValidity).locValid = false := rfl
@[simp] theorem State.clearValidity_synZero : (s.clearValidity).synZero = false := rfl
@[simp] theorem State.clearValidity_fatal : (s.clearValidity).fatal = s.fatal := rfl
@[simp] theorem State.clearValidity_k : (s.clearValidity).k = s.k := rfl
@[simp] theorem State.clearValidity_r : (s.clearValidity).r = s.r := rfl
@[simp] theorem State.clearValidity_a : (s.clearValidity).a = s.a := rfl
@[simp] theorem State.clearValidity_b : (s.clearValidity).b = s.b := rfl
@[simp] theorem State.clearValidity_e : (s.clearValidity).e = s.e := rfl
@[simp] theorem State.clearValidity_res : (s.clearValidity).res = s.res := rfl
@[simp] theorem State.clearValidity_ldeg : (s.clearValidity).ldeg = s.ldeg := rfl
@[simp] theorem State.clearValidity_nerr : (s.clearValidity).nerr = s.nerr := rfl
@[simp] theorem State.clearValidity_mem : (s.clearValidity).mem = s.mem := rfl
@[simp] theorem State.clearValidity_pending : (s.clearValidity).pending = s.pending := rfl
@[simp] theorem State.clearValidity_reply : (s.clearValidity).reply = s.reply := rfl
@[simp] theorem State.clearValidity_draws : (s.clearValidity).draws = s.draws := rfl

/-! ### setSyndromeFlags -/

@[simp] theorem State.setSyndromeFlags_cmd (ss : List Byte) : (s.setSyndromeFlags ss).cmd = s.cmd := rfl
@[simp] theorem State.setSyndromeFlags_result (ss : List Byte) : (s.setSyndromeFlags ss).result = s.result := rfl
@[simp] theorem State.setSyndromeFlags_synValid (ss : List Byte) : (s.setSyndromeFlags ss).synValid = true := rfl
@[simp] theorem State.setSyndromeFlags_locValid (ss : List Byte) : (s.setSyndromeFlags ss).locValid = false := rfl
@[simp] theorem State.setSyndromeFlags_synZero (ss : List Byte) : (s.setSyndromeFlags ss).synZero = ss.all (· == 0x00) := rfl
@[simp] theorem State.setSyndromeFlags_fatal (ss : List Byte) : (s.setSyndromeFlags ss).fatal = s.fatal := rfl
@[simp] theorem State.setSyndromeFlags_k (ss : List Byte) : (s.setSyndromeFlags ss).k = s.k := rfl
@[simp] theorem State.setSyndromeFlags_r (ss : List Byte) : (s.setSyndromeFlags ss).r = s.r := rfl
@[simp] theorem State.setSyndromeFlags_a (ss : List Byte) : (s.setSyndromeFlags ss).a = s.a := rfl
@[simp] theorem State.setSyndromeFlags_b (ss : List Byte) : (s.setSyndromeFlags ss).b = s.b := rfl
@[simp] theorem State.setSyndromeFlags_e (ss : List Byte) : (s.setSyndromeFlags ss).e = s.e := rfl
@[simp] theorem State.setSyndromeFlags_res (ss : List Byte) : (s.setSyndromeFlags ss).res = s.res := rfl
@[simp] theorem State.setSyndromeFlags_ldeg (ss : List Byte) : (s.setSyndromeFlags ss).ldeg = s.ldeg := rfl
@[simp] theorem State.setSyndromeFlags_nerr (ss : List Byte) : (s.setSyndromeFlags ss).nerr = s.nerr := rfl
@[simp] theorem State.setSyndromeFlags_mem (ss : List Byte) : (s.setSyndromeFlags ss).mem = s.mem := rfl
@[simp] theorem State.setSyndromeFlags_pending (ss : List Byte) : (s.setSyndromeFlags ss).pending = s.pending := rfl
@[simp] theorem State.setSyndromeFlags_reply (ss : List Byte) : (s.setSyndromeFlags ss).reply = s.reply := rfl
@[simp] theorem State.setSyndromeFlags_draws (ss : List Byte) : (s.setSyndromeFlags ss).draws = s.draws := rfl

/-! ### setLocValid -/

@[simp] theorem State.setLocValid_cmd (v : Bool) : (s.setLocValid v).cmd = s.cmd := rfl
@[simp] theorem State.setLocValid_result (v : Bool) : (s.setLocValid v).result = s.result := rfl
@[simp] theorem State.setLocValid_synValid (v : Bool) : (s.setLocValid v).synValid = s.synValid := rfl
@[simp] theorem State.setLocValid_locValid (v : Bool) : (s.setLocValid v).locValid = v := rfl
@[simp] theorem State.setLocValid_synZero (v : Bool) : (s.setLocValid v).synZero = s.synZero := rfl
@[simp] theorem State.setLocValid_fatal (v : Bool) : (s.setLocValid v).fatal = s.fatal := rfl
@[simp] theorem State.setLocValid_k (v : Bool) : (s.setLocValid v).k = s.k := rfl
@[simp] theorem State.setLocValid_r (v : Bool) : (s.setLocValid v).r = s.r := rfl
@[simp] theorem State.setLocValid_a (v : Bool) : (s.setLocValid v).a = s.a := rfl
@[simp] theorem State.setLocValid_b (v : Bool) : (s.setLocValid v).b = s.b := rfl
@[simp] theorem State.setLocValid_e (v : Bool) : (s.setLocValid v).e = s.e := rfl
@[simp] theorem State.setLocValid_res (v : Bool) : (s.setLocValid v).res = s.res := rfl
@[simp] theorem State.setLocValid_ldeg (v : Bool) : (s.setLocValid v).ldeg = s.ldeg := rfl
@[simp] theorem State.setLocValid_nerr (v : Bool) : (s.setLocValid v).nerr = s.nerr := rfl
@[simp] theorem State.setLocValid_mem (v : Bool) : (s.setLocValid v).mem = s.mem := rfl
@[simp] theorem State.setLocValid_pending (v : Bool) : (s.setLocValid v).pending = s.pending := rfl
@[simp] theorem State.setLocValid_reply (v : Bool) : (s.setLocValid v).reply = s.reply := rfl
@[simp] theorem State.setLocValid_draws (v : Bool) : (s.setLocValid v).draws = s.draws := rfl

/-! ### resetCore -/

@[simp] theorem State.resetCore_cmd : (s.resetCore).cmd = 0x00 := rfl
@[simp] theorem State.resetCore_result : (s.resetCore).result = .ok := rfl
@[simp] theorem State.resetCore_synValid : (s.resetCore).synValid = false := rfl
@[simp] theorem State.resetCore_locValid : (s.resetCore).locValid = false := rfl
@[simp] theorem State.resetCore_synZero : (s.resetCore).synZero = false := rfl
@[simp] theorem State.resetCore_fatal : (s.resetCore).fatal = false := rfl
@[simp] theorem State.resetCore_k : (s.resetCore).k = 0x00 := rfl
@[simp] theorem State.resetCore_r : (s.resetCore).r = 0x00 := rfl
@[simp] theorem State.resetCore_a : (s.resetCore).a = 0x00 := rfl
@[simp] theorem State.resetCore_b : (s.resetCore).b = 0x00 := rfl
@[simp] theorem State.resetCore_e : (s.resetCore).e = 0x00 := rfl
@[simp] theorem State.resetCore_res : (s.resetCore).res = 0x00 := rfl
@[simp] theorem State.resetCore_ldeg : (s.resetCore).ldeg = 0x00 := rfl
@[simp] theorem State.resetCore_nerr : (s.resetCore).nerr = 0x00 := rfl
@[simp] theorem State.resetCore_mem : (s.resetCore).mem = [] := rfl
@[simp] theorem State.resetCore_pending : (s.resetCore).pending = s.pending := rfl
@[simp] theorem State.resetCore_reply : (s.resetCore).reply = .inReset := rfl
@[simp] theorem State.resetCore_draws : (s.resetCore).draws = s.draws := rfl

/-! ### withCommand -/

@[simp] theorem State.withCommand_cmd (v : Byte) : (s.withCommand v).cmd = s.cmd := rfl
@[simp] theorem State.withCommand_result (v : Byte) : (s.withCommand v).result = s.result := rfl
@[simp] theorem State.withCommand_synValid (v : Byte) : (s.withCommand v).synValid = s.synValid := rfl
@[simp] theorem State.withCommand_locValid (v : Byte) : (s.withCommand v).locValid = s.locValid := rfl
@[simp] theorem State.withCommand_synZero (v : Byte) : (s.withCommand v).synZero = s.synZero := rfl
@[simp] theorem State.withCommand_fatal (v : Byte) : (s.withCommand v).fatal = s.fatal := rfl
@[simp] theorem State.withCommand_k (v : Byte) : (s.withCommand v).k = s.k := rfl
@[simp] theorem State.withCommand_r (v : Byte) : (s.withCommand v).r = s.r := rfl
@[simp] theorem State.withCommand_a (v : Byte) : (s.withCommand v).a = s.a := rfl
@[simp] theorem State.withCommand_b (v : Byte) : (s.withCommand v).b = s.b := rfl
@[simp] theorem State.withCommand_e (v : Byte) : (s.withCommand v).e = s.e := rfl
@[simp] theorem State.withCommand_res (v : Byte) : (s.withCommand v).res = s.res := rfl
@[simp] theorem State.withCommand_ldeg (v : Byte) : (s.withCommand v).ldeg = s.ldeg := rfl
@[simp] theorem State.withCommand_nerr (v : Byte) : (s.withCommand v).nerr = s.nerr := rfl
@[simp] theorem State.withCommand_mem (v : Byte) : (s.withCommand v).mem = s.mem := rfl
@[simp] theorem State.withCommand_pending (v : Byte) : (s.withCommand v).pending = .access (.write cmdAddr v) :: s.pending := rfl
@[simp] theorem State.withCommand_reply (v : Byte) : (s.withCommand v).reply = s.reply := rfl
@[simp] theorem State.withCommand_draws (v : Byte) : (s.withCommand v).draws = s.draws := rfl

/-! ### setEntries changes the memory alone -/

theorem State.setEntries_eq (buf : Buffer) (start : Nat) (vs : List Byte) :
    s.setEntries buf start vs = { s with mem := (s.setEntries buf start vs).mem } := by
  induction vs generalizing s start with
  | nil => rfl
  | cons v vs ih =>
    show (s.setEntry buf start v).setEntries buf (start + 1) vs = _
    rw [ih (s.setEntry buf start v) (start + 1)]
    rfl

@[simp] theorem State.setEntries_cmd (buf : Buffer) (i : Nat) (vs : List Byte) : (s.setEntries buf i vs).cmd = s.cmd := by
  rw [State.setEntries_eq]
@[simp] theorem State.setEntries_result (buf : Buffer) (i : Nat) (vs : List Byte) : (s.setEntries buf i vs).result = s.result := by
  rw [State.setEntries_eq]
@[simp] theorem State.setEntries_synValid (buf : Buffer) (i : Nat) (vs : List Byte) : (s.setEntries buf i vs).synValid = s.synValid := by
  rw [State.setEntries_eq]
@[simp] theorem State.setEntries_locValid (buf : Buffer) (i : Nat) (vs : List Byte) : (s.setEntries buf i vs).locValid = s.locValid := by
  rw [State.setEntries_eq]
@[simp] theorem State.setEntries_synZero (buf : Buffer) (i : Nat) (vs : List Byte) : (s.setEntries buf i vs).synZero = s.synZero := by
  rw [State.setEntries_eq]
@[simp] theorem State.setEntries_fatal (buf : Buffer) (i : Nat) (vs : List Byte) : (s.setEntries buf i vs).fatal = s.fatal := by
  rw [State.setEntries_eq]
@[simp] theorem State.setEntries_k (buf : Buffer) (i : Nat) (vs : List Byte) : (s.setEntries buf i vs).k = s.k := by
  rw [State.setEntries_eq]
@[simp] theorem State.setEntries_r (buf : Buffer) (i : Nat) (vs : List Byte) : (s.setEntries buf i vs).r = s.r := by
  rw [State.setEntries_eq]
@[simp] theorem State.setEntries_a (buf : Buffer) (i : Nat) (vs : List Byte) : (s.setEntries buf i vs).a = s.a := by
  rw [State.setEntries_eq]
@[simp] theorem State.setEntries_b (buf : Buffer) (i : Nat) (vs : List Byte) : (s.setEntries buf i vs).b = s.b := by
  rw [State.setEntries_eq]
@[simp] theorem State.setEntries_e (buf : Buffer) (i : Nat) (vs : List Byte) : (s.setEntries buf i vs).e = s.e := by
  rw [State.setEntries_eq]
@[simp] theorem State.setEntries_res (buf : Buffer) (i : Nat) (vs : List Byte) : (s.setEntries buf i vs).res = s.res := by
  rw [State.setEntries_eq]
@[simp] theorem State.setEntries_ldeg (buf : Buffer) (i : Nat) (vs : List Byte) : (s.setEntries buf i vs).ldeg = s.ldeg := by
  rw [State.setEntries_eq]
@[simp] theorem State.setEntries_nerr (buf : Buffer) (i : Nat) (vs : List Byte) : (s.setEntries buf i vs).nerr = s.nerr := by
  rw [State.setEntries_eq]
@[simp] theorem State.setEntries_pending (buf : Buffer) (i : Nat) (vs : List Byte) : (s.setEntries buf i vs).pending = s.pending := by
  rw [State.setEntries_eq]
@[simp] theorem State.setEntries_reply (buf : Buffer) (i : Nat) (vs : List Byte) : (s.setEntries buf i vs).reply = s.reply := by
  rw [State.setEntries_eq]
@[simp] theorem State.setEntries_draws (buf : Buffer) (i : Nat) (vs : List Byte) : (s.setEntries buf i vs).draws = s.draws := by
  rw [State.setEntries_eq]

end Sys2Proof.Machine
end

