-- ==== Sys2Proof/Laws/Entries.lean ====
section
/-! SUPPORT. What the shared operations on buffer entries do: reading one entry or a run of entries, writing one or a run, and
that different entries never share an address. -/

namespace Sys2Proof.Machine

/-! ### Addresses -/

@[simp] theorem Buffer.address_cw (i : Nat) : Buffer.cw.address i = 0x100 + i := rfl
@[simp] theorem Buffer.address_syn (i : Nat) : Buffer.syn.address i = 0x200 + i := rfl
@[simp] theorem Buffer.address_lambda (i : Nat) : Buffer.lambda.address i = 0x300 + i := rfl
@[simp] theorem Buffer.address_errpos (i : Nat) : Buffer.errpos.address i = 0x400 + i := rfl
@[simp] theorem Buffer.address_errmag (i : Nat) : Buffer.errmag.address i = 0x480 + i := rfl

@[simp] theorem Buffer.size_cw : Buffer.cw.size = 255 := rfl
@[simp] theorem Buffer.size_syn : Buffer.syn.size = 254 := rfl
@[simp] theorem Buffer.size_lambda : Buffer.lambda.size = 255 := rfl
@[simp] theorem Buffer.size_errpos : Buffer.errpos.size = 128 := rfl
@[simp] theorem Buffer.size_errmag : Buffer.errmag.size = 128 := rfl

/-- Two entries that exist have the same address only if they are the same entry. -/
theorem Buffer.address_inj {b b' : Buffer} {i j : Nat} (hi : i < b.size) (hj : j < b'.size)
    (h : b.address i = b'.address j) : b = b' ∧ i = j := by
  cases b <;> cases b' <;> simp [Buffer.address, Buffer.base, Buffer.size] at * <;> omega

/-- Entries of one buffer have different addresses. -/
theorem Buffer.address_eq_iff (b : Buffer) (i j : Nat) : b.address i = b.address j ↔ i = j := by
  simp [Buffer.address]

/-- The address of an entry that exists is an entry address. -/
theorem isEntryAddress_address {b : Buffer} {i : Nat} (hi : i < b.size) : isEntryAddress (b.address i) = true := by
  refine List.any_eq_true.2 ⟨b, by cases b <;> simp, ?_⟩
  simp only [Buffer.address, Bool.and_eq_true]
  exact ⟨decide_eq_true (by omega), decide_eq_true (by omega)⟩

/-! ### One entry -/

/-- Reading an entry succeeds exactly where it exists and has been written. -/
theorem readEntry_ok_iff (s : State) (buf : Buffer) (i : Nat) (v : Byte) :
    readEntry s buf i = .ok v ↔ i < buf.size ∧ Memory.get s.mem (buf.address i) = some v := by
  unfold readEntry
  by_cases hi : i < buf.size
  · cases Memory.get s.mem (buf.address i) <;> simp [hi]
  · simp [hi]

/-- Reading an entry that exists faults exactly where nothing has written it. -/
theorem readEntry_unwritten_iff (s : State) (buf : Buffer) (i : Nat) (hi : i < buf.size) :
    readEntry s buf i = .error (.unwrittenEntry buf i) ↔ Memory.get s.mem (buf.address i) = none := by
  unfold readEntry
  cases Memory.get s.mem (buf.address i) <;> simp [hi]

/-- Reading depends on the memory alone. -/
theorem readEntry_congr {s t : State} (h : s.mem = t.mem) (buf : Buffer) (i : Nat) :
    readEntry s buf i = readEntry t buf i := by
  unfold readEntry; rw [h]

/-- Reading depends on the byte at the entry's address alone. -/
theorem readEntry_congr_get {s t : State} {buf : Buffer} {i : Nat}
    (h : Memory.get s.mem (buf.address i) = Memory.get t.mem (buf.address i)) :
    readEntry s buf i = readEntry t buf i := by
  unfold readEntry; rw [h]

theorem readEntry_setEntry_self (s : State) (buf : Buffer) (i : Nat) (v : Byte) (hi : i < buf.size) :
    readEntry (s.setEntry buf i v) buf i = .ok v := by
  rw [readEntry_ok_iff]
  exact ⟨hi, by simp [Memory.get_put_self]⟩

theorem readEntry_setEntry_ne (s : State) {buf buf' : Buffer} {i j : Nat} (v : Byte)
    (h : buf'.address j ≠ buf.address i) :
    readEntry (s.setEntry buf i v) buf' j = readEntry s buf' j :=
  readEntry_congr_get (by simp [Memory.get_put_ne _ _ h])

/-! ### A run of entries -/

@[simp] theorem readEntries_zero (s : State) (buf : Buffer) (start : Nat) : readEntries s buf start 0 = .ok [] := rfl

/-- Reading a run succeeds exactly where every entry of it can be read, and gives their bytes in order. -/
theorem readEntries_ok_iff (s : State) (buf : Buffer) (start n : Nat) (vs : List Byte) :
    readEntries s buf start n = .ok vs ↔
      vs.length = n ∧ ∀ i (h : i < vs.length), readEntry s buf (start + i) = .ok vs[i] := by
  induction n generalizing start vs with
  | zero =>
    constructor
    · intro h; cases h; simp
    · rintro ⟨h, -⟩; rw [List.length_eq_zero_iff] at h; rw [h]; rfl
  | succ n ih =>
    rw [readEntries]
    constructor
    · intro h
      split at h
      · cases h
      · next v hv =>
        split at h
        · cases h
        · next ws hws =>
          cases h
          obtain ⟨hlen, hget⟩ := (ih (start + 1) ws).1 hws
          refine ⟨by simp [hlen], fun i hi => ?_⟩
          cases i with
          | zero => simpa using hv
          | succ i =>
            have := hget i (by simpa using hi)
            rw [show start + (i + 1) = start + 1 + i by omega]
            simpa using this
    · rintro ⟨hlen, hget⟩
      cases vs with
      | nil => simp at hlen
      | cons v ws =>
        have hv := hget 0 (by simp)
        have hws : readEntries s buf (start + 1) n = .ok ws := by
          refine (ih (start + 1) ws).2 ⟨by simpa using hlen, fun i hi => ?_⟩
          have := hget (i + 1) (by simpa using hi)
          rw [show start + 1 + i = start + (i + 1) by omega]
          simpa using this
        simp only [Nat.add_zero, List.getElem_cons_zero] at hv
        rw [hv, hws]

/-- A run that has been written can be read. -/
theorem readEntries_of_written (s : State) (buf : Buffer) (start n : Nat) (hsize : start + n ≤ buf.size)
    (h : ∀ i, i < n → (Memory.get s.mem (buf.address (start + i))).isSome = true) :
    ∃ vs, readEntries s buf start n = .ok vs := by
  induction n generalizing start with
  | zero => exact ⟨[], rfl⟩
  | succ n ih =>
    obtain ⟨v, hv⟩ := Option.isSome_iff_exists.1 (h 0 (by omega))
    obtain ⟨ws, hws⟩ := ih (start + 1) (by omega) fun i hi => by
      rw [show start + 1 + i = start + (i + 1) by omega]; exact h (i + 1) (by omega)
    have hr : readEntry s buf start = .ok v := (readEntry_ok_iff ..).2 ⟨by omega, by simpa using hv⟩
    exact ⟨v :: ws, by rw [readEntries, hr, hws]⟩

/-- A run whose first unreadable entry is at offset `i` faults there. -/
theorem readEntries_error (s : State) (buf : Buffer) (start n i : Nat) (f : Fault) (hi : i < n)
    (hf : readEntry s buf (start + i) = .error f)
    (h : ∀ j, j < i → ∃ v, readEntry s buf (start + j) = .ok v) :
    readEntries s buf start n = .error f := by
  induction n generalizing start i with
  | zero => omega
  | succ n ih =>
    cases i with
    | zero => rw [readEntries, show readEntry s buf start = .error f by simpa using hf]
    | succ i =>
      obtain ⟨v, hv⟩ := h 0 (by omega)
      rw [readEntries, show readEntry s buf start = .ok v by simpa using hv]
      have := ih (start + 1) i (by omega) (by rw [show start + 1 + i = start + (i + 1) by omega]; exact hf)
        fun j hj => by rw [show start + 1 + j = start + (j + 1) by omega]; exact h (j + 1) (by omega)
      rw [this]

/-- Reading a run depends on the bytes at its addresses alone. -/
theorem readEntries_congr_get {s t : State} {buf : Buffer} {start n : Nat}
    (h : ∀ i, i < n → Memory.get s.mem (buf.address (start + i)) = Memory.get t.mem (buf.address (start + i))) :
    readEntries s buf start n = readEntries t buf start n := by
  induction n generalizing start with
  | zero => rfl
  | succ n ih =>
    have h0 : readEntry s buf start = readEntry t buf start := readEntry_congr_get (by simpa using h 0 (by omega))
    have hs : readEntries s buf (start + 1) n = readEntries t buf (start + 1) n := by
      refine ih fun i hi => ?_
      rw [show start + 1 + i = start + (i + 1) by omega]
      exact h (i + 1) (by omega)
    rw [readEntries, readEntries, h0, hs]

/-- Reading a run depends on the memory alone. -/
theorem readEntries_congr {s t : State} (h : s.mem = t.mem) (buf : Buffer) (start n : Nat) :
    readEntries s buf start n = readEntries t buf start n :=
  readEntries_congr_get fun _ _ => by rw [h]

/-! ### Writing a run -/

/-- What an address reads after a run is written: the run's byte there, or what it read before. -/
theorem get_setEntries (s : State) (buf : Buffer) (start : Nat) (vs : List Byte) (a : Nat) :
    Memory.get (s.setEntries buf start vs).mem a =
      if buf.address start ≤ a ∧ a < buf.address start + vs.length then vs[a - buf.address start]?
      else Memory.get s.mem a := by
  induction vs generalizing s start with
  | nil =>
    show Memory.get s.mem a = _
    rw [if_neg (by simp)]
  | cons v vs ih =>
    have hstep : (s.setEntries buf start (v :: vs)) = (s.setEntry buf start v).setEntries buf (start + 1) vs := rfl
    have haddr : buf.address (start + 1) = buf.address start + 1 := by simp [Buffer.address]; omega
    rw [hstep, ih, haddr]
    simp only [State.setEntry_mem, List.length_cons]
    by_cases h1 : buf.address start + 1 ≤ a ∧ a < buf.address start + 1 + vs.length
    · rw [if_pos h1, if_pos (by omega)]
      rw [show a - buf.address start = (a - (buf.address start + 1)) + 1 by omega]
      simp
    · rw [if_neg h1]
      by_cases h2 : a = buf.address start
      · subst h2
        rw [Memory.get_put_self, if_pos (by omega)]
        simp
      · rw [Memory.get_put_ne _ _ h2, if_neg (by omega)]

/-- Every entry of a run reads the byte written to it. -/
theorem get_setEntries_at (s : State) (buf : Buffer) (start : Nat) (vs : List Byte) (i : Nat) (hi : i < vs.length) :
    Memory.get (s.setEntries buf start vs).mem (buf.address (start + i)) = some vs[i] := by
  have haddr : buf.address (start + i) = buf.address start + i := by simp [Buffer.address]; omega
  rw [get_setEntries, haddr, if_pos (by omega)]
  simp [hi]

/-- Writing a run succeeds exactly where all of it exists, and then sets those entries. -/
theorem writeEntries_ok_iff (s : State) (buf : Buffer) (start : Nat) (vs : List Byte) (t : State) :
    writeEntries s buf start vs = .ok t ↔ start + vs.length ≤ buf.size ∧ t = s.setEntries buf start vs := by
  unfold writeEntries
  by_cases h : start + vs.length ≤ buf.size
  · simp only [if_pos h, Except.ok.injEq]
    exact ⟨fun hst => ⟨h, hst.symm⟩, fun hst => hst.2.symm⟩
  · simp [h]

/-- A run written at an entry's place reads back whole. -/
theorem readEntries_setEntries_self (s : State) (buf : Buffer) (start : Nat) (vs : List Byte)
    (h : start + vs.length ≤ buf.size) :
    readEntries (s.setEntries buf start vs) buf start vs.length = .ok vs :=
  (readEntries_ok_iff ..).2 ⟨rfl, fun i hi =>
    (readEntry_ok_iff ..).2 ⟨by omega, get_setEntries_at s buf start vs i hi⟩⟩

/-- A run of another buffer reads as before. -/
theorem readEntries_setEntries_other (s : State) {buf buf' : Buffer} (hne : buf' ≠ buf) (start start' n : Nat)
    (vs : List Byte) (h : start + vs.length ≤ buf.size) (h' : start' + n ≤ buf'.size) :
    readEntries (s.setEntries buf start vs) buf' start' n = readEntries s buf' start' n := by
  refine readEntries_congr_get fun i hi => ?_
  rw [get_setEntries, if_neg]
  rintro ⟨hle, hlt⟩
  have haddr : buf'.address (start' + i) = buf.address (start + (buf'.address (start' + i) - buf.address start)) := by
    simp only [Buffer.address] at *; omega
  exact hne (Buffer.address_inj (by omega) (by simp only [Buffer.address] at *; omega) haddr).1

/-! ### Canonical form and entry addresses -/

/-- Writing a run keeps the canonical form. -/
theorem setEntries_wf (s : State) (buf : Buffer) (start : Nat) (vs : List Byte) (h : Memory.wf s.mem = true) :
    Memory.wf (s.setEntries buf start vs).mem = true := by
  induction vs generalizing s start with
  | nil => exact h
  | cons v vs ih => exact ih (s.setEntry buf start v) (start + 1) (Memory.put_wf _ _ _ h)

/-- Writing a run that exists lists entry addresses only. -/
theorem setEntries_entryAddresses (s : State) (buf : Buffer) (start : Nat) (vs : List Byte)
    (hsize : start + vs.length ≤ buf.size) (h : ∀ c ∈ s.mem, isEntryAddress c.1 = true) :
    ∀ c ∈ (s.setEntries buf start vs).mem, isEntryAddress c.1 = true := by
  induction vs generalizing s start with
  | nil => exact h
  | cons v vs ih =>
    simp only [List.length_cons] at hsize
    refine ih (s.setEntry buf start v) (start + 1) (by omega) fun c hc => ?_
    rcases Memory.mem_put hc with hca | hc
    · rw [hca]; exact isEntryAddress_address (by omega)
    · exact h c hc

end Sys2Proof.Machine
end

