-- ==== Sys2Proof/Laws/Commands.lean ====
section
/-! SUPPORT. What every shared operation of a command and of the step does, said once: the lock check, the stages of DECODE,
the lengths of the computed runs, and one equation of the step per kind of event. -/

namespace Sys2Proof.Machine

/-! ### The lock check -/

/-- A locked core answers LOCKED to every command. -/
theorem runCommand_locked (s : State) (body : State → Except Fault State) (h : s.fatal = true) :
    runCommand s body = .next (s.raise .locked) := by
  simp [runCommand, h]

/-- A core that is not locked runs the command. -/
theorem runCommand_unlocked (s : State) (body : State → Except Fault State) (h : s.fatal = false) :
    runCommand s body = outcomeOf (body s) := by
  simp [runCommand, h]

/-- Everything a command that ends in a next state can have done. -/
theorem runCommand_next_cases {s t : State} {body : State → Except Fault State} (h : runCommand s body = .next t) :
    (s.fatal = true ∧ t = s.raise .locked) ∨ (s.fatal = false ∧ body s = .ok t) := by
  unfold runCommand at h
  split at h
  · next hf => exact .inl ⟨hf, by cases h; rfl⟩
  · next hf =>
    refine .inr ⟨by simpa using hf, ?_⟩
    cases hb : body s with
    | ok u => rw [hb] at h; cases h; rfl
    | error f => rw [hb] at h; cases h

/-- A command never refuses. -/
theorem runCommand_ne_refused (s : State) (body : State → Except Fault State) (q : Refusal) :
    runCommand s body ≠ .refused q := by
  unfold runCommand
  split
  · simp
  · cases body s <;> simp [outcomeOf]

/-! ### The stages of DECODE -/

theorem thenStage_ok {s : State} {next : State → Except Fault State} (h : s.result = .ok) :
    thenStage (.ok s) next = next s := by
  simp [thenStage, h]

theorem thenStage_stop {s : State} {next : State → Except Fault State} (h : s.result ≠ .ok) :
    thenStage (.ok s) next = .ok s := by
  simp [thenStage, h]

@[simp] theorem thenStage_error (f : Fault) (next : State → Except Fault State) :
    thenStage (.error f) next = .error f := rfl

/-! ### How long the computed runs are -/

@[simp] theorem syndromes_length (cw : List Byte) (r : Nat) : (syndromes cw r).length = r := by
  simp [syndromes]

theorem mulLinear_length (c : Byte) (p : List Byte) : (mulLinear c p).length = p.length + 1 := by
  simp [mulLinear]

@[simp] theorem generator_length (r : Nat) : (generator r).length = r + 1 := by
  induction r with
  | zero => rfl
  | succ r ih => rw [generator, mulLinear_length, ih]

@[simp] theorem parityTaps_length (r : Nat) : (parityTaps r).length = r := by
  simp [parityTaps]

theorem parityStep_length (taps p : List Byte) (d : Byte) (h : p.length = taps.length) (hp : 0 < p.length) :
    (parityStep taps p d).length = taps.length := by
  simp only [parityStep, List.length_zipWith, List.length_append, List.length_tail, List.length_singleton]
  omega

/-- The parity of a block has r bytes. -/
theorem parity_length (d : List Byte) (r : Nat) (hr : 0 < r) : (parity d r).length = r := by
  have aux : ∀ (p : List Byte), p.length = r → (d.foldl (parityStep (parityTaps r)) p).length = r := by
    induction d with
    | nil => intro p hp; exact hp
    | cons x xs ih =>
      intro p hp
      refine ih _ ?_
      rw [parityStep_length _ _ _ (by simp [hp]) (by omega), parityTaps_length]
  exact aux _ (by simp)

@[simp] theorem addShifted_length (cur : List Byte) (c : Byte) (m : Nat) (base : List Byte) :
    (addShifted cur c m base).length = cur.length := by
  simp [addShifted]

/-- One iteration at a time: the state after n + 1 iterations is one iteration from the state after n. -/
theorem berlekampMassey_succ (sq : List Byte) (n : Nat) :
    berlekampMassey sq (n + 1) = BerlekampMassey.iterate sq (berlekampMassey sq n) n := by
  simp [berlekampMassey, List.range_succ]

@[simp] theorem berlekampMassey_zero (sq : List Byte) :
    berlekampMassey sq 0 = BerlekampMassey.init sq.length := rfl

/-- Both polynomials keep their r + 1 coefficients. -/
theorem update_lengths (st : BerlekampMassey) (n : Nat) (d : Byte) (h : st.baseline.length = st.current.length) :
    (st.update n d).current.length = st.current.length ∧ (st.update n d).baseline.length = st.current.length := by
  unfold BerlekampMassey.update
  split
  · exact ⟨rfl, h⟩
  · dsimp only
    split <;> simp [h]

theorem berlekampMassey_lengths (sq : List Byte) (n : Nat) :
    (berlekampMassey sq n).current.length = sq.length + 1 ∧ (berlekampMassey sq n).baseline.length = sq.length + 1 := by
  induction n with
  | zero => simp [BerlekampMassey.init]
  | succ n ih =>
    rw [berlekampMassey_succ]
    have := update_lengths (berlekampMassey sq n) n (discrepancy sq (berlekampMassey sq n) n) (by omega)
    exact ⟨by rw [BerlekampMassey.iterate, this.1, ih.1], by rw [BerlekampMassey.iterate, this.2, ih.1]⟩

/-- LOCATE computes r + 1 coefficients. -/
theorem locate_length (syn : List Byte) : (locate syn).1.length = syn.length + 1 := by
  have h := (berlekampMassey_lengths (syndromeSequence syn) syn.length).1
  rw [syndromeSequence, List.length_reverse] at h
  exact h

@[simp] theorem magnitudes_length (syn lam : List Byte) (n : Nat) (roots : List Nat) :
    (magnitudes syn lam n roots).length = roots.length := by
  simp [magnitudes]

/-- The root search lists positions below n where the locator vanishes at the inverse of X_p. -/
theorem mem_rootPositions (lam : List Byte) (n p : Nat) :
    p ∈ rootPositions lam n ↔ p < n ∧ polyEval lam (locatorInverse n p) = 0x00 := by
  simp [rootPositions]

/-! ### Recording and applying corrections -/

/-- Recording the errors succeeds where both lists hold at most 128 of them. -/
theorem recordErrors_ok {s : State} {roots : List Nat} {mags : List Byte} (hr : roots.length ≤ 128)
    (hm : mags.length ≤ 128) :
    recordErrors s roots mags =
      .ok (((s.setEntries .errpos 0 (roots.map (BitVec.ofNat 8))).setEntries .errmag 0 mags).setNerr roots.length) := by
  have h1 : writeEntries s .errpos 0 (roots.map (BitVec.ofNat 8)) = .ok (s.setEntries .errpos 0 (roots.map (BitVec.ofNat 8))) :=
    (writeEntries_ok_iff ..).2 ⟨by simpa using hr, rfl⟩
  have h2 : writeEntries (s.setEntries .errpos 0 (roots.map (BitVec.ofNat 8))) .errmag 0 mags = .ok _ :=
    (writeEntries_ok_iff ..).2 ⟨by simpa using hm, rfl⟩
  rw [recordErrors, h1]
  dsimp only
  rw [h2]

/-- Corrections change the memory alone. -/
theorem applyCorrections_eq {s t : State} {ps : List (Nat × Byte)} (h : applyCorrections s ps = .ok t) :
    t = { s with mem := t.mem } := by
  induction ps generalizing s with
  | nil => cases h; rfl
  | cons c ps ih =>
    obtain ⟨p, y⟩ := c
    rw [applyCorrections] at h
    split at h
    · cases h
    · rw [ih h]; rfl

/-- Corrections leave every byte but those at the positions they name. -/
theorem applyCorrections_get_ne {s t : State} {ps : List (Nat × Byte)} (h : applyCorrections s ps = .ok t) {a : Nat}
    (ha : ∀ c ∈ ps, a ≠ Buffer.cw.address c.1) : Memory.get t.mem a = Memory.get s.mem a := by
  induction ps generalizing s with
  | nil => cases h; rfl
  | cons c ps ih =>
    obtain ⟨p, y⟩ := c
    rw [applyCorrections] at h
    split at h
    · cases h
    · rw [ih h fun c hc => ha c (List.mem_cons_of_mem _ hc), State.setEntry_mem,
        Memory.get_put_ne _ _ (ha (p, y) List.mem_cons_self)]

/-- Corrections at distinct written positions succeed, and each position holds its old byte plus its magnitude. -/
theorem applyCorrections_ok (s : State) (ps : List (Nat × Byte)) (hnodup : (ps.map Prod.fst).Nodup)
    (hex : ∀ c ∈ ps, c.1 < 255 ∧ (Memory.get s.mem (Buffer.cw.address c.1)).isSome = true) :
    ∃ t, applyCorrections s ps = .ok t ∧ ∀ c ∈ ps, ∀ v, Memory.get s.mem (Buffer.cw.address c.1) = some v →
      Memory.get t.mem (Buffer.cw.address c.1) = some (gfAdd v c.2) := by
  induction ps generalizing s with
  | nil => exact ⟨s, rfl, by simp⟩
  | cons c ps ih =>
    obtain ⟨p, y⟩ := c
    obtain ⟨hp, hnd⟩ := List.nodup_cons.1 hnodup
    obtain ⟨hp255, hw⟩ := hex (p, y) List.mem_cons_self
    obtain ⟨v, hv⟩ := Option.isSome_iff_exists.1 hw
    have hread : readEntry s .cw p = .ok v := (readEntry_ok_iff ..).2 ⟨hp255, hv⟩
    have hother : ∀ d ∈ ps, Memory.get (s.setEntry .cw p (gfAdd v y)).mem (Buffer.cw.address d.1) =
        Memory.get s.mem (Buffer.cw.address d.1) := by
      intro d hd
      rw [State.setEntry_mem, Memory.get_put_ne]
      intro heq
      rw [Buffer.address_eq_iff] at heq
      exact hp (List.mem_map.2 ⟨d, hd, heq⟩)
    obtain ⟨t, ht, hget⟩ := ih (s.setEntry .cw p (gfAdd v y)) hnd fun d hd => by
      rw [hother d hd]; exact hex d (List.mem_cons_of_mem _ hd)
    refine ⟨t, by rw [applyCorrections, hread]; exact ht, fun c hc w hwc => ?_⟩
    rcases List.mem_cons.1 hc with rfl | hc
    · rw [applyCorrections_get_ne ht fun d hd heq => hp ?_]
      · rw [hv] at hwc; cases hwc
        rw [State.setEntry_mem, Memory.get_put_self]
      · rw [Buffer.address_eq_iff] at heq
        exact List.mem_map.2 ⟨d, hd, heq.symm⟩
    · exact hget c hc w (by rw [hother c hc]; exact hwc)

/-! ### The step, one equation per kind of event -/

theorem step_idle (s : State) (h : s.pending = []) : step s = .next { s with reply := .idle } := by
  simp [step, stepEvent, h]

theorem step_event (s : State) (ev : HostEvent) (rest : List HostEvent) (h : s.pending = ev :: rest) :
    step s = perform ev { s with pending := rest } := by
  simp [step, stepEvent, h]

theorem perform_write_cmd (s : State) (v : Byte) :
    perform (.access (.write cmdAddr v)) s = exec (decodeByte v) { s with reply := .written, cmd := v } := rfl

/-- The step after `withFetchWord` runs the command of that byte. -/
theorem step_withFetchWord (s : State) (nbits w : Nat) :
    step (s.withFetchWord nbits w) =
      exec (decodeByte (tableByte nbits w)) { s with reply := .written, cmd := tableByte nbits w } := rfl

/-- Every instruction is a command behind the lock check. -/
theorem exec_eq_runCommand (i : Instr) : ∃ body, ∀ s, exec i s = runCommand s body := by
  cases i with
  | gfAdd => exact ⟨_, fun _ => rfl⟩
  | gfMul => exact ⟨_, fun _ => rfl⟩
  | gfInv => exact ⟨_, fun _ => rfl⟩
  | gfPow => exact ⟨_, fun _ => rfl⟩
  | encode => exact ⟨_, fun _ => rfl⟩
  | syndrome => exact ⟨_, fun _ => rfl⟩
  | locate => exact ⟨_, fun _ => rfl⟩
  | correct => exact ⟨_, fun _ => rfl⟩
  | decode => exact ⟨_, fun _ => rfl⟩
  | illegal v => exact ⟨_, fun _ => rfl⟩

end Sys2Proof.Machine
end

