-- ==== Sys2Proof/Laws/Field.lean ====
section
/-! SUPPORT. That the two tables transcribed from the spec are what its definitions make them, and the simplest laws of the
field functions. -/

namespace Sys2Proof.Machine

set_option maxRecDepth 4000

/-- Every entry of EXP is the power of alpha its index names (40_field_arithmetic.md R131). -/
theorem expTable_eq_pow : ∀ i, i < 255 → expTable i = gfPow alpha i := by decide +kernel

/-- Every entry of INV is an inverse of its index (40_field_arithmetic.md R128). -/
theorem gfMul_invTable : ∀ x : Byte, x ≠ 0x00 → gfMul x (invTable x) = 0x01 := by decide +kernel

/-- alpha to an integer exponent is a power by repeated multiplication (00_scope.md R12). -/
theorem alphaPow_eq_pow (e : Int) : alphaPow e = gfPow alpha (e % 255).toNat :=
  expTable_eq_pow _ (by omega)

/-- Exponents count modulo 255. -/
theorem alphaPow_congr {e f : Int} (h : e % 255 = f % 255) : alphaPow e = alphaPow f := by
  unfold alphaPow; rw [h]

theorem gfInv_of_ne_zero {x : Byte} (h : x ≠ 0x00) : gfInv x = invTable x := if_neg h

@[simp] theorem gfPow_zero (x : Byte) : gfPow x 0 = 0x01 := rfl
@[simp] theorem gfPow_succ (x : Byte) (n : Nat) : gfPow x (n + 1) = gfMul (gfPow x n) x := rfl

@[simp] theorem xorSum_nil : xorSum [] = 0x00 := rfl
@[simp] theorem xorSum_cons (x : Byte) (xs : List Byte) : xorSum (x :: xs) = gfAdd x (xorSum xs) := rfl

@[simp] theorem polyEval_nil (x : Byte) : polyEval [] x = 0x00 := rfl
@[simp] theorem polyEval_cons (c : Byte) (cs : List Byte) (x : Byte) :
    polyEval (c :: cs) x = gfAdd c (gfMul x (polyEval cs x)) := rfl

end Sys2Proof.Machine
end

