-- ==== Sys2Proof/Laws/PerInstr.lean ====
section
/-! SUPPORT. Statements about every instruction as syntax, one lemma per constructor. -/

namespace Sys2Proof.Laws

/-- The byte of a well-formed instruction lies in 0x01 to 0x09 exactly for the nine commands (30_encoding.md R101, R103). -/
def CommandByte.Statement (i : Instr) : Prop :=
  i.wellFormed = true → (illegalByte (encodeByte i) = true ↔ ∃ v, i = .illegal v)

theorem CommandByte.gfAdd : CommandByte.Statement .gfAdd := fun _ => by decide +revert
theorem CommandByte.gfMul : CommandByte.Statement .gfMul := fun _ => by decide +revert
theorem CommandByte.gfInv : CommandByte.Statement .gfInv := fun _ => by decide +revert
theorem CommandByte.gfPow : CommandByte.Statement .gfPow := fun _ => by decide +revert
theorem CommandByte.encode : CommandByte.Statement .encode := fun _ => by decide +revert
theorem CommandByte.syndrome : CommandByte.Statement .syndrome := fun _ => by decide +revert
theorem CommandByte.locate : CommandByte.Statement .locate := fun _ => by decide +revert
theorem CommandByte.correct : CommandByte.Statement .correct := fun _ => by decide +revert
theorem CommandByte.decode : CommandByte.Statement .decode := fun _ => by decide +revert
theorem CommandByte.illegal (v : Byte) : CommandByte.Statement (.illegal v) := fun h => ⟨fun _ => ⟨v, rfl⟩, fun _ => h⟩

end Sys2Proof.Laws
end

