-- ==== Sys2Proof/Tests/Slice0.lean ====
section
/-! SUPPORT. Tests of the model against the values 95_test_vectors.md and the other spec files state, and for each obligation
with hypotheses a concrete state and operands that meet them all. -/

namespace Sys2Proof.Tests

-- One theorem at a time: checked at once, each of these evaluations waits in a thread of its own.
set_option Elab.async false

open Sys2Proof.Machine Sys2Proof.Claims

/-! ### Helpers -/

/-- The reset state with K, R and CW[0 …] written. -/
def loaded (k r : Byte) (cw : List Byte) : State := ({ State.reset with k := k, r := r }).setEntries .cw 0 cw

/-- The reset state with A, B and E written. -/
def operands (a b e : Byte) : State := { State.reset with a := a, b := b, e := e }

/-- The next state of an outcome, if it is one. -/
def nextOf : Host.Outcome State Fault Refusal → Option State
  | .next t => some t
  | .fault _ => none
  | .refused _ => none

/-- The fault of an outcome, if it is one. -/
def faultOf : Host.Outcome State Fault Refusal → Option Fault
  | .next _ => none
  | .fault f => some f
  | .refused _ => none

/-- The state after an instruction that ends in a next state. -/
def after (i : Instr) (s : State) : State := (nextOf (exec i s)).getD s

/-- The state after a step that ends in a next state. -/
def stepped (s : State) : State := (nextOf (step s)).getD s

theorem eq_next {o : Host.Outcome State Fault Refusal} {t : State} (h : nextOf o = some t) : o = .next t := by
  cases o <;> simp_all [nextOf]

theorem eq_fault {o : Host.Outcome State Fault Refusal} {f : Fault} (h : faultOf o = some f) : o = .fault f := by
  cases o <;> simp_all [faultOf]

theorem exec_after {i : Instr} {s : State} (h : (nextOf (exec i s)).isSome = true) :
    exec i s = .next (after i s) := by
  obtain ⟨t, ht⟩ := Option.isSome_iff_exists.mp h
  rw [after, ht]
  exact eq_next ht

theorem step_stepped {s : State} (h : (nextOf (step s)).isSome = true) : step s = .next (stepped s) := by
  obtain ⟨t, ht⟩ := Option.isSome_iff_exists.mp h
  rw [stepped, ht]
  exact eq_next ht

/-- RES and STATUS after the very next step runs a table word. -/
def fieldResult (s : State) (w : Nat) : Option (Byte × Byte) :=
  (nextOf (step (s.withFetchWord 8 w))).map fun t => (t.res, t.statusByte)

/-- STATUS, NERR and some bytes of a buffer after the very next step runs a table word. -/
def codeResult (s : State) (w : Nat) (buf : Buffer) (n : Nat) : Option (Byte × Byte × List (Option Byte)) :=
  (nextOf (step (s.withFetchWord 8 w))).map fun t =>
    (t.statusByte, t.nerr, (List.range n).map fun i => byteAt t (buf.address i))

/-- The received word of 95_test_vectors.md 1.1, with one error. -/
def oneError : State := loaded 4 2 [0x01, 0x02, 0xFC, 0x04, 0x04, 0x00]
/-- The received word of 95_test_vectors.md D3, with two errors. -/
def twoErrors : State := loaded 4 4 [0x11, 0x02, 0x03, 0x04, 0x75, 0xA3, 0xB3, 0x60]
/-- The received word of 95_test_vectors.md D6, whose locator has too few roots. -/
def fewRoots : State := loaded 4 2 [0xF4, 0xF5, 0x03, 0x04, 0x04, 0x00]
/-- A core locked by GF_INV of 0x00. -/
def locked : State := after .gfInv State.reset

/-! ### Well-formedness: an ill-formed term for the one check -/

theorem test_wellFormed_refuses_a_command_byte_called_illegal :
    (Instr.illegal 0x05).wellFormed = false ∧ (Instr.illegal 0x01).wellFormed = false ∧
      (Instr.illegal 0x09).wellFormed = false := by decide

theorem test_wellFormed_accepts_the_illegal_bytes_beside_the_opcodes :
    (Instr.illegal 0x00).wellFormed = true ∧ (Instr.illegal 0x0A).wellFormed = true ∧
      (Instr.illegal 0xFF).wellFormed = true := by decide

/-! ### Decoding: every constructor's word, written out from 30_encoding.md R101, R102 -/

theorem test_decode_gfAdd : decode [0b00000001#8] = .ok (.gfAdd, []) := by rfl
theorem test_decode_gfMul : decode [0b00000010#8] = .ok (.gfMul, []) := by rfl
theorem test_decode_gfInv : decode [0b00000011#8] = .ok (.gfInv, []) := by rfl
theorem test_decode_gfPow : decode [0b00000100#8] = .ok (.gfPow, []) := by rfl
theorem test_decode_encode : decode [0b00000101#8] = .ok (.encode, []) := by rfl
theorem test_decode_syndrome : decode [0b00000110#8] = .ok (.syndrome, []) := by rfl
theorem test_decode_locate : decode [0b00000111#8] = .ok (.locate, []) := by rfl
theorem test_decode_correct : decode [0b00001000#8] = .ok (.correct, []) := by rfl
theorem test_decode_decode : decode [0b00001001#8, 0xFF#8] = .ok (.decode, [0xFF#8]) := by rfl
theorem test_decode_illegal :
    decode [0b00000000#8] = .ok (.illegal 0x00, []) ∧ decode [0b00001010#8] = .ok (.illegal 0x0A, []) ∧
      decode [0b11111111#8] = .ok (.illegal 0xFF, []) := by decide

theorem test_decodeTableWord_reads_one_byte :
    decodeTableWord 8 0x09 = some .decode ∧ decodeTableWord 8 0x10 = some (.illegal 0x10) := by decide

/-- 30_encoding.md R109 with words of 95_test_vectors.md P1 and P3: WR A, 0x53; RD RES; WR CW+2, 0xFC; RD ERRMAG+0. -/
theorem test_transaction_words :
    transactionWord (.write aAddr 0x53) = 0x80453#20 ∧ transactionWord (.read resAddr) = 0x00700#20 ∧
      transactionWord (.write (entryAddr .cw 2) 0xFC) = 0x902FC#20 ∧
      transactionWord (.read (entryAddr .errmag 0)) = 0x48000#20 := by decide

/-! ### Field tables and vectors (40_field_arithmetic.md R128, R131, R132; 95_test_vectors.md 2.1) -/

theorem test_tables : expTable 8 = 0x1D ∧ expTable 200 = 0x1C ∧ expTable 254 = 0x8E ∧ gfLog 0x1D = some 8 ∧
    gfInv 0x80 = 0x1B ∧ gfInv 0xFF = 0xFD := by decide +kernel

theorem test_clmul : clmul 0x53 0xCA 8 = 0x3F7E ∧ clmul 0xFF 0xFF 8 = 0x5555 := by decide +kernel

theorem test_networkMul : networkMul 0x53 0xCA = 0x8F ∧ networkMul 0x80 0x80 = 0x13 := by decide +kernel

theorem test_gfAdd : fieldResult (operands 0x53 0xCA 0x00) 0x01 = some (0x99, 0x00) := by decide +kernel
theorem test_gfMul : fieldResult (operands 0x53 0xCA 0x00) 0x02 = some (0x8F, 0x00) := by decide +kernel
theorem test_gfMul_reduces : fieldResult (operands 0xFF 0xFF 0x00) 0x02 = some (0xE2, 0x00) := by decide +kernel
theorem test_gfInv : fieldResult (operands 0x53 0x00 0x00) 0x03 = some (0x8C, 0x00) := by decide +kernel
theorem test_gfInv_of_zero : fieldResult { operands 0x00 0x00 0x00 with res := 0xA7 } 0x03 = some (0xA7, 0x83) := by
  decide +kernel
theorem test_gfPow : fieldResult (operands 0x02 0x00 0xC8) 0x04 = some (0x1C, 0x00) := by decide +kernel
theorem test_gfPow_zero_to_zero : fieldResult (operands 0x00 0x00 0x00) 0x04 = some (0x01, 0x00) := by decide +kernel

/-! ### The codec (95_test_vectors.md 2.2 to 2.6) -/

theorem test_encode : codeResult (loaded 4 4 [0x01, 0x02, 0x03, 0x04]) 0x05 .cw 9 =
    some (0x00, 0x00,
      [some 0x01, some 0x02, some 0x03, some 0x04, some 0x75, some 0xA3, some 0xB2, some 0x60, none]) := by
  decide +kernel

theorem test_encode_invalid_parameters :
    codeResult (loaded 0xFA 0x06 [0x01, 0x02, 0x03, 0x04]) 0x05 .cw 5 =
      some (0x01, 0x00, [some 0x01, some 0x02, some 0x03, some 0x04, none]) := by decide +kernel

theorem test_syndrome : codeResult twoErrors 0x06 .syn 5 =
    some (0x10, 0x00, [some 0x0B, some 0x29, some 0xEA, some 0x11, none]) := by decide +kernel

/-- 90_conflicts.md C2: the literal formula of the source would give 00 00. -/
theorem test_syndrome_uses_the_consecutive_roots :
    codeResult (loaded 4 2 [0x00, 0x03, 0x03, 0x04, 0x04, 0x00]) 0x06 .syn 2 =
      some (0x10, 0x00, [some 0x30, some 0x00]) := by decide +kernel

theorem test_locate : codeResult (after .syndrome twoErrors) 0x07 .lambda 6 =
    some (0x30, 0x00, [some 0x01, some 0x82, some 0x1D, some 0x00, some 0x00, none]) := by decide +kernel

theorem test_locate_uncorrectable : codeResult (after .syndrome (loaded 1 1 [0x40, 0x41])) 0x07 .lambda 3 =
    some (0x12, 0x00, [some 0x01, some 0x01, none]) := by decide +kernel

theorem test_correct : codeResult (after .locate (after .syndrome twoErrors)) 0x08 .errmag 3 =
    some (0x00, 0x02, [some 0x10, some 0x01, none]) := by decide +kernel

theorem test_correct_with_too_few_roots : codeResult (after .locate (after .syndrome fewRoots)) 0x08 .cw 6 =
    some (0x02, 0x00, [some 0xF4, some 0xF5, some 0x03, some 0x04, some 0x04, some 0x00]) := by decide +kernel

theorem test_decode : codeResult twoErrors 0x09 .cw 8 =
    some (0x00, 0x02,
      [some 0x01, some 0x02, some 0x03, some 0x04, some 0x75, some 0xA3, some 0xB2, some 0x60]) := by decide +kernel

theorem test_decode_fails_at_locate :
    codeResult (loaded 4 2 [0x00, 0x02, 0x03, 0x04, 0x04, 0x01]) 0x09 .syn 2 =
      some (0x12, 0x00, [some 0x21, some 0x00]) := by decide +kernel

/-! ### Illegal bytes, the lock and the sequence (95_test_vectors.md 2.7) -/

theorem test_illegal : fieldResult State.reset 0x0A = some (0x00, 0x04) := by decide +kernel
theorem test_locked_comes_before_illegal : fieldResult locked 0x55 = some (0x00, 0x86) := by decide +kernel
theorem test_sequence_comes_before_parameters : fieldResult State.reset 0x07 = some (0x00, 0x05) := by decide +kernel

/-! ### The bus (20_memory.md R71 to R81; 95_test_vectors.md 2.7) -/

theorem test_map_boundaries :
    placeOf 0x009 = .nerr ∧ placeOf 0x00A = .reserved ∧ placeOf 0x0FF = .reserved ∧ placeOf 0x100 = .entry .cw 0 ∧
    placeOf 0x1FE = .entry .cw 254 ∧ placeOf 0x1FF = .reserved ∧ placeOf 0x200 = .entry .syn 0 ∧
    placeOf 0x2FD = .entry .syn 253 ∧ placeOf 0x2FE = .reserved ∧ placeOf 0x2FF = .reserved ∧
    placeOf 0x300 = .entry .lambda 0 ∧ placeOf 0x3FE = .entry .lambda 254 ∧ placeOf 0x3FF = .reserved ∧
    placeOf 0x400 = .entry .errpos 0 ∧ placeOf 0x47F = .entry .errpos 127 ∧ placeOf 0x480 = .entry .errmag 0 ∧
    placeOf 0x4FF = .entry .errmag 127 ∧ placeOf 0x500 = .reserved ∧ placeOf 0x7FF = .reserved := by decide

theorem test_reads_right_after_reset :
    busRead State.reset 0x001 = .ok 0x00 ∧ busRead State.reset 0x0FF = .ok 0x00 ∧
      busRead State.reset 0x7FF = .ok 0x00 ∧ busRead State.reset 0x100 = .error (.unwrittenEntry .cw 0) ∧
      busRead State.reset 0x480 = .error (.unwrittenEntry .errmag 0) := by decide

/-- X12: writes to STATUS, RES and a reserved address are ignored. -/
theorem test_ignored_writes :
    busWrite locked 0x001 0xFF = .next locked ∧ busWrite locked 0x007 0x12 = .next locked ∧
      busWrite locked 0x7FF 0x12 = .next locked :=
  ⟨eq_next (by decide +kernel), eq_next (by decide +kernel), eq_next (by decide +kernel)⟩

/-- X5: a write to CW of the value it already holds clears SYN_VALID. -/
theorem test_cw_write_invalidates :
    busWrite (after .syndrome oneError) 0x102 0xFC = .next { after .syndrome oneError with synValid := false } :=
  eq_next (by decide +kernel)

/-- P1's first lines put before what the host does, as transactions. -/
theorem test_withScript :
    (State.reset.withScript [.wr aAddr 0x53, .command .gfInv, .check .ok]).pending =
      [.access (.write 0x004 0x53), .access (.write 0x000 0x03), .access (.read 0x001)] := by decide

/-! ### Witnesses: states and operands that meet the hypotheses of the obligations -/

theorem witness_DecoderFollowsOpcodeMap : locked.fatal = true := by decide +kernel

theorem witness_DecodeAndEncodeAgree :
    Instr.gfAdd.wellFormed = true ∧ Instr.decode.wellFormed = true ∧ (Instr.illegal 0x0A).wellFormed = true := by
  decide

/-- A host that reads CW[254], with CW[0] and the last entry of every buffer written. -/
def readable : State :=
  (((((({ State.reset with pending := [.access (.read 0x1FE)] }.setEntry .cw 0 0x11).setEntry .cw 254 0x22).setEntry
    .syn 253 0x33).setEntry .lambda 254 0x44).setEntry .errpos 127 0x55).setEntry .errmag 127 0x66)

theorem witness_HostReadFollowsAddressMap :
    readable.pending = [.access (.read 0x1FE)] ∧
    mapRead readable 0x009 = some 0x00 ∧ mapRead readable 0x0FF = some 0x00 ∧ mapRead readable 0x100 = some 0x11 ∧
    mapRead readable 0x1FE = some 0x22 ∧ mapRead readable 0x1FF = some 0x00 ∧ mapRead readable 0x2FD = some 0x33 ∧
    mapRead readable 0x2FE = some 0x00 ∧ mapRead readable 0x2FF = some 0x00 ∧ mapRead readable 0x3FE = some 0x44 ∧
    mapRead readable 0x3FF = some 0x00 ∧ mapRead readable 0x47F = some 0x55 ∧ mapRead readable 0x4FF = some 0x66 ∧
    mapRead readable 0x500 = some 0x00 ∧ mapRead readable 0x7FF = some 0x00 := by decide +kernel

theorem witness_HostReadFollowsAddressMap_unwritten :
    ({ State.reset with pending := [.access (.read 0x1FE)] }).pending = [.access (.read 0x1FE)] ∧
    mapRead State.reset 0x100 = none ∧ mapRead State.reset 0x1FE = none ∧ mapRead State.reset 0x200 = none ∧
    mapRead State.reset 0x300 = none ∧ mapRead State.reset 0x400 = none ∧ mapRead State.reset 0x480 = none ∧
    mapRead State.reset 0x4FF = none := by decide

/-- Every address where clauses meet falls under exactly one clause of HostWriteFollowsAddressMap. -/
theorem witness_HostWriteFollowsAddressMap_clauses :
    ∀ a ∈ [0x000, 0x001, 0x002, 0x003, 0x004, 0x005, 0x006, 0x007, 0x0FF, 0x100, 0x1FE, 0x1FF, 0x200, 0x7FF], ([a == 0x000, a == 0x002, a == 0x003, a == 0x004, a == 0x005, a == 0x006,
      decide (0x100 ≤ a ∧ a ≤ 0x1FE), decide (a = 0x001 ∨ (0x007 ≤ a ∧ a ≤ 0x0FF) ∨ 0x1FF ≤ a)].filter id).length = 1 := by
  decide +kernel

/-- A state whose host's next event is a write. -/
def writing (addr : Addr) (v : Byte) : State := { after .syndrome oneError with pending := [.access (.write addr v)] }

theorem witness_HostWriteFollowsAddressMap :
    (writing 0x1FE 0x77).pending = [.access (.write 0x1FE 0x77)] ∧
    step (writing 0x1FE 0x77) = .next (stepped (writing 0x1FE 0x77)) ∧
    byteAt (stepped (writing 0x1FE 0x77)) 0x1FE = some 0x77 ∧
    step (writing 0x1FF 0x77) = .next { writing 0x1FF 0x77 with pending := [], reply := .written } ∧
    step (writing 0x0FF 0x77) = .next { writing 0x0FF 0x77 with pending := [], reply := .written } ∧
    (stepped (writing 0x003 0x02)).synValid = false :=
  ⟨by decide +kernel, step_stepped (by decide +kernel), by decide +kernel, eq_next (by decide +kernel), eq_next (by decide +kernel),
    by decide +kernel⟩

/-- A host that writes, then does one more event. -/
def writingThen (addr : Addr) (v : Byte) (ev : HostEvent) : State :=
  { State.reset with pending := [.access (.write addr v), ev] }

theorem witness_WrittenValueStaysUntilOverwritten :
    (writingThen 0x1FE 0x77 .idle).pending = [.access (.write 0x1FE 0x77), .idle] ∧
    mapRead (stepped (writingThen 0x1FE 0x77 .idle)) 0x1FE = some 0x77 ∧
    LeavesAlone 0x1FE (.access (.write 0x100 0x01)) ∧
    mapRead (stepped (stepped (writingThen 0x1FE 0x77 (.access (.write 0x100 0x01))))) 0x1FE = some 0x77 ∧
    LeavesAlone 0x006 (.access (.read 0x006)) ∧
    mapRead (stepped (stepped (writingThen 0x006 0x77 (.access (.read 0x006))))) 0x006 = some 0x77 ∧
    LeavesAlone 0x000 (.writeAndRead 0x002 0x01) ∧
    mapRead (stepped (writingThen 0x000 0x0B .idle)) 0x000 = some 0x0B := by
  refine ⟨rfl, by decide, ⟨by decide, by decide⟩, by decide, trivial, by decide, ⟨by decide, by decide⟩, by decide⟩

theorem witness_StepRunsTheDecodedInstruction :
    Instr.syndrome.wellFormed = true ∧ (Instr.illegal 0xFF).wellFormed = true ∧
      (oneError.withCommand 0x06).pending = [.access (.write 0x000 (encodeByte .syndrome))] := by decide

theorem witness_IdleCoreHoldsItsState :
    locked.pending = [] ∧ ({ locked with pending := [.idle] }).pending = [.idle] := by decide +kernel

theorem witness_field_commands :
    (operands 0x53 0xCA 0x08).fatal = false ∧ (operands 0x53 0xCA 0x08).a ≠ 0x00 ∧
      (operands 0x00 0x00 0x00).a = 0x00 ∧ (operands 0x00 0x00 0x00).e = 0 ∧ (operands 0x00 0x00 0x01).e ≠ 0 ∧
      (operands 0x53 0x00 0xFF).e.toNat = 255 := by decide

theorem witness_FieldLawsHold : gfMul 0x53 0x00 = 0x00 ∧ gfMul 0x00 0x57 = 0x00 := by decide +kernel

theorem witness_PowerAndTableLawsHold :
    (0x01 : Byte) ≠ 0x00 ∧ gfLog 0x01 = some 0 ∧ (0x8E : Byte) ≠ 0x00 ∧ gfLog 0x8E = some 254 := by decide +kernel

theorem witness_AlphaHasOrder255 :
    expTable 0 = 0x01 ∧ expTable 254 = 0x8E ∧ gfPow alpha 1 = 0x02 ∧ gfPow alpha 254 = 0x8E ∧
      alphaPow (253 : Nat) = 0x47 ∧ locatorValue 255 0 = 0x8E ∧ locatorValue 255 254 = 0x01 := by decide +kernel

theorem witness_IllegalByteChangesOnlyResult :
    illegalByte 0x0A = true ∧ illegalByte 0x00 = true ∧ illegalByte 0xFF = true ∧ State.reset.fatal = false ∧
      (State.reset.withCommand 0x0A).pending = [.access (.write 0x000 0x0A)] := by decide

theorem witness_InvalidParametersChangeOnlyResult :
    ¬ValidParams (loaded 0x00 0x02 []) ∧ ¬ValidParams (loaded 0x04 0x00 []) ∧ ¬ValidParams (loaded 0xFA 0x06 []) ∧
      ValidParams (loaded 0xFE 0x01 []) ∧ ValidParams (loaded 0x01 0xFE []) ∧ ValidParams oneError ∧
      exec .encode oneError = .next (after .encode oneError) ∧
      exec .syndrome oneError = .next (after .syndrome oneError) ∧
      exec .decode oneError = .next (after .decode oneError) := by
  unfold ValidParams
  exact ⟨by decide +kernel, by decide +kernel, by decide +kernel, by decide +kernel, by decide +kernel,
    by decide +kernel, exec_after (by decide +kernel), exec_after (by decide +kernel), exec_after (by decide +kernel)⟩

theorem witness_OutOfOrderStagesReportSequenceError :
    State.reset.fatal = false ∧ State.reset.synValid = false ∧ (after .syndrome oneError).synValid = true ∧
      (after .syndrome oneError).locValid = false := by decide +kernel

theorem witness_FatalLocksUntilReset :
    locked.fatal = true ∧ (locked.withCommand 0x01).pending = [.access (.write 0x000 0x01)] ∧
      (stepped { locked with pending := [.reset] }).fatal = false ∧
      step { locked with pending := [.reset] } = .next (stepped { locked with pending := [.reset] }) ∧
      step (State.reset.withCommand 0x03) = .next (stepped (State.reset.withCommand 0x03)) ∧
      (stepped (State.reset.withCommand 0x03)).fatal = true :=
  ⟨by decide +kernel, by decide +kernel, by decide +kernel, step_stepped (by decide +kernel),
    step_stepped (by decide +kernel), by decide +kernel⟩

theorem witness_GeneratorHasExactlyItsRoots :
    polyEval (generator 2) 0x01 = 0x00 ∧ polyEval (generator 2) 0x02 = 0x00 ∧ polyEval (generator 2) 0x04 ≠ 0x00 ∧
      (0x02 : Byte) = alphaPow (1 : Nat) := by decide +kernel

theorem witness_EncodeWritesTheParity :
    oneError.fatal = false ∧ ValidParams oneError ∧ [0x01#8, 0x02#8, 0xFC#8, 0x04#8].length = oneError.k.toNat ∧
      Holds oneError 0x100 [0x01#8, 0x02#8, 0xFC#8, 0x04#8] := by
  unfold ValidParams Holds; decide +kernel

/-- The register of 41_encoder.md R153, cell by cell, gives the parity 04 00 of 95_test_vectors.md 1.1. -/
theorem test_parityRegister :
    parityRegister [0x01, 0x02, 0x03, 0x04] 2 0 = 0x04 ∧ parityRegister [0x01, 0x02, 0x03, 0x04] 2 1 = 0x00 := by
  decide +kernel

theorem witness_EncodedWordIsACodeword :
    exec .encode oneError = .next (after .encode oneError) ∧ (after .encode oneError).result = .ok :=
  ⟨exec_after (by decide +kernel), by decide +kernel⟩

theorem witness_SyndromeEvaluatesTheReceivedWord :
    oneError.fatal = false ∧ ValidParams oneError ∧
      [0x01#8, 0x02#8, 0xFC#8, 0x04#8, 0x04#8, 0x00#8].length = oneError.k.toNat + oneError.r.toNat ∧
      Holds oneError 0x100 [0x01, 0x02, 0xFC, 0x04, 0x04, 0x00] ∧
      syndromeSum [0x01, 0x02, 0xFC, 0x04, 0x04, 0x00] 2 0 = 0xAB ∧
      syndromeSum [0x01, 0x02, 0xFC, 0x04, 0x04, 0x00] 2 1 = 0xFF := by
  unfold ValidParams Holds; decide +kernel

/-- One error word at each end of a word of six, with r = 2. -/
theorem witness_SyndromesDependOnTheErrorsAlone :
    1 ≤ [0x01#8, 0x02#8, 0x03#8, 0x04#8].length ∧ 1 ≤ 2 ∧
      [0xFF#8, 0x00#8, 0x00#8, 0x00#8, 0x00#8, 0x00#8].length = [0x01#8, 0x02#8, 0x03#8, 0x04#8].length + 2 ∧
      [0x01#8, 0x02#8, 0x03#8, 0x04#8].length + 2 ≤ 255 ∧
      [0xFF#8, 0x00#8, 0x00#8, 0x00#8, 0x00#8, 0x00#8] = (List.replicate 6 0x00).set 0 0xFF ∧
      [0x00#8, 0x00#8, 0x00#8, 0x00#8, 0x00#8, 0xFF#8] = (List.replicate 6 0x00).set 5 0xFF ∧
      (0xFF : Byte) ≠ 0x00 ∧ syndromes [0x00, 0x00, 0x00, 0x00, 0x00, 0xFF] 2 = [0xFF, 0xFF] := by decide +kernel

/-- The three arms: no discrepancy, a growing length and an adjustment (the traces of 95_test_vectors.md 2.4). -/
theorem witness_LocatorFollowsMasseysRecurrence :
    berlekampMassey [0x00, 0x00] 1 = { berlekampMassey [0x00, 0x00] 0 with shift := 2 } ∧
    berlekampMassey [0xFF, 0xAB] 1 =
      { current := [0x01, 0xFF, 0x00], baseline := [0x01, 0x00, 0x00], len := 1, shift := 1, factor := 0xFF } ∧
    berlekampMassey [0xFF, 0xAB] 2 =
      { current := [0x01, 0x08, 0x00], baseline := [0x01, 0x00, 0x00], len := 1, shift := 2, factor := 0xFF } := by
  decide +kernel

theorem witness_LocateWritesTheLocator :
    (after .syndrome oneError).fatal = false ∧ (after .syndrome oneError).synValid = true ∧
      (after .syndrome oneError).r.toNat ≤ 254 ∧ [0xAB#8, 0xFF#8].length = (after .syndrome oneError).r.toNat ∧
      Holds (after .syndrome oneError) 0x200 [0xAB, 0xFF] ∧ (locate [0xAB, 0xFF]).2 ≤ 1 ∧
      ¬(locate [0x21, 0x00]).2 ≤ 1 := by
  unfold Holds; decide +kernel

theorem witness_LocatorShapeHoldsAtEveryIteration :
    2 ≤ [0xAB#8, 0xFF#8].length ∧ (berlekampMassey [0xAB#8, 0xFF#8].reverse 2).current.getD 1 0x00 ≠ 0x00 := by
  decide +kernel

theorem witness_LocatorGeneratesTheSyndromes :
    (locate [0x0B, 0x29, 0xEA, 0x11]).2 ≤ 2 ∧ (locate [0x0B, 0x29, 0xEA, 0x11]).2 ≤ 3 ∧
      3 < [0x0B#8, 0x29#8, 0xEA#8, 0x11#8].length := by decide +kernel

theorem witness_RootSearchScansEveryPosition :
    rootPositions [0x01, 0x82, 0x1D, 0x00, 0x00] 8 = [0, 6] ∧ rootPositions [0x01, 0x01] 255 = [254] := by
  decide +kernel

/-- The state of 95_test_vectors.md D3 before CORRECT. -/
theorem witness_CorrectAddsForneysMagnitudes :
    (after .locate (after .syndrome twoErrors)).fatal = false ∧
    (after .locate (after .syndrome twoErrors)).locValid = true ∧
    ValidParams (after .locate (after .syndrome twoErrors)) ∧
    Holds (after .locate (after .syndrome twoErrors)) 0x200 [0x0B, 0x29, 0xEA, 0x11] ∧
    Holds (after .locate (after .syndrome twoErrors)) 0x300 [0x01, 0x82, 0x1D, 0x00, 0x00] ∧
    [0, 6] = rootPositions [0x01, 0x82, 0x1D, 0x00, 0x00] 8 ∧
    [0, 6].length = (after .locate (after .syndrome twoErrors)).ldeg.toNat ∧
    (∀ p ∈ [0, 6], (byteAt (after .locate (after .syndrome twoErrors)) (0x100 + p)).isSome = true) ∧
    magnitudeSum [0x0B, 0x29, 0xEA, 0x11] [0x01, 0x82, 0x1D, 0x00, 0x00] 8 0 = 0x10 := by
  unfold ValidParams Holds; decide +kernel

theorem witness_RootCountMismatchLeavesTheWord :
    (after .locate (after .syndrome fewRoots)).fatal = false ∧
    (after .locate (after .syndrome fewRoots)).locValid = true ∧
    Holds (after .locate (after .syndrome fewRoots)) 0x300 [0x01, 0x00, 0x00] ∧
    (rootPositions [0x01, 0x00, 0x00] 6).length ≠ (after .locate (after .syndrome fewRoots)).ldeg.toNat := by
  unfold Holds; decide +kernel

theorem witness_ForneyNeverDividesByZero :
    (rootPositions (locate [0xAB, 0xFF]).1 6).length = (locate [0xAB, 0xFF]).2 ∧
      2 ∈ rootPositions (locate [0xAB, 0xFF]).1 6 := by decide +kernel

theorem invariants_of_oneError_located : (after .locate (after .syndrome oneError)).Inv := by
  refine ⟨by decide +kernel, by decide +kernel, by decide +kernel, by decide +kernel,
    fun _ => ⟨by decide +kernel, [0x01, 0x02, 0xFC, 0x04, 0x04, 0x00], ?_, ?_, ?_⟩,
    fun _ => ⟨[0xAB, 0xFF], ?_, ?_, ?_, ?_⟩⟩ <;> decide +kernel

/-- A state where the roots are LDEG (95_test_vectors.md 1.1). -/
theorem witness_CorrectNeverDividesByZero :
    (after .locate (after .syndrome oneError)).Inv ∧ (after .locate (after .syndrome oneError)).fatal = false ∧
    (after .locate (after .syndrome oneError)).locValid = true ∧
    Holds (after .locate (after .syndrome oneError)) 0x300 [0x01, 0x08, 0x00] ∧
    [2] = rootPositions [0x01, 0x08, 0x00] 6 ∧
    [2].length = (after .locate (after .syndrome oneError)).ldeg.toNat := by
  refine ⟨invariants_of_oneError_located, ?_⟩
  unfold Holds
  decide +kernel

/-- A state where they are fewer (95_test_vectors.md D6). -/
theorem witness_CorrectNeverDividesByZero_few_roots :
    (after .locate (after .syndrome fewRoots)).Inv ∧ (after .locate (after .syndrome fewRoots)).fatal = false ∧
    (after .locate (after .syndrome fewRoots)).locValid = true ∧
    Holds (after .locate (after .syndrome fewRoots)) 0x300 [0x01, 0x00, 0x00] ∧
    (rootPositions [0x01, 0x00, 0x00] 6).length < (after .locate (after .syndrome fewRoots)).ldeg.toNat := by
  refine ⟨⟨by decide +kernel, by decide +kernel, by decide +kernel, by decide +kernel,
    fun _ => ⟨by decide +kernel, [0xF4, 0xF5, 0x03, 0x04, 0x04, 0x00], ?_, ?_, ?_⟩,
    fun _ => ⟨[0x00, 0x02], ?_, ?_, ?_, ?_⟩⟩, ?_⟩
  on_goal 8 => unfold Holds
  all_goals decide +kernel

theorem witness_DecodeEndsInOneOfItsOutcomes :
    twoErrors.fatal = false ∧ ValidParams twoErrors ∧
      twoErrors.wordWritten (twoErrors.k.toNat + twoErrors.r.toNat) ∧ (after .decode twoErrors).result = .ok ∧
      (after .decode fewRoots).result = .uncorrectable ∧ (after .decode fewRoots).synValid = false ∧
      (after .decode (loaded 1 1 [0x40, 0x41])).result = .uncorrectable ∧
      (after .decode (loaded 1 1 [0x40, 0x41])).synValid = true := by
  unfold ValidParams State.wordWritten; decide +kernel

/-- An error at the first position and one at the last. -/
theorem witness_DecodeCorrectsASingleError :
    let s := loaded 4 2 [0xFE, 0x02, 0x03, 0x04, 0x04, 0x00]
    let t := loaded 4 2 [0x01, 0x02, 0x03, 0x04, 0x04, 0x99]
    s.fatal = false ∧ ValidParams s ∧ 2 ≤ s.r.toNat ∧ [0x01#8, 0x02#8, 0x03#8, 0x04#8].length = s.k.toNat ∧
      (0xFF : Byte) ≠ 0x00 ∧
      Holds s 0x100 (([0x01, 0x02, 0x03, 0x04] ++ parity [0x01, 0x02, 0x03, 0x04] 2).modify 0 (gfAdd · 0xFF)) ∧
      Holds t 0x100 (([0x01, 0x02, 0x03, 0x04] ++ parity [0x01, 0x02, 0x03, 0x04] 2).modify 5 (gfAdd · 0x99)) := by
  unfold ValidParams Holds; decide +kernel

/-- No error, and the two errors of 95_test_vectors.md D3, which are as many as r = 4 allows. -/
theorem witness_DecodeCorrectsUpToCapability :
    let s := loaded 4 4 [0x01, 0x02, 0x03, 0x04]
    exec .encode s = .next (after .encode s) ∧ (after .encode s).result = .ok ∧ twoErrors.fatal = false ∧
      twoErrors.k = (after .encode s).k ∧ twoErrors.r = (after .encode s).r ∧ twoErrors.wordWritten 8 ∧
      [0, 6] = differingPositions (after .encode s) twoErrors 8 ∧ [0, 6].length ≤ (after .encode s).r.toNat / 2 ∧
      (after .encode s).wordWritten 8 ∧ [] = differingPositions (after .encode s) (after .encode s) 8 := by
  unfold State.wordWritten
  exact ⟨exec_after (by decide +kernel), by decide +kernel⟩

theorem witness_ResultIsWrittenByCommandsAlone :
    step (State.reset.withCommand 0x0A) = .next (stepped (State.reset.withCommand 0x0A)) ∧
      (stepped (State.reset.withCommand 0x0A)).result ≠ State.reset.result ∧
      (stepped { locked with pending := [.reset] }).result ≠ locked.result :=
  ⟨step_stepped (by decide +kernel), by decide +kernel, by decide +kernel⟩

theorem witness_EachCommandRaisesItsOwnCodes :
    exec .gfAdd locked = .next (after .gfAdd locked) ∧ locked.fatal = true ∧
      exec .decode fewRoots = .next (after .decode fewRoots) ∧ fewRoots.fatal = false :=
  ⟨exec_after (by decide +kernel), by decide +kernel, exec_after (by decide +kernel), by decide +kernel⟩

/-- One state for each clause, at a byte on its edge. -/
theorem witness_ChecksComeInTheirOrder :
    locked.fatal = true ∧ State.reset.fatal = false ∧ illegalByte 0x0A = true ∧ State.reset.synValid = false ∧
      State.reset.locValid = false ∧ ¬ValidParams State.reset ∧ State.reset.a = 0x00 ∧ illegalByte 0x09 = false ∧
      ValidParams fewRoots ∧ writeCmd fewRoots 0x09 = .next (after .decode { fewRoots with cmd := 0x09 }) := by
  unfold ValidParams
  refine ⟨?_, ?_, ?_, ?_, ?_, ?_, ?_, ?_, ?_, eq_next (by decide +kernel)⟩ <;> decide +kernel

/-- Steps that set and clear each flag. -/
theorem witness_ValidityFlagsChangeOnlyByTheirRules :
    let clean := loaded 1 1 [0x40, 0x40]
    oneError.synValid = false ∧ (stepped (oneError.withCommand 0x06)).synValid = true ∧
      step (oneError.withCommand 0x06) = .next (stepped (oneError.withCommand 0x06)) ∧
      (stepped ((loaded 1 1 [0x40, 0x41]).withCommand 0x09)).synValid = true ∧
      (stepped ((after .syndrome oneError).withCommand 0x05)).synValid = false ∧
      (stepped ((after .syndrome oneError).withCommand 0x07)).locValid = true ∧
      (stepped ((after .locate (after .syndrome oneError)).withCommand 0x06)).locValid = false ∧
      (stepped ((after .locate (after .syndrome oneError)).withCommand 0x08)).locValid = false ∧
      clean.synZero = false ∧ (stepped (clean.withCommand 0x06)).synZero = true ∧
      (stepped ((after .syndrome clean).withCommand 0x09)).synZero = false :=
  ⟨by decide +kernel, by decide +kernel, step_stepped (by decide +kernel), by decide +kernel⟩

theorem witness_CommandsWriteOnlyTheirResults :
    exec .decode oneError = .next (after .decode oneError) ∧ (after .decode oneError).ldeg ≠ oneError.ldeg ∧
      (after .decode oneError).nerr ≠ oneError.nerr ∧ byteAt (after .decode oneError) 0x102 ≠ byteAt oneError 0x102 ∧
      byteAt (after .decode oneError) 0x302 ≠ byteAt oneError 0x302 :=
  ⟨exec_after (by decide +kernel), by decide +kernel, by decide +kernel, by decide +kernel, by decide +kernel⟩

theorem witness_RstLoadsTheResetState :
    ({ locked with pending := [.reset, .idle] }).pending = [.reset, .idle] ∧
      ({ twoErrors with pending := [.resetDuringCommand 0x09] }).pending = [.resetDuringCommand 0x09] := by
  decide +kernel

/-- The first unwritten entry is the last data position, then the last parity position, for k = 4 and r = 2. -/
theorem witness_UnwrittenOperandFaults :
    let s := loaded 4 2 [0x01, 0x02, 0x03]
    let t := loaded 4 2 [0x01, 0x02, 0x03, 0x04, 0x04]
    s.fatal = false ∧ ValidParams s ∧ byteAt s (0x100 + 3) = none ∧
      (∀ q, q < 3 → (byteAt s (0x100 + q)).isSome = true) ∧ 3 < s.k.toNat ∧ t.fatal = false ∧ ValidParams t ∧
      byteAt t (0x100 + 5) = none ∧ (∀ q, q < 5 → (byteAt t (0x100 + q)).isSome = true) ∧
      ¬5 < t.k.toNat ∧ 5 < t.k.toNat + t.r.toNat := by
  unfold ValidParams; decide +kernel

/-- The reset state meets the invariants, and there the host's read of CW[0], and its DECODE once K and R are valid, fault. -/
theorem witness_OnlyTheHostMeetsUnwrittenEntries :
    step { State.reset with pending := [.access (.read 0x100)] } = .fault (.unwrittenEntry .cw 0) ∧
      step ((loaded 4 2 []).withCommand 0x09) = .fault (.unwrittenEntry .cw 0) :=
  ⟨eq_fault (by decide +kernel), eq_fault (by decide +kernel)⟩

/-- A state with SYN_VALID set that meets the invariants. -/
theorem witness_EveryStepKeepsTheInvariants : (after .syndrome oneError).Inv := by
  refine ⟨by decide +kernel, by decide +kernel, by decide +kernel, by decide +kernel, fun _ => ⟨by decide +kernel,
    [0x01, 0x02, 0xFC, 0x04, 0x04, 0x00], ?_, ?_, ?_⟩, fun h => absurd h (by decide +kernel)⟩ <;> decide +kernel

end Sys2Proof.Tests
end

-- ==== Proofs: what a command can do ====
section
/-! What an instruction can do to the state, said once: its body behind the lock check, and the outcomes of each body. -/

namespace Sys2Proof.Machine

/-! ### The body behind the lock check -/

/-- What an instruction does once the core is known not to be locked (60_exceptions.md R272). -/
def commandBody : Instr → State → Except Fault State
  | .gfAdd, s => .ok (s.setRes (gfAdd s.a s.b)).finishOk
  | .gfMul, s => .ok (s.setRes (gfMul s.a s.b)).finishOk
  | .gfInv, s => if s.a = 0x00 then .ok s.lockDivByZero else .ok (s.setRes (gfInv s.a)).finishOk
  | .gfPow, s => .ok (s.setRes (gfPow s.a s.exponent)).finishOk
  | .encode, s => encodeBody s
  | .syndrome, s => syndromeBody s
  | .locate, s => locateBody s
  | .correct, s => correctBody s
  | .decode, s => decodeBody s
  | .illegal _, s => .ok (s.raise .illegalCommand)

theorem exec_eq_runCommand_commandBody (i : Instr) (s : State) : exec i s = runCommand s (commandBody i) := by
  cases i <;> rfl

/-- Everything an instruction that ends in a next state can have done. -/
theorem exec_next_cases {i : Instr} {s t : State} (h : exec i s = .next t) :
    (s.fatal = true ∧ t = s.raise .locked) ∨ (s.fatal = false ∧ commandBody i s = .ok t) :=
  runCommand_next_cases (exec_eq_runCommand_commandBody i s ▸ h)

/-! ### What each body can do -/

theorem encodeBody_cases {s t : State} (h : encodeBody s = .ok t) :
    (s.paramsOk = false ∧ t = s.raise .invalidParameters) ∨
      ∃ d, s.paramsOk = true ∧ readEntries s .cw 0 s.dataCount = .ok d ∧
        s.dataCount + (parity d s.parityCount).length ≤ 255 ∧
        t = (s.setEntries .cw s.dataCount (parity d s.parityCount)).clearValidity.finishOk := by
  unfold encodeBody at h
  split at h
  · next hp =>
    split at h
    · cases h
    · next d hd =>
      split at h
      · cases h
      · next u hu =>
        obtain ⟨hsize, rfl⟩ := (writeEntries_ok_iff ..).1 hu
        cases h
        exact .inr ⟨d, hp, hd, hsize, rfl⟩
  · next hp => cases h; exact .inl ⟨by simpa using hp, rfl⟩

theorem syndromeBody_cases {s t : State} (h : syndromeBody s = .ok t) :
    (s.paramsOk = false ∧ t = s.raise .invalidParameters) ∨
      ∃ cw, s.paramsOk = true ∧ readEntries s .cw 0 s.codeLength = .ok cw ∧
        t = ((s.setEntries .syn 0 (syndromes cw s.parityCount)).setSyndromeFlags
          (syndromes cw s.parityCount)).finishOk := by
  unfold syndromeBody at h
  split at h
  · next hp =>
    split at h
    · cases h
    · next cw hcw =>
      split at h
      · cases h
      · next u hu =>
        obtain ⟨-, rfl⟩ := (writeEntries_ok_iff ..).1 hu
        cases h
        exact .inr ⟨cw, hp, hcw, rfl⟩
  · next hp => cases h; exact .inl ⟨by simpa using hp, rfl⟩

/-- The state in which LOCATE leaves LAMBDA and LDEG (43_locator.md R197), before LOC_VALID and RESULT. -/
def State.storeLocator (s : State) (syn : List Byte) : State :=
  (s.setEntries .lambda 0 (locate syn).1).setLdeg (locate syn).2

theorem locateBody_cases {s t : State} (h : locateBody s = .ok t) :
    (s.synValid = false ∧ t = s.raise .sequenceError) ∨
      ∃ syn, s.synValid = true ∧ readEntries s .syn 0 s.parityCount = .ok syn ∧
        (locate syn).1.length ≤ 255 ∧
        ((locate syn).2 ≤ s.parityCount / 2 ∧ t = ((s.storeLocator syn).setLocValid true).finishOk ∨
          ¬(locate syn).2 ≤ s.parityCount / 2 ∧
            t = ((s.storeLocator syn).setLocValid false).raise .uncorrectable) := by
  unfold locateBody at h
  split at h
  · next hv =>
    split at h
    · cases h
    · next syn hsyn =>
      split at h
      · cases h
      · next u hu =>
        obtain ⟨hsize, rfl⟩ := (writeEntries_ok_iff ..).1 hu
        refine .inr ⟨syn, hv, hsyn, by simpa using hsize, ?_⟩
        split at h
        · next hl => cases h; exact .inl ⟨hl, rfl⟩
        · next hl => cases h; exact .inr ⟨hl, rfl⟩
  · next hv => cases h; exact .inl ⟨by simpa using hv, rfl⟩

theorem recordErrors_cases {s t : State} {roots : List Nat} {mags : List Byte}
    (h : recordErrors s roots mags = .ok t) :
    roots.length ≤ 128 ∧ mags.length ≤ 128 ∧
      t = ((s.setEntries .errpos 0 (roots.map (BitVec.ofNat 8))).setEntries .errmag 0 mags).setNerr roots.length := by
  unfold recordErrors at h
  split at h
  · cases h
  · next u hu =>
    obtain ⟨hroots, rfl⟩ := (writeEntries_ok_iff ..).1 hu
    split at h
    · cases h
    · next w hw =>
      obtain ⟨hmags, rfl⟩ := (writeEntries_ok_iff ..).1 hw
      cases h
      exact ⟨by simpa using hroots, by simpa using hmags, rfl⟩

theorem correctBody_cases {s t : State} (h : correctBody s = .ok t) :
    (s.locValid = false ∧ t = s.raise .sequenceError) ∨
      ∃ lam, s.locValid = true ∧ readEntries s .lambda 0 (s.parityCount + 1) = .ok lam ∧
        ((rootPositions lam s.codeLength).length ≠ s.locatorLength ∧
            t = (s.setNerr 0).clearValidity.raise .uncorrectable ∨
          (rootPositions lam s.codeLength).length = s.locatorLength ∧
            ∃ syn u w, readEntries s .syn 0 s.parityCount = .ok syn ∧
              applyCorrections s ((rootPositions lam s.codeLength).zip
                (magnitudes syn lam s.codeLength (rootPositions lam s.codeLength))) = .ok u ∧
              recordErrors u (rootPositions lam s.codeLength)
                (magnitudes syn lam s.codeLength (rootPositions lam s.codeLength)) = .ok w ∧
              t = w.clearValidity.finishOk) := by
  unfold correctBody at h
  split at h
  · next hv =>
    split at h
    · cases h
    · next lam hlam =>
      refine .inr ⟨lam, hv, hlam, ?_⟩
      split at h
      · next hne => cases h; exact .inl ⟨hne, rfl⟩
      · next heq =>
        split at h
        · cases h
        · next syn hsyn =>
          dsimp only at h
          split at h
          · cases h
          · next u hu =>
            split at h
            · cases h
            · next w hw => cases h; exact .inr ⟨not_not.1 heq, syn, u, w, hsyn, hu, hw, rfl⟩
  · next hv => cases h; exact .inl ⟨by simpa using hv, rfl⟩

/-- A property the first stage establishes and the next one keeps holds after both. -/
theorem thenStage_preserves {P : State → Prop} {stage : Except Fault State} {next : State → Except Fault State}
    {t : State} (h : thenStage stage next = .ok t) (hstage : ∀ u, stage = .ok u → P u)
    (hnext : ∀ u w, P u → next u = .ok w → P w) : P t := by
  cases stage with
  | error f => cases h
  | ok u =>
    by_cases hu : u.result = .ok
    · rw [thenStage_ok hu] at h
      exact hnext u t (hstage u rfl) h
    · rw [thenStage_stop hu] at h
      cases h
      exact hstage _ rfl

/-- A property that the three stages keep is kept by DECODE. -/
theorem decodeBody_preserves {P : State → Prop} (hsyn : ∀ u w, P u → syndromeBody u = .ok w → P w)
    (hloc : ∀ u w, P u → locateBody u = .ok w → P w) (hcor : ∀ u w, P u → correctBody u = .ok w → P w)
    {s t : State} (hs : P s) (h : decodeBody s = .ok t) : P t :=
  thenStage_preserves h (fun _ hu => thenStage_preserves hu (fun w hw => hsyn s w hs hw) hloc) hcor

end Sys2Proof.Machine
end

-- ==== Proofs: the effects of a step ====
section
/-! What a bus write does at each address, and everything one step can have done, by the kind of its event. -/

namespace Sys2Proof.Machine

open Sys2Proof.Claims

/-! ### Bus writes by address (20_memory.md R77, R80) -/

/-- The places a host write changes (20_memory.md R77). -/
def Place.writable : Place → Bool
  | .cmd | .k | .r | .a | .b | .e | .entry .cw _ => true
  | _ => false

theorem placeOf_not_writable {addr : Addr}
    (h : addr.toNat = 0x001 ∨ (0x007 ≤ addr.toNat ∧ addr.toNat ≤ 0x0FF) ∨ 0x1FF ≤ addr.toNat) :
    (placeOf addr).writable = false := by
  unfold placeOf
  generalize addr.toNat = a at *
  dsimp only
  simp only [apply_ite Place.writable]
  simp only [Place.writable, ite_self, Bool.if_false_right, Bool.and_true, Bool.if_false_left, Bool.if_true_left,
    Bool.or_eq_false_iff, decide_eq_false_iff_not, Bool.and_eq_false_imp, Bool.not_eq_eq_eq_not, Bool.not_true, not_lt,
    not_le]
  omega

theorem placeOf_cw {addr : Addr} (hlo : 0x100 ≤ addr.toNat) (hhi : addr.toNat ≤ 0x1FE) :
    placeOf addr = .entry .cw (addr.toNat - 0x100) := by
  unfold placeOf
  dsimp only
  iterate 11 rw [if_neg (by omega)]
  exact if_pos hhi

section
variable (s : State) {addr : Addr} (v : Byte)

theorem busWrite_cmd (h : addr.toNat = 0x000) : busWrite s addr v = exec (decodeByte v) { s with cmd := v } := by
  simp [busWrite, placeOf, h, writeCmd]

theorem busWrite_k (h : addr.toNat = 0x002) : busWrite s addr v = .next { s with k := v }.clearValidity := by
  simp [busWrite, placeOf, h]

theorem busWrite_r (h : addr.toNat = 0x003) : busWrite s addr v = .next { s with r := v }.clearValidity := by
  simp [busWrite, placeOf, h]

theorem busWrite_a (h : addr.toNat = 0x004) : busWrite s addr v = .next { s with a := v } := by
  simp [busWrite, placeOf, h]

theorem busWrite_b (h : addr.toNat = 0x005) : busWrite s addr v = .next { s with b := v } := by
  simp [busWrite, placeOf, h]

theorem busWrite_e (h : addr.toNat = 0x006) : busWrite s addr v = .next { s with e := v } := by
  simp [busWrite, placeOf, h]

theorem busWrite_cw (hlo : 0x100 ≤ addr.toNat) (hhi : addr.toNat ≤ 0x1FE) :
    busWrite s addr v = .next (s.setEntry .cw (addr.toNat - 0x100) v).clearValidity := by
  simp [busWrite, placeOf_cw hlo hhi]

theorem busWrite_of_not_writable (h : (placeOf addr).writable = false) : busWrite s addr v = .next s := by
  unfold busWrite
  split <;> simp_all [Place.writable]

/-- Read-only and reserved addresses ignore writes. -/
theorem busWrite_ignored
    (h : addr.toNat = 0x001 ∨ (0x007 ≤ addr.toNat ∧ addr.toNat ≤ 0x0FF) ∨ 0x1FF ≤ addr.toNat) :
    busWrite s addr v = .next s :=
  busWrite_of_not_writable s v (placeOf_not_writable h)
end

/-! ### The effect of a step -/

/-- The state with other bus activity: what an event does to the model's own fields before it touches the core. -/
def State.onBus (s : State) (pending : List HostEvent) (reply : BusReply) (draws : Nat) : State :=
  { s with pending := pending, reply := reply, draws := draws }

/-- The states one step from `s` can lead to, by the kind of event. -/
inductive StepEffect (s : State) : State → Prop where
  /-- Idle time, a read, or a write that is ignored. -/
  | hold (p : List HostEvent) (y : BusReply) (n : Nat) : commandWritten s = none → StepEffect s (s.onBus p y n)
  /-- A write to CMD: the byte is stored and the command runs. -/
  | command (p : List HostEvent) (y : BusReply) (n : Nat) {v : Byte} {t : State} : commandWritten s = some v →
      exec (decodeByte v) { s.onBus p y n with cmd := v } = .next t → StepEffect s t
  /-- A write to K or R. -/
  | storeParams (p : List HostEvent) (y : BusReply) (n : Nat) (k r : Byte) : commandWritten s = none →
      StepEffect s { s.onBus p y n with k := k, r := r }.clearValidity
  /-- A write to A, B or E. -/
  | storeOperands (p : List HostEvent) (y : BusReply) (n : Nat) (a b e : Byte) : commandWritten s = none →
      StepEffect s { s.onBus p y n with a := a, b := b, e := e }
  /-- A write to CW. -/
  | storeCw (p : List HostEvent) (y : BusReply) (n : Nat) (i : Nat) (v : Byte) : commandWritten s = none → i < 255 →
      StepEffect s ((s.onBus p y n).setEntry .cw i v).clearValidity
  /-- A reset, between accesses or during a command. -/
  | reset (p : List HostEvent) (n : Nat) : commandWritten s = none → resetNext s →
      StepEffect s (State.reset.onBus p .inReset n)

theorem busWrite_effect {s t : State} {p : List HostEvent} {y : BusReply} {n : Nat} {addr : Addr} {v : Byte}
    (hcmd : commandWritten s = if addr = 0x000 then some v else none)
    (h : busWrite (s.onBus p y n) addr v = .next t) : StepEffect s t := by
  by_cases h0 : addr.toNat = 0x000
  · rw [if_pos (BitVec.eq_of_toNat_eq h0)] at hcmd
    rw [busWrite_cmd _ _ h0] at h
    exact .command p y n hcmd h
  rw [if_neg fun ha => h0 (by rw [ha]; rfl)] at hcmd
  by_cases h2 : addr.toNat = 0x002
  · rw [busWrite_k _ _ h2] at h; cases h
    exact .storeParams p y n v s.r hcmd
  by_cases h3 : addr.toNat = 0x003
  · rw [busWrite_r _ _ h3] at h; cases h
    exact .storeParams p y n s.k v hcmd
  by_cases h4 : addr.toNat = 0x004
  · rw [busWrite_a _ _ h4] at h; cases h
    exact .storeOperands p y n v s.b s.e hcmd
  by_cases h5 : addr.toNat = 0x005
  · rw [busWrite_b _ _ h5] at h; cases h
    exact .storeOperands p y n s.a v s.e hcmd
  by_cases h6 : addr.toNat = 0x006
  · rw [busWrite_e _ _ h6] at h; cases h
    exact .storeOperands p y n s.a s.b v hcmd
  by_cases hcw : 0x100 ≤ addr.toNat ∧ addr.toNat ≤ 0x1FE
  · rw [busWrite_cw _ _ hcw.1 hcw.2] at h; cases h
    exact .storeCw p y n _ v hcmd (by omega)
  · rw [busWrite_ignored _ _ (by omega)] at h; cases h
    exact .hold p y n hcmd

/-- Everything a step that ends in a next state can have done. -/
theorem step_effect {s t : State} (h : step s = .next t) : StepEffect s t := by
  cases hp : s.pending with
  | nil =>
    rw [step_idle s hp] at h; cases h
    exact .hold _ .idle s.draws (by simp [commandWritten, hp])
  | cons ev rest =>
    rw [step_event s ev rest hp] at h
    cases ev with
    | access acc =>
      cases acc with
      | read addr =>
        rw [perform] at h
        split at h
        · next v hv => cases h; exact .hold rest (.data v) s.draws (by simp [commandWritten, hp])
        · cases h
      | write addr v => exact busWrite_effect (p := rest) (n := s.draws) (by simp [commandWritten, hp]) h
    | writeAndRead addr v => exact busWrite_effect (p := rest) (by simp [commandWritten, hp]) h
    | idle => cases h; exact .hold rest .idle s.draws (by simp [commandWritten, hp])
    | reset => cases h; exact .reset rest s.draws (by simp [commandWritten, hp]) ⟨rest, .inl hp⟩
    | resetDuringCommand v =>
      cases h; exact .reset rest s.draws (by simp [commandWritten, hp]) ⟨rest, .inr ⟨v, hp⟩⟩

end Sys2Proof.Machine
end

-- ==== Proofs: the invariants of the sequencing state (10_state.md R48) ====
section
/-! The invariants depend on a few fields alone, every command body keeps them, and so does every host event. -/

namespace Sys2Proof.Machine

/-! ### The canonical form of the memory -/

/-- The two invariants that speak of the memory alone. -/
structure Memory.Canonical (m : List Host.Cell) : Prop where
  wf : Memory.wf m = true
  entries : ∀ c ∈ m, isEntryAddress c.1 = true

theorem State.Inv.canonical {s : State} (h : s.Inv) : Memory.Canonical s.mem := ⟨h.memWf, h.memEntries⟩

theorem canonical_setEntries {s : State} (h : Memory.Canonical s.mem) {buf : Buffer} {start : Nat} {vs : List Byte}
    (hsize : start + vs.length ≤ buf.size) : Memory.Canonical (s.setEntries buf start vs).mem :=
  ⟨setEntries_wf _ _ _ _ h.wf, setEntries_entryAddresses _ _ _ _ hsize h.entries⟩

theorem canonical_setEntry {s : State} (h : Memory.Canonical s.mem) {buf : Buffer} {i : Nat} (v : Byte)
    (hi : i < buf.size) : Memory.Canonical (s.setEntry buf i v).mem :=
  canonical_setEntries (vs := [v]) h hi

theorem canonical_applyCorrections {s t : State} {ps : List (Nat × Byte)} (hs : Memory.Canonical s.mem)
    (h : applyCorrections s ps = .ok t) : Memory.Canonical t.mem := by
  induction ps generalizing s with
  | nil => cases h; exact hs
  | cons c ps ih =>
    obtain ⟨p, y⟩ := c
    rw [applyCorrections] at h
    split at h
    · cases h
    · next v hv => exact ih (canonical_setEntry hs _ ((readEntry_ok_iff ..).1 hv).1) h

theorem canonical_recordErrors {s t : State} {roots : List Nat} {mags : List Byte} (hs : Memory.Canonical s.mem)
    (h : recordErrors s roots mags = .ok t) : Memory.Canonical t.mem := by
  obtain ⟨hroots, hmags, rfl⟩ := recordErrors_cases h
  have herrpos := canonical_setEntries (buf := .errpos) (start := 0) (vs := roots.map (BitVec.ofNat 8)) hs
    (by simpa using hroots)
  exact canonical_setEntries (buf := .errmag) (start := 0) herrpos (by simpa using hmags)

/-! ### What the invariants depend on -/

/-- The two states agree on every field the invariants of R48 read. -/
structure SameSequencing (s t : State) : Prop where
  mem : t.mem = s.mem
  k : t.k = s.k
  r : t.r = s.r
  ldeg : t.ldeg = s.ldeg
  synValid : t.synValid = s.synValid
  locValid : t.locValid = s.locValid
  synZero : t.synZero = s.synZero

/-- Currency of the syndromes depends on what CW and SYN read, not on the rest of the memory. -/
theorem State.SyndromesCurrent.congr_reads {s t : State} (h : s.SyndromesCurrent)
    (hcw : readEntries t .cw 0 s.codeLength = readEntries s .cw 0 s.codeLength)
    (hsyn : readEntries t .syn 0 s.parityCount = readEntries s .syn 0 s.parityCount) (hk : t.k = s.k) (hr : t.r = s.r)
    (hz : t.synZero = s.synZero) : t.SyndromesCurrent := by
  obtain ⟨hp, cw, hc, hs, hall⟩ := h
  simp only [State.SyndromesCurrent, State.paramsOk, State.codeLength, State.dataCount, State.parityCount, hk, hr, hz]
  exact ⟨hp, cw, hcw.trans hc, hsyn.trans hs, hall⟩

theorem State.SyndromesCurrent.congr {s t : State} (h : s.SyndromesCurrent) (hmem : t.mem = s.mem) (hk : t.k = s.k)
    (hr : t.r = s.r) (hz : t.synZero = s.synZero) : t.SyndromesCurrent :=
  h.congr_reads (readEntries_congr hmem ..) (readEntries_congr hmem ..) hk hr hz

theorem State.LocatorCurrent.congr {s t : State} (h : s.LocatorCurrent) (hmem : t.mem = s.mem) (hr : t.r = s.r)
    (hl : t.ldeg = s.ldeg) : t.LocatorCurrent := by
  simp only [State.LocatorCurrent, State.parityCount, State.locatorLength, hr, hl, readEntries_congr hmem] at h ⊢
  exact h

theorem State.Inv.congr {s t : State} (h : s.Inv) (e : SameSequencing s t) : t.Inv where
  memWf := e.mem ▸ h.memWf
  memEntries := e.mem ▸ h.memEntries
  locSyn := e.locValid ▸ e.synValid ▸ h.locSyn
  zeroSyn := e.synZero ▸ e.synValid ▸ h.zeroSyn
  synCurrent hv := (h.synCurrent (e.synValid ▸ hv)).congr e.mem e.k e.r e.synZero
  locCurrent hv := (h.locCurrent (e.locValid ▸ hv)).congr e.mem e.r e.ldeg

/-- With all validity flags clear, only the memory's form is left to hold. -/
theorem Memory.Canonical.inv {t : State} (h : Memory.Canonical t.mem) (hs : t.synValid = false)
    (hl : t.locValid = false) (hz : t.synZero = false) : t.Inv where
  memWf := h.wf
  memEntries := h.entries
  locSyn hv := by simp [hl] at hv
  zeroSyn hv := by simp [hz] at hv
  synCurrent hv := by simp [hs] at hv
  locCurrent hv := by simp [hl] at hv

/-- An error report touches no field the invariants read. -/
theorem State.Inv.raise {s : State} (h : s.Inv) (c : ResultCode) : (s.raise c).Inv :=
  h.congr ⟨rfl, rfl, rfl, rfl, rfl, rfl, rfl⟩

/-- A field command that ends OK touches no field the invariants read. -/
theorem State.Inv.finishRes {s : State} (h : s.Inv) (v : Byte) : (s.setRes v).finishOk.Inv :=
  h.congr ⟨rfl, rfl, rfl, rfl, rfl, rfl, rfl⟩

/-- Valid parameters fit the buffers: n at most 255, r at most 254 (41_encoder.md R151). -/
theorem lengths_of_paramsOk {s : State} (h : s.paramsOk = true) : s.codeLength ≤ 255 ∧ s.parityCount ≤ 254 := by
  simp only [State.paramsOk, paramsOk, Bool.and_eq_true, decide_eq_true_eq] at h
  unfold State.codeLength
  omega

/-! ### Every command body keeps the invariants -/

theorem encodeBody_inv {s t : State} (hs : s.Inv) (h : encodeBody s = .ok t) : t.Inv := by
  obtain ⟨-, rfl⟩ | ⟨d, -, -, hsize, rfl⟩ := encodeBody_cases h
  · exact hs.raise _
  · refine Memory.Canonical.inv ?_ rfl rfl rfl
    exact canonical_setEntries hs.canonical hsize

/-- After SYNDROME the syndromes in SYN are those of CW: CW still reads the word, and SYN reads what was written. -/
theorem syndromesCurrent_of_written {s t : State} {cw : List Byte} (hp : s.paramsOk = true)
    (hcw : readEntries s .cw 0 s.codeLength = .ok cw)
    (hmem : t.mem = (s.setEntries .syn 0 (syndromes cw s.parityCount)).mem) (hk : t.k = s.k) (hr : t.r = s.r)
    (hz : t.synZero = (syndromes cw s.parityCount).all (· == 0x00)) : t.SyndromesCurrent := by
  obtain ⟨hn, hp254⟩ := lengths_of_paramsOk hp
  have hread : readEntries (s.setEntries .syn 0 (syndromes cw s.parityCount)) .cw 0 s.codeLength = .ok cw := by
    rw [readEntries_setEntries_other s (by simp) _ _ _ _ (by simpa using hp254) (by simpa using hn), hcw]
  have hself := readEntries_setEntries_self s .syn 0 (syndromes cw s.parityCount) (by simpa using hp254)
  rw [syndromes_length] at hself
  simp only [State.SyndromesCurrent, State.paramsOk, State.codeLength, State.dataCount, State.parityCount, hk, hr, hz,
    readEntries_congr hmem]
  exact ⟨hp, cw, hread, hself, rfl⟩

theorem syndromeBody_inv {s t : State} (hs : s.Inv) (h : syndromeBody s = .ok t) : t.Inv := by
  obtain ⟨-, rfl⟩ | ⟨cw, hp, hcw, rfl⟩ := syndromeBody_cases h
  · exact hs.raise _
  · have hmem := canonical_setEntries (buf := .syn) (start := 0) (vs := syndromes cw s.parityCount) hs.canonical
      (by simpa using (lengths_of_paramsOk hp).2)
    exact {
      memWf := hmem.wf
      memEntries := hmem.entries
      locSyn := fun hv => by simp at hv
      zeroSyn := fun _ => rfl
      synCurrent := fun _ => syndromesCurrent_of_written hp hcw rfl (by simp) (by simp) rfl
      locCurrent := fun hv => by simp at hv }

/-- A write to LAMBDA leaves CW and SYN, and so the syndromes, as they are. -/
theorem syndromesCurrent_setLambda {s t : State} (h : s.SyndromesCurrent) {vs : List Byte} (hsize : vs.length ≤ 255)
    (hmem : t.mem = (s.setEntries .lambda 0 vs).mem) (hk : t.k = s.k) (hr : t.r = s.r) (hz : t.synZero = s.synZero) :
    t.SyndromesCurrent := by
  obtain ⟨hn, hp254⟩ := lengths_of_paramsOk h.1
  refine h.congr_reads ?_ ?_ hk hr hz
  · rw [readEntries_congr hmem, readEntries_setEntries_other s (by simp) _ _ _ _ (by simpa using hsize)
      (by simpa using hn)]
  · rw [readEntries_congr hmem, readEntries_setEntries_other s (by simp) _ _ _ _ (by simpa using hsize)
      (by simpa using hp254)]

/-- After a LOCATE that ends OK, LAMBDA and LDEG read what it computed from SYN, which it left as it was. -/
theorem locatorCurrent_of_written {s t : State} {syn : List Byte} (hp : s.parityCount ≤ 254)
    (hsyn : readEntries s .syn 0 s.parityCount = .ok syn) (hl : (locate syn).2 ≤ s.parityCount / 2)
    (hmem : t.mem = (s.setEntries .lambda 0 (locate syn).1).mem) (hr : t.r = s.r)
    (hldeg : t.ldeg = BitVec.ofNat 8 (locate syn).2) : t.LocatorCurrent := by
  have hlen : (locate syn).1.length = s.parityCount + 1 := by
    rw [locate_length, ((readEntries_ok_iff ..).1 hsyn).1]
  have hread : readEntries (s.setEntries .lambda 0 (locate syn).1) .syn 0 s.parityCount = .ok syn := by
    rw [readEntries_setEntries_other s (by simp) _ _ _ _ (by simp; omega) (by simpa using hp), hsyn]
  have hself := readEntries_setEntries_self s .lambda 0 (locate syn).1 (by simp; omega)
  rw [hlen] at hself
  have hL : (BitVec.ofNat 8 (locate syn).2).toNat = (locate syn).2 := by
    rw [BitVec.toNat_ofNat]; omega
  simp only [State.LocatorCurrent, State.parityCount, State.locatorLength, hr, hldeg, readEntries_congr hmem, hL]
  exact ⟨syn, hread, hself, rfl, hl⟩

theorem locateBody_inv {s t : State} (hs : s.Inv) (h : locateBody s = .ok t) : t.Inv := by
  obtain ⟨-, rfl⟩ | ⟨syn, hv, hsyn, hlen, hcase⟩ := locateBody_cases h
  · exact hs.raise _
  have hcur := hs.synCurrent hv
  have hmem := canonical_setEntries (buf := .lambda) (start := 0) (vs := (locate syn).1) hs.canonical
    (by simpa using hlen)
  obtain ⟨hl, rfl⟩ | ⟨-, rfl⟩ := hcase
  · exact {
      memWf := hmem.wf
      memEntries := hmem.entries
      locSyn := fun _ => by simpa [State.storeLocator] using hv
      zeroSyn := fun _ => by simpa [State.storeLocator] using hv
      synCurrent := fun _ => syndromesCurrent_setLambda hcur hlen rfl (by simp [State.storeLocator])
        (by simp [State.storeLocator]) (by simp [State.storeLocator])
      locCurrent := fun _ => locatorCurrent_of_written (lengths_of_paramsOk hcur.1).2 hsyn hl rfl
        (by simp [State.storeLocator]) rfl }
  · exact {
      memWf := hmem.wf
      memEntries := hmem.entries
      locSyn := fun hv => by simp at hv
      zeroSyn := fun _ => by simpa [State.storeLocator] using hv
      synCurrent := fun _ => syndromesCurrent_setLambda hcur hlen rfl (by simp [State.storeLocator])
        (by simp [State.storeLocator]) (by simp [State.storeLocator])
      locCurrent := fun hv => by simp at hv }

theorem correctBody_inv {s t : State} (hs : s.Inv) (h : correctBody s = .ok t) : t.Inv := by
  obtain ⟨-, rfl⟩ | ⟨lam, -, -, ⟨-, rfl⟩ | ⟨-, syn, u, w, -, hu, hw, rfl⟩⟩ := correctBody_cases h
  · exact hs.raise _
  · exact Memory.Canonical.inv hs.canonical rfl rfl rfl
  · have hmem := canonical_recordErrors (canonical_applyCorrections hs.canonical hu) hw
    exact Memory.Canonical.inv hmem rfl rfl rfl

/-- Every instruction keeps the invariants; the field commands touch nothing they read. -/
theorem commandBody_inv {i : Instr} {s t : State} (hs : s.Inv) (h : commandBody i s = .ok t) : t.Inv := by
  cases i with
  | gfAdd => cases h; exact hs.finishRes _
  | gfMul => cases h; exact hs.finishRes _
  | gfInv =>
    rw [commandBody] at h
    split at h
    · cases h; exact hs.congr ⟨rfl, rfl, rfl, rfl, rfl, rfl, rfl⟩
    · cases h; exact hs.finishRes _
  | gfPow => cases h; exact hs.finishRes _
  | encode => exact encodeBody_inv hs h
  | syndrome => exact syndromeBody_inv hs h
  | locate => exact locateBody_inv hs h
  | correct => exact correctBody_inv hs h
  | decode =>
    exact decodeBody_preserves (fun _ _ => syndromeBody_inv) (fun _ _ => locateBody_inv)
      (fun _ _ => correctBody_inv) hs h
  | illegal v => cases h; exact hs.raise _

theorem exec_inv {i : Instr} {s t : State} (hs : s.Inv) (h : exec i s = .next t) : t.Inv := by
  obtain ⟨-, rfl⟩ | ⟨-, hb⟩ := exec_next_cases h
  · exact hs.raise _
  · exact commandBody_inv hs hb

theorem reset_onBus_inv (p : List HostEvent) (y : BusReply) (n : Nat) : (State.reset.onBus p y n).Inv :=
  Memory.Canonical.inv ⟨rfl, by simp [State.reset, State.onBus]⟩ rfl rfl rfl

end Sys2Proof.Machine
end

-- ==== Proofs: FATAL and RESULT (10_state.md R42, R47) ====
section
/-! The lock is set by GF_INV of 0 alone, and no command reads RESULT. -/

namespace Sys2Proof.Machine

open Sys2Proof.Claims

/-! ### Which command bodies touch FATAL -/

theorem encodeBody_fatal {s t : State} (h : encodeBody s = .ok t) : t.fatal = s.fatal := by
  obtain ⟨-, rfl⟩ | ⟨d, -, -, -, rfl⟩ := encodeBody_cases h <;> simp

theorem syndromeBody_fatal {s t : State} (h : syndromeBody s = .ok t) : t.fatal = s.fatal := by
  obtain ⟨-, rfl⟩ | ⟨cw, -, -, rfl⟩ := syndromeBody_cases h <;> simp

theorem locateBody_fatal {s t : State} (h : locateBody s = .ok t) : t.fatal = s.fatal := by
  obtain ⟨-, rfl⟩ | ⟨syn, -, -, -, ⟨-, rfl⟩ | ⟨-, rfl⟩⟩ := locateBody_cases h <;> simp [State.storeLocator]

theorem correctBody_fatal {s t : State} (h : correctBody s = .ok t) : t.fatal = s.fatal := by
  obtain ⟨-, rfl⟩ | ⟨lam, -, -, ⟨-, rfl⟩ | ⟨-, syn, u, w, -, hu, hw, rfl⟩⟩ := correctBody_cases h
  · simp
  · simp
  · obtain ⟨-, -, rfl⟩ := recordErrors_cases hw
    rw [applyCorrections_eq hu]
    simp

theorem decodeBody_fatal {s t : State} (h : decodeBody s = .ok t) : t.fatal = s.fatal :=
  decodeBody_preserves (P := fun u => u.fatal = s.fatal) (fun _ _ hu h => (syndromeBody_fatal h).trans hu)
    (fun _ _ hu h => (locateBody_fatal h).trans hu) (fun _ _ hu h => (correctBody_fatal h).trans hu) rfl h

/-- GF_INV of 0 locks the core and reports DIV_BY_ZERO (60_exceptions.md R275). -/
theorem commandBody_gfInv_zero {s : State} (ha : s.a = 0x00) : commandBody .gfInv s = .ok s.lockDivByZero := by
  simp [commandBody, ha]

/-- Every other instruction leaves FATAL as it was. -/
theorem commandBody_fatal {i : Instr} {s t : State} (h : commandBody i s = .ok t)
    (hi : ¬(i = .gfInv ∧ s.a = 0x00)) : t.fatal = s.fatal := by
  cases i with
  | gfAdd => cases h; rfl
  | gfMul => cases h; rfl
  | gfInv =>
    rw [commandBody, if_neg fun ha => hi ⟨rfl, ha⟩] at h
    cases h; rfl
  | gfPow => cases h; rfl
  | encode => exact encodeBody_fatal h
  | syndrome => exact syndromeBody_fatal h
  | locate => exact locateBody_fatal h
  | correct => exact correctBody_fatal h
  | decode => exact decodeBody_fatal h
  | illegal v => cases h; rfl

/-- A locked core answers every instruction alike. -/
theorem exec_locked {s : State} (i : Instr) (h : s.fatal = true) : exec i s = .next (s.raise .locked) :=
  exec_eq_runCommand_commandBody i s ▸ runCommand_locked s _ h

/-- No command unlocks the core. -/
theorem exec_keeps_fatal {i : Instr} {s t : State} (h : exec i s = .next t) (hs : s.fatal = true) : t.fatal = true := by
  rw [exec_locked i hs] at h
  cases h; exact hs

/-- What an instruction of an unlocked core does to FATAL: GF_INV of 0 locks with DIV_BY_ZERO, every other one does not. -/
theorem exec_fatal_cases {i : Instr} {s t : State} (h : exec i s = .next t) (hs : s.fatal = false) :
    (i = .gfInv ∧ s.a = 0x00) ∧ t = s.lockDivByZero ∨ ¬(i = .gfInv ∧ s.a = 0x00) ∧ t.fatal = false := by
  obtain ⟨hf, -⟩ | ⟨-, hb⟩ := exec_next_cases h
  · simp [hs] at hf
  · by_cases hi : i = .gfInv ∧ s.a = 0x00
    · obtain ⟨rfl, ha⟩ := hi
      rw [commandBody_gfInv_zero ha] at hb
      cases hb; exact .inl ⟨⟨rfl, ha⟩, rfl⟩
    · exact .inr ⟨hi, (commandBody_fatal hb hi).trans hs⟩

/-- 0x03 is the byte of GF_INV and of nothing else (30_encoding.md R101). -/
theorem decodeByte_eq_gfInv_iff (v : Byte) : decodeByte v = .gfInv ↔ v = 0x03 := by decide +revert

/-! ### FATAL over one step -/

/-- What 10_state.md R47 says of FATAL over one step. -/
def FatalRule (s t : State) : Prop :=
  (s.fatal = true → t.fatal = false → resetNext s) ∧
    (s.fatal = false → (t.fatal = true ↔ commandWritten s = some 0x03 ∧ s.a = 0x00)) ∧
    (s.fatal = false → t.fatal = true → t.result = .divByZero)

theorem fatalRule_of_no_command {s t : State} (hcmd : commandWritten s = none) (ht : t.fatal = s.fatal) :
    FatalRule s t := by
  refine ⟨fun hs h => ?_, fun hs => ?_, fun hs h => ?_⟩
  · simp [ht, hs] at h
  · simp [ht, hs, hcmd]
  · simp [ht, hs] at h

theorem fatalRule_of_reset {s t : State} (hcmd : commandWritten s = none) (hr : resetNext s) (ht : t.fatal = false) :
    FatalRule s t :=
  ⟨fun _ _ => hr, fun _ => by simp [ht, hcmd], fun _ h => by simp [ht] at h⟩

theorem fatalRule_of_command {s u t : State} {v : Byte} (hcmd : commandWritten s = some v) (hf : u.fatal = s.fatal)
    (ha : u.a = s.a) (h : exec (decodeByte v) u = .next t) : FatalRule s t := by
  refine ⟨fun hs ht => ?_, fun hs => ?_, fun hs ht => ?_⟩
  · simp [exec_keeps_fatal h (hf.trans hs)] at ht
  · rw [hcmd, Option.some_inj, ← decodeByte_eq_gfInv_iff, ← ha]
    obtain ⟨hi, rfl⟩ | ⟨hi, ht⟩ := exec_fatal_cases h (hf.trans hs)
    · exact iff_of_true rfl hi
    · exact iff_of_false (by simp [ht]) hi
  · obtain ⟨-, rfl⟩ | ⟨-, ht'⟩ := exec_fatal_cases h (hf.trans hs)
    · rfl
    · simp [ht'] at ht

/-! ### Commands do not read RESULT -/

section
variable (s : State) (c : ResultCode)

@[simp] theorem State.raise_raise (d : ResultCode) : (s.raise c).raise d = s.raise d := rfl

@[simp] theorem State.dataCount_raise : (s.raise c).dataCount = s.dataCount := rfl
@[simp] theorem State.parityCount_raise : (s.raise c).parityCount = s.parityCount := rfl
@[simp] theorem State.codeLength_raise : (s.raise c).codeLength = s.codeLength := rfl
@[simp] theorem State.locatorLength_raise : (s.raise c).locatorLength = s.locatorLength := rfl
@[simp] theorem State.paramsOk_raise : (s.raise c).paramsOk = s.paramsOk := rfl

@[simp] theorem readEntries_raise (buf : Buffer) (start n : Nat) :
    readEntries (s.raise c) buf start n = readEntries s buf start n :=
  readEntries_congr (s := s.raise c) (t := s) rfl ..

theorem setEntries_raise (buf : Buffer) (start : Nat) (vs : List Byte) :
    (s.raise c).setEntries buf start vs = (s.setEntries buf start vs).raise c := by
  induction vs generalizing s start with
  | nil => rfl
  | cons v vs ih => exact ih (s.setEntry buf start v) (start + 1)

theorem writeEntries_raise (buf : Buffer) (start : Nat) (vs : List Byte) :
    writeEntries (s.raise c) buf start vs = (writeEntries s buf start vs).map (State.raise · c) := by
  unfold writeEntries
  split
  · rw [setEntries_raise]; rfl
  · rfl

theorem applyCorrections_raise (ps : List (Nat × Byte)) :
    applyCorrections (s.raise c) ps = (applyCorrections s ps).map (State.raise · c) := by
  induction ps generalizing s with
  | nil => rfl
  | cons d ps ih =>
    obtain ⟨p, y⟩ := d
    rw [applyCorrections, applyCorrections, readEntry_congr (s := s.raise c) (t := s) rfl]
    cases readEntry s .cw p with
    | error f => rfl
    | ok v => exact ih (s.setEntry .cw p (gfAdd v y))

theorem recordErrors_raise (roots : List Nat) (mags : List Byte) :
    recordErrors (s.raise c) roots mags = (recordErrors s roots mags).map (State.raise · c) := by
  rw [recordErrors, recordErrors, writeEntries_raise]
  cases writeEntries s .errpos 0 (roots.map (BitVec.ofNat 8)) with
  | error f => rfl
  | ok u =>
    simp only [Except.map]
    rw [writeEntries_raise]
    cases writeEntries u .errmag 0 mags <;> rfl

theorem encodeBody_raise : encodeBody (s.raise c) = encodeBody s := by
  simp only [encodeBody, State.paramsOk_raise, State.dataCount_raise, State.parityCount_raise, readEntries_raise,
    writeEntries_raise, State.raise_raise]
  cases readEntries s .cw 0 s.dataCount with
  | error f => rfl
  | ok d =>
    dsimp only
    cases writeEntries s .cw s.dataCount (parity d s.parityCount) <;> rfl

theorem syndromeBody_raise : syndromeBody (s.raise c) = syndromeBody s := by
  simp only [syndromeBody, State.paramsOk_raise, State.codeLength_raise, State.parityCount_raise, readEntries_raise,
    writeEntries_raise, State.raise_raise]
  cases readEntries s .cw 0 s.codeLength with
  | error f => rfl
  | ok cw =>
    dsimp only
    cases writeEntries s .syn 0 (syndromes cw s.parityCount) <;> rfl

theorem locateBody_raise : locateBody (s.raise c) = locateBody s := by
  simp only [locateBody, State.raise_synValid, State.parityCount_raise, readEntries_raise, writeEntries_raise,
    State.raise_raise]
  cases readEntries s .syn 0 s.parityCount with
  | error f => rfl
  | ok syn =>
    dsimp only
    cases writeEntries s .lambda 0 (locate syn).1 <;> rfl

theorem correctBody_raise : correctBody (s.raise c) = correctBody s := by
  simp only [correctBody, State.raise_locValid, State.parityCount_raise, State.codeLength_raise,
    State.locatorLength_raise, readEntries_raise, applyCorrections_raise, State.raise_raise]
  cases readEntries s .lambda 0 (s.parityCount + 1) with
  | error f => rfl
  | ok lam =>
    cases readEntries s .syn 0 s.parityCount with
    | error f => rfl
    | ok syn =>
      dsimp only
      generalize rootPositions lam s.codeLength = roots
      generalize magnitudes syn lam s.codeLength roots = mags
      cases applyCorrections s (roots.zip mags) with
      | error f => rfl
      | ok u =>
        simp only [Except.map, recordErrors_raise]
        cases recordErrors u roots mags <;> rfl

/-- No instruction reads RESULT. -/
theorem commandBody_raise (i : Instr) : commandBody i (s.raise c) = commandBody i s := by
  cases i with
  | gfAdd => rfl
  | gfMul => rfl
  | gfInv => rfl
  | gfPow => rfl
  | encode => exact encodeBody_raise s c
  | syndrome => exact syndromeBody_raise s c
  | locate => exact locateBody_raise s c
  | correct => exact correctBody_raise s c
  | decode => rw [commandBody, commandBody, decodeBody, decodeBody, syndromeBody_raise]
  | illegal v => rfl

theorem exec_raise (i : Instr) : exec i (s.raise c) = exec i s := by
  rw [exec_eq_runCommand_commandBody, exec_eq_runCommand_commandBody, runCommand, runCommand, commandBody_raise]
  rfl

end

end Sys2Proof.Machine
end

-- ==== Proofs: the obligations of 10_state.md ====
section
/-! The statements of the family 10_state.md, settled from the layers above. -/

namespace Sys2Proof.Proofs

open Sys2Proof.Machine Sys2Proof.Claims

/-- Settles O54: every kind of step effect keeps the invariants. -/
theorem everyStepKeepsTheInvariants : Obligations.EveryStepKeepsTheInvariants := by
  intro s t hs h
  cases step_effect h with
  | hold p y n _ => exact hs.congr ⟨rfl, rfl, rfl, rfl, rfl, rfl, rfl⟩
  | command p y n _ hexec =>
    refine exec_inv ?_ hexec
    exact hs.congr ⟨rfl, rfl, rfl, rfl, rfl, rfl, rfl⟩
  | storeParams p y n k r _ => exact Memory.Canonical.inv hs.canonical rfl rfl rfl
  | storeOperands p y n a b e _ => exact hs.congr ⟨rfl, rfl, rfl, rfl, rfl, rfl, rfl⟩
  | storeCw p y n i v _ hi =>
    refine Memory.Canonical.inv ?_ rfl rfl rfl
    exact canonical_setEntry (s := s.onBus p y n) (buf := .cw) hs.canonical v hi
  | reset p n _ _ => exact reset_onBus_inv p .inReset n

/-- Settles O6: the bus write at each address. -/
theorem hostWriteFollowsAddressMap : Obligations.HostWriteFollowsAddressMap := by
  intro s u addr v rest hp hu
  have hstep : step s = busWrite u addr v := by rw [step_event s _ rest hp, hu]; rfl
  rw [hstep]
  refine ⟨busWrite_cmd u v, busWrite_k u v, busWrite_r u v, busWrite_a u v, busWrite_b u v, busWrite_e u v, ?_,
    busWrite_ignored u v⟩
  rintro ⟨hlo, hhi⟩
  have haddr : Buffer.cw.address (addr.toNat - 0x100) = addr.toNat := by simp; omega
  refine ⟨_, busWrite_cw u v hlo hhi, rfl, ?_, fun a ha => ?_⟩
  · simp [byteAt, -Buffer.address_cw, haddr, Memory.get_put_self]
  · simp [byteAt, -Buffer.address_cw, haddr, Memory.get_put_ne _ _ ha, hu]

/-- Settles O24: commands and reset are the only events that touch FATAL. -/
theorem fatalLocksUntilReset : Obligations.FatalLocksUntilReset := by
  refine ⟨fun s v rest hf hp => ?_, fun s t h => ?_⟩
  · rw [step_event s _ rest hp, show (0x000 : Addr) = cmdAddr from rfl, perform_write_cmd]
    exact exec_locked _ hf
  · show FatalRule s t
    cases step_effect h with
    | hold p y n hcmd => exact fatalRule_of_no_command hcmd rfl
    | command p y n hcmd hexec => refine fatalRule_of_command hcmd ?_ ?_ hexec <;> rfl
    | storeParams p y n k r hcmd => exact fatalRule_of_no_command hcmd rfl
    | storeOperands p y n a b e hcmd => exact fatalRule_of_no_command hcmd rfl
    | storeCw p y n i v hcmd _ => exact fatalRule_of_no_command hcmd rfl
    | reset p n hcmd hr => exact fatalRule_of_reset hcmd hr rfl

/-- Settles O44: no instruction reads RESULT, and every other event but a reset leaves it. -/
theorem resultIsWrittenByCommandsAlone : Obligations.ResultIsWrittenByCommandsAlone := by
  refine ⟨fun i s c => exec_raise s c i, fun s t h hne => ?_⟩
  cases step_effect h with
  | hold => exact absurd rfl hne
  | command p y n hcmd hexec => exact .inl (by simp [hcmd])
  | storeParams => exact absurd rfl hne
  | storeOperands => exact absurd rfl hne
  | storeCw => exact absurd rfl hne
  | reset p n hcmd hr => exact .inr hr

/-- Settles O49, by evaluating the reset state. -/
theorem resetLeavesEverythingZero : Obligations.ResetLeavesEverythingZero := by
  refine ⟨rfl, rfl, rfl, rfl, rfl, rfl, rfl, rfl, rfl, rfl, rfl, rfl, rfl, rfl, rfl, fun a => ?_⟩
  exact Memory.get_nil a

end Sys2Proof.Proofs
end

-- ==== Proofs: the address map (20_memory.md R71 to R81) ====
section
/-! What a host read returns, and what a write leaves, in terms of the address map. -/

namespace Sys2Proof.Machine

open Sys2Proof.Claims

/-! ### Reads by place -/

/-- The byte a place holds; none for an unwritten entry (20_memory.md R72 to R74). -/
def Place.read (s : State) : Place → Option Byte
  | .cmd => some s.cmd
  | .status => some (BitVec.ofNat 8 (statusNumber s))
  | .k => some s.k
  | .r => some s.r
  | .a => some s.a
  | .b => some s.b
  | .e => some s.e
  | .res => some s.res
  | .ldeg => some s.ldeg
  | .nerr => some s.nerr
  | .entry buf i => byteAt s (buf.address i)
  | .reserved => some 0x00

/-- The STATUS byte is its fields at their places (10_state.md R41). -/
theorem statusByte_toNat (s : State) : s.statusByte.toNat = statusNumber s := by
  unfold State.statusByte statusNumber
  generalize s.fatal = f, s.synZero = z, s.locValid = l, s.synValid = v
  cases s.result <;> decide +revert

/-- If the place is a buffer entry, the entry exists and `a` is its bus address (20_memory.md R71). -/
def Place.SitsAt (a : Nat) : Place → Prop
  | .entry buf i => i < buf.size ∧ buf.address i = a
  | _ => True

theorem placeOf_sitsAt (addr : Addr) : (placeOf addr).SitsAt addr.toNat := by
  unfold placeOf
  generalize addr.toNat = a
  dsimp only
  -- The ten registers and a reserved range, then each buffer and the reserved range after it.
  iterate 11 refine iteInduction (fun _ => trivial) fun _ => ?_
  iterate 3
    refine iteInduction (fun _ => ⟨by simp; omega, by simp; omega⟩) fun _ => ?_
    refine iteInduction (fun _ => trivial) fun _ => ?_
  refine iteInduction (fun _ => ⟨by simp; omega, by simp; omega⟩) fun _ => ?_
  exact iteInduction (fun _ => ⟨by simp; omega, by simp; omega⟩) fun _ => trivial

/-- The address map of the statements and the model's places agree on every address. -/
theorem mapRead_eq_placeOf_read (s : State) (addr : Addr) : mapRead s addr.toNat = (placeOf addr).read s := by
  unfold mapRead placeOf
  generalize addr.toNat = a
  dsimp only
  simp only [apply_ite (Place.read s)]
  simp only [Place.read]
  -- The ten registers, then a reserved range before each buffer.
  iterate 10 refine ite_congr rfl (fun _ => rfl) fun _ => ?_
  iterate 3
    refine ite_congr (propext (by omega)) (fun _ => rfl) fun _ => ?_
    refine ite_congr rfl (fun _ => congrArg (byteAt s) (by simp; omega)) fun _ => ?_
  refine ite_congr (propext (by omega)) (fun _ => rfl) fun _ => ?_
  by_cases hpos : a ≤ 0x47F
  · rw [if_pos hpos, if_pos (by omega)]
    exact congrArg (byteAt s) (by simp; omega)
  · rw [if_neg hpos]
    exact ite_congr rfl (fun _ => congrArg (byteAt s) (by simp; omega)) fun _ => rfl

theorem busRead_of_mapRead_some {s : State} {addr : Addr} {v : Byte} (h : mapRead s addr.toNat = some v) :
    busRead s addr = .ok v := by
  rw [mapRead_eq_placeOf_read] at h
  have hsits := placeOf_sitsAt addr
  unfold busRead
  cases hp : placeOf addr with rw [hp] at h hsits
  | entry buf i => exact (readEntry_ok_iff ..).2 ⟨hsits.1, h⟩
  | status =>
    rw [Place.read, ← statusByte_toNat, BitVec.ofNat_toNat, BitVec.setWidth_eq] at h
    cases h; rfl
  | _ => cases h; rfl

/-- Only an unwritten entry has no byte to read, and the fault names it. -/
theorem busRead_of_mapRead_none {s : State} {addr : Addr} (h : mapRead s addr.toNat = none) :
    ∃ buf i, buf.address i = addr.toNat ∧ busRead s addr = .error (.unwrittenEntry buf i) := by
  rw [mapRead_eq_placeOf_read] at h
  have hsits := placeOf_sitsAt addr
  unfold busRead
  cases hp : placeOf addr with rw [hp] at h hsits
  | entry buf i => exact ⟨buf, i, hsits.2, (readEntry_unwritten_iff s buf i hsits.1).2 h⟩
  | _ => cases h

/-! ### What no command changes (10_state.md R31) -/

/-- The registers that the host alone writes, and the model's own fields. -/
def State.hostSide (s : State) : Byte × Byte × Byte × Byte × Byte × Byte × List HostEvent × BusReply × Nat :=
  (s.cmd, s.k, s.r, s.a, s.b, s.e, s.pending, s.reply, s.draws)

theorem encodeBody_hostSide {s t : State} (h : encodeBody s = .ok t) : t.hostSide = s.hostSide := by
  obtain ⟨-, rfl⟩ | ⟨d, -, -, -, rfl⟩ := encodeBody_cases h <;> simp [State.hostSide]

theorem syndromeBody_hostSide {s t : State} (h : syndromeBody s = .ok t) : t.hostSide = s.hostSide := by
  obtain ⟨-, rfl⟩ | ⟨cw, -, -, rfl⟩ := syndromeBody_cases h <;> simp [State.hostSide]

theorem locateBody_hostSide {s t : State} (h : locateBody s = .ok t) : t.hostSide = s.hostSide := by
  obtain ⟨-, rfl⟩ | ⟨syn, -, -, -, ⟨-, rfl⟩ | ⟨-, rfl⟩⟩ := locateBody_cases h <;>
    simp [State.hostSide, State.storeLocator]

theorem correctBody_hostSide {s t : State} (h : correctBody s = .ok t) : t.hostSide = s.hostSide := by
  obtain ⟨-, rfl⟩ | ⟨lam, -, -, ⟨-, rfl⟩ | ⟨-, syn, u, w, -, hu, hw, rfl⟩⟩ := correctBody_cases h
  · rfl
  · rfl
  · obtain ⟨-, -, rfl⟩ := recordErrors_cases hw
    rw [applyCorrections_eq hu]
    simp [State.hostSide]

theorem commandBody_hostSide {i : Instr} {s t : State} (h : commandBody i s = .ok t) : t.hostSide = s.hostSide := by
  cases i with
  | gfInv =>
    rw [commandBody] at h
    split at h <;> cases h <;> rfl
  | encode => exact encodeBody_hostSide h
  | syndrome => exact syndromeBody_hostSide h
  | locate => exact locateBody_hostSide h
  | correct => exact correctBody_hostSide h
  | decode =>
    exact decodeBody_preserves (P := fun u => u.hostSide = s.hostSide)
      (fun _ _ hu hw => (syndromeBody_hostSide hw).trans hu) (fun _ _ hu hw => (locateBody_hostSide hw).trans hu)
      (fun _ _ hu hw => (correctBody_hostSide hw).trans hu) rfl h
  | _ => cases h; rfl

/-- A command writes no register of the host and leaves the bus alone. -/
theorem exec_hostSide {i : Instr} {s t : State} (h : exec i s = .next t) : t.hostSide = s.hostSide := by
  obtain ⟨-, rfl⟩ | ⟨-, hbody⟩ := exec_next_cases h
  · rfl
  · exact commandBody_hostSide hbody

/-! ### What a write leaves to be read (20_memory.md R78) -/

/-- The addresses the host can write (20_memory.md R77). -/
def Writable (a : Nat) : Prop := (a ≤ 0x006 ∧ a ≠ 0x001) ∨ (0x100 ≤ a ∧ a ≤ 0x1FE)

/-- What a writable address reads: a register of the host or an entry of CW. -/
theorem mapRead_of_writable {a : Nat} (h : Writable a) (s : State) :
    mapRead s a =
      if a = 0x000 then some s.cmd
      else if a = 0x002 then some s.k
      else if a = 0x003 then some s.r
      else if a = 0x004 then some s.a
      else if a = 0x005 then some s.b
      else if a = 0x006 then some s.e
      else byteAt s a := by
  unfold Writable at h
  unfold mapRead
  refine ite_congr rfl (fun _ => rfl) fun _ => ?_
  rw [if_neg (by omega)]
  iterate 5 refine ite_congr rfl (fun _ => rfl) fun _ => ?_
  iterate 4 rw [if_neg (by omega)]
  exact if_pos (by omega)

/-- A write that runs no command completes, is read back, and changes what no other writable address reads. -/
theorem busWrite_mapRead (s : State) {addr : Addr} (v : Byte) (hcmd : addr.toNat ≠ 0x000) :
    ∃ t, busWrite s addr v = .next t ∧ (Writable addr.toNat → mapRead t addr.toNat = some v) ∧
      ∀ a, Writable a → a ≠ addr.toNat → mapRead t a = mapRead s a := by
  by_cases h2 : addr.toNat = 0x002
  · exact ⟨_, busWrite_k s v h2, fun _ => by rw [h2]; rfl,
      fun a hw ha => by simp [mapRead_of_writable hw, byteAt, h2 ▸ ha]⟩
  by_cases h3 : addr.toNat = 0x003
  · exact ⟨_, busWrite_r s v h3, fun _ => by rw [h3]; rfl,
      fun a hw ha => by simp [mapRead_of_writable hw, byteAt, h3 ▸ ha]⟩
  by_cases h4 : addr.toNat = 0x004
  · exact ⟨_, busWrite_a s v h4, fun _ => by rw [h4]; rfl,
      fun a hw ha => by simp [mapRead_of_writable hw, byteAt, h4 ▸ ha]⟩
  by_cases h5 : addr.toNat = 0x005
  · exact ⟨_, busWrite_b s v h5, fun _ => by rw [h5]; rfl,
      fun a hw ha => by simp [mapRead_of_writable hw, byteAt, h5 ▸ ha]⟩
  by_cases h6 : addr.toNat = 0x006
  · exact ⟨_, busWrite_e s v h6, fun _ => by rw [h6]; rfl,
      fun a hw ha => by simp [mapRead_of_writable hw, byteAt, h6 ▸ ha]⟩
  by_cases hcw : 0x100 ≤ addr.toNat ∧ addr.toNat ≤ 0x1FE
  · have haddr : Buffer.cw.address (addr.toNat - 0x100) = addr.toNat := Nat.add_sub_cancel' hcw.1
    refine ⟨_, busWrite_cw s v hcw.1 hcw.2, fun hw => ?_, fun a hw ha => ?_⟩
    · simp [mapRead_of_writable hw, byteAt, -Buffer.address_cw, haddr, Memory.get_put_self, hcmd, h2, h3, h4, h5, h6]
    · simp [mapRead_of_writable hw, byteAt, -Buffer.address_cw, haddr, Memory.get_put_ne _ _ ha]
  · refine ⟨s, busWrite_ignored s v (by omega), fun hw => ?_, fun _ _ _ => rfl⟩
    unfold Writable at hw
    omega

/-- A write elsewhere, not to CMD, leaves what a writable address reads. -/
theorem mapRead_of_busWrite_ne {s t : State} {addr c : Addr} {v : Byte} (hw : Writable addr.toNat) (hne : c ≠ addr)
    (hcmd : c ≠ 0x000) (h : busWrite s c v = .next t) : mapRead t addr.toNat = mapRead s addr.toNat := by
  obtain ⟨u, hu, -, hother⟩ := busWrite_mapRead s v (addr := c) fun h0 => hcmd (BitVec.eq_of_toNat_eq h0)
  cases hu.symm.trans h
  exact hother _ hw fun heq => hne (BitVec.eq_of_toNat_eq heq.symm)

/-- A write that completes is read back, also one to CMD, whose command leaves the byte (10_state.md R34). -/
theorem mapRead_of_busWrite {s t : State} {addr : Addr} {v : Byte} (hw : Writable addr.toNat)
    (h : busWrite s addr v = .next t) : mapRead t addr.toNat = some v := by
  by_cases hcmd : addr.toNat = 0x000
  · rw [busWrite_cmd s v hcmd] at h
    rw [hcmd]
    exact congrArg some (congrArg Prod.fst (exec_hostSide h))
  · obtain ⟨u, hu, hself, -⟩ := busWrite_mapRead s v hcmd
    cases hu.symm.trans h
    exact hself hw

end Sys2Proof.Machine
end

-- ==== Proofs: the obligations of 20_memory.md ====
section
/-! The statements of the family 20_memory.md, settled from the layers above. -/

namespace Sys2Proof.Proofs

open Sys2Proof.Machine Sys2Proof.Claims

/-- Settles O5: the byte of the address map is what the bus reads, and only an unwritten entry has none. -/
theorem hostReadFollowsAddressMap : Obligations.HostReadFollowsAddressMap := by
  intro s addr rest hp
  rw [step_event s _ rest hp, perform]
  refine ⟨fun v hv => ?_, fun hnone => ?_⟩
  · rw [busRead_of_mapRead_some (s := { s with pending := rest }) hv]
  · obtain ⟨buf, i, haddr, hread⟩ := busRead_of_mapRead_none (s := { s with pending := rest }) hnone
    exact ⟨buf, i, haddr, by rw [hread]⟩

/-- Settles O7: a completed write is read back, and each event that leaves the address alone leaves what it reads. -/
theorem writtenValueStaysUntilOverwritten : Obligations.WrittenValueStaysUntilOverwritten := by
  intro addr hw
  refine ⟨fun s v rest hp => ?_, fun s t ev rest hp hev h => ?_⟩
  · rw [step_event s _ rest hp, perform]
    refine ⟨fun hcmd => ?_, fun t h => mapRead_of_busWrite hw h⟩
    obtain ⟨t, ht, -⟩ := busWrite_mapRead { s with pending := rest, reply := .written } v hcmd
    exact ⟨t, ht⟩
  · rw [step_event s ev rest hp] at h
    cases ev with
    | access acc =>
      cases acc with
      | read c =>
        rw [perform] at h
        split at h <;> cases h
        rfl
      | write c v => exact mapRead_of_busWrite_ne (s := s.onBus rest .written s.draws) hw hev.1 hev.2 h
    | writeAndRead c v =>
      exact mapRead_of_busWrite_ne (s := s.onBus rest (.writtenWith (Config.freeRdata s.draws)) (s.draws + 1))
        hw hev.1 hev.2 h
    | idle => cases h; rfl
    | reset => exact hev.elim
    | resetDuringCommand v => exact hev.elim

end Sys2Proof.Proofs
end

-- ==== Proofs: the bytes that are no command (30_encoding.md R100 to R103) ====
section
/-! The fields of a command byte as numbers, and the bytes that decode to illegal. -/

namespace Sys2Proof.Machine

/-- The field `zero` is clear exactly below 16. -/
theorem zeroField_eq_zero_iff (v : Byte) : zeroField v = 0 ↔ v.toNat < 16 := by
  have hv : v.toNat < 2 ^ 8 := v.isLt
  change zeroField v = 0#4 ↔ _
  rw [← BitVec.toNat_inj, zeroField, BitVec.extractLsb'_toNat, Nat.shiftRight_eq_div_pow, BitVec.toNat_ofNat]
  omega

/-- The field `op` is the byte modulo 16. -/
@[simp] theorem opField_toNat (v : Byte) : (opField v).toNat = v.toNat % 16 := by
  simp [opField]

/-- A byte outside 0x01 to 0x09 decodes to illegal, for its field `zero` or for its field `op`. -/
theorem decodeByte_eq_illegal {v : Byte} (h : v.toNat = 0 ∨ 9 < v.toNat) : decodeByte v = .illegal v := by
  rw [decodeByte]
  split
  next => rfl
  next hz =>
    have hlt : v.toNat < 16 := (zeroField_eq_zero_iff v).mp (not_not.mp hz)
    have hop : (opField v).toNat = v.toNat := by simp [Nat.mod_eq_of_lt hlt]
    split
    case h_10 => rfl
    all_goals omega

end Sys2Proof.Machine
end

-- ==== Proofs: the obligations of 30_encoding.md ====
section
/-! The statements of the family 30_encoding.md, settled from the layers above. -/

namespace Sys2Proof.Proofs

open Sys2Proof.Machine Sys2Proof.Claims

/-- Settles O1: each of the nine bytes decodes to its command, each other byte to illegal, and the lock answers all. -/
theorem decoderFollowsOpcodeMap : Obligations.DecoderFollowsOpcodeMap := by
  refine ⟨fun v => ?_, fun s v hf => ?_⟩
  · split_ifs
    case neg => exact decodeByte_eq_illegal (by bv_omega)
    all_goals subst v; rfl
  · exact exec_locked (decodeByte v) (s := { s with cmd := v }) hf

end Sys2Proof.Proofs
end

-- ==== Proofs: the multiplier (40_field_arithmetic.md R121 to R126) ====
section
/-! The multiplier is linear over GF(2) in each operand, so what it does to the eight bytes with one bit set decides what it does to
every byte. The field laws, the network of R124 and the pseudocode of R123 follow from that. -/

namespace Sys2Proof.Machine

/-! ### Field addition -/

theorem gfAdd_comm (x y : Byte) : gfAdd x y = gfAdd y x := BitVec.xor_comm x y
theorem gfAdd_assoc (x y z : Byte) : gfAdd (gfAdd x y) z = gfAdd x (gfAdd y z) := BitVec.xor_assoc x y z
theorem gfAdd_zero (x : Byte) : gfAdd x 0x00 = x := BitVec.xor_zero
theorem zero_gfAdd (x : Byte) : gfAdd 0x00 x = x := BitVec.zero_xor
@[simp] theorem gfAdd_self (x : Byte) : gfAdd x x = 0x00 := BitVec.xor_self

@[simp] theorem getLsbD_gfAdd (x y : Byte) (i : Nat) : (gfAdd x y).getLsbD i = xor (x.getLsbD i) (y.getLsbD i) :=
  BitVec.getLsbD_xor

/-! ### Linear functions of a byte -/

/-- A function that keeps field addition: a linear map over GF(2). -/
def XorLinear (f : Byte → Byte) : Prop := ∀ x y, f (gfAdd x y) = gfAdd (f x) (f y)

theorem XorLinear.map_zero {f : Byte → Byte} (hf : XorLinear f) : f 0x00 = 0x00 := by
  have h : f 0x00 = gfAdd (f 0x00) (f 0x00) := hf 0x00 0x00
  rwa [gfAdd_self] at h

theorem XorLinear.comp {f g : Byte → Byte} (hf : XorLinear f) (hg : XorLinear g) : XorLinear fun x => f (g x) :=
  fun x y => (congrArg f (hg x y)).trans (hf (g x) (g y))

theorem XorLinear.map_xorSum {f : Byte → Byte} (hf : XorLinear f) (xs : List Byte) :
    f (xorSum xs) = xorSum (xs.map f) := by
  induction xs with
  | nil => exact hf.map_zero
  | cons x xs ih => rw [xorSum_cons, hf, ih, List.map_cons, xorSum_cons]

/-- The byte with bit `i` set alone, the monomial x^i (40_field_arithmetic.md R120). -/
def unitByte (i : Nat) : Byte := 1#8 <<< i

/-- Every byte is the sum of the monomials of its set bits. -/
theorem eq_xorSum_unitBytes : ∀ x : Byte, x = xorSum (((List.range 8).filter x.getLsbD).map unitByte) := by
  decide +kernel

/-- Linear functions that agree on the eight monomials agree. -/
theorem XorLinear.ext {f g : Byte → Byte} (hf : XorLinear f) (hg : XorLinear g)
    (h : ∀ i < 8, f (unitByte i) = g (unitByte i)) (x : Byte) : f x = g x := by
  rw [eq_xorSum_unitBytes x, hf.map_xorSum, hg.map_xorSum, List.map_map, List.map_map]
  congr 1
  refine List.map_congr_left fun i hi => h i ?_
  simpa using (List.mem_filter.mp hi).1

/-- A function of two bytes that is linear in each. -/
structure XorBilinear (f : Byte → Byte → Byte) : Prop where
  left : ∀ y, XorLinear fun x => f x y
  right : ∀ x, XorLinear (f x)

theorem XorBilinear.flip {f : Byte → Byte → Byte} (hf : XorBilinear f) : XorBilinear fun x y => f y x :=
  ⟨hf.right, hf.left⟩

/-- Bilinear functions that agree on the 64 pairs of monomials agree. -/
theorem XorBilinear.ext {f g : Byte → Byte → Byte} (hf : XorBilinear f) (hg : XorBilinear g)
    (h : ∀ i < 8, ∀ j < 8, f (unitByte i) (unitByte j) = g (unitByte i) (unitByte j)) (x y : Byte) : f x y = g x y :=
  (hf.left y).ext (hg.left y) (fun i hi => (hf.right _).ext (hg.right _) (h i hi) y) x

/-! ### The two loops of the multiplier are linear (R123) -/

/-- Multiplying by a bit is keeping the number or dropping it. -/
theorem bitOf_mul (v i z : Nat) : bitOf v i * z = if v.testBit i then z else 0 := by
  rw [Nat.testBit_eq_decide_div_mod_eq, bitOf, Nat.shiftRight_eq_div_pow]
  rcases Nat.mod_two_eq_zero_or_one (v / 2 ^ i) with h | h <;> simp [h]

theorem bitOf_xor_mul (v w i z : Nat) : bitOf (v ^^^ w) i * z = bitOf v i * z ^^^ bitOf w i * z := by
  simp only [bitOf_mul, Nat.testBit_xor]
  cases v.testBit i <;> cases w.testBit i <;> simp

theorem bitOf_mul_xor (v i z z' : Nat) : bitOf v i * (z ^^^ z') = bitOf v i * z ^^^ bitOf v i * z' := by
  simp only [bitOf_mul]
  split <;> simp

theorem xor_xor_xor_comm (p q s t : Nat) : (p ^^^ q) ^^^ (s ^^^ t) = (p ^^^ s) ^^^ (q ^^^ t) := by
  ac_rfl

theorem clmul_xor_left (x x' y n : Nat) : clmul (x ^^^ x') y n = clmul x y n ^^^ clmul x' y n := by
  induction n with
  | zero => exact (Nat.xor_self 0).symm
  | succ n ih => rw [clmul, ih, Nat.shiftLeft_xor_distrib, bitOf_mul_xor, xor_xor_xor_comm]; rfl

theorem clmul_xor_right (x y y' n : Nat) : clmul x (y ^^^ y') n = clmul x y n ^^^ clmul x y' n := by
  induction n with
  | zero => exact (Nat.xor_self 0).symm
  | succ n ih => rw [clmul, ih, bitOf_xor_mul, xor_xor_xor_comm]; rfl

theorem reduceModP_xor (p q n : Nat) : reduceModP (p ^^^ q) n = reduceModP p n ^^^ reduceModP q n := by
  induction n generalizing p q with
  | zero => rfl
  | succ n ih => rw [reduceModP, bitOf_xor_mul, xor_xor_xor_comm, ih]; rfl

theorem xorBilinear_gfMul : XorBilinear gfMul where
  left y x x' := by
    simp only [gfMul, gfAdd, BitVec.toNat_xor, clmul_xor_left, reduceModP_xor, BitVec.ofNat_xor]
  right x y y' := by
    simp only [gfMul, gfAdd, BitVec.toNat_xor, clmul_xor_right, reduceModP_xor, BitVec.ofNat_xor]

/-! ### The laws of multiplication (R126) -/

theorem gfMul_add (x y z : Byte) : gfMul x (gfAdd y z) = gfAdd (gfMul x y) (gfMul x z) :=
  xorBilinear_gfMul.right x y z

theorem add_gfMul (x y z : Byte) : gfMul (gfAdd x y) z = gfAdd (gfMul x z) (gfMul y z) :=
  xorBilinear_gfMul.left z x y

theorem gfMul_zero (x : Byte) : gfMul x 0x00 = 0x00 := (xorBilinear_gfMul.right x).map_zero
theorem zero_gfMul (x : Byte) : gfMul 0x00 x = 0x00 := (xorBilinear_gfMul.left x).map_zero

theorem gfMul_comm (x y : Byte) : gfMul x y = gfMul y x :=
  xorBilinear_gfMul.ext xorBilinear_gfMul.flip (by decide +kernel) x y

theorem gfMul_assoc (x y z : Byte) : gfMul (gfMul x y) z = gfMul x (gfMul y z) := by
  have hmul := xorBilinear_gfMul
  have hleft : XorBilinear fun x y => gfMul (gfMul x y) z :=
    ⟨fun y => (hmul.left z).comp (hmul.left y), fun x => (hmul.left z).comp (hmul.right x)⟩
  have hright : XorBilinear fun x y => gfMul x (gfMul y z) :=
    ⟨fun y => hmul.left (gfMul y z), fun x => (hmul.right x).comp (hmul.left z)⟩
  refine hleft.ext hright (fun i hi j hj => ?_) x y
  have hunits : ∀ i < 8, ∀ j < 8, ∀ k < 8, gfMul (gfMul (unitByte i) (unitByte j)) (unitByte k) =
      gfMul (unitByte i) (gfMul (unitByte j) (unitByte k)) := by decide +kernel
  exact (hmul.right _).ext ((hmul.right _).comp (hmul.right _)) (hunits i hi j hj) z

theorem gfMul_one (x : Byte) : gfMul x 0x01 = x :=
  (xorBilinear_gfMul.left 0x01).ext (g := id) (fun _ _ => rfl) (by decide +kernel) x

theorem one_gfMul (x : Byte) : gfMul 0x01 x = x := by rw [gfMul_comm, gfMul_one]

/-! ### The pseudocode on a 15-bit product (R123) -/

open Sys2Proof.Claims (carrylessProduct reducedProduct mul)

/-- One round of the first loop on 15 bits: a shift by at most 7 loses no bit of the operand. -/
theorem toNat_multiply_bit (p : BitVec 15) (x y : Byte) {i : Nat} (hi : i < 8) :
    (if y.getLsbD i then p ^^^ (x.setWidth 15 <<< i) else p).toNat =
      p.toNat ^^^ bitOf y.toNat i * (x.toNat <<< i) := by
  have hx : x.toNat % 2 ^ 15 = x.toNat := Nat.mod_eq_of_lt (by omega)
  have hfit : x.toNat <<< i < 2 ^ 15 :=
    (Nat.shiftLeft_lt x.isLt).trans_le (Nat.pow_le_pow_right two_pos (by omega))
  rw [bitOf_mul, BitVec.testBit_toNat]
  split
  · rw [BitVec.toNat_xor, BitVec.toNat_shiftLeft, BitVec.toNat_setWidth, hx, Nat.mod_eq_of_lt hfit]
  · rw [Nat.xor_zero]

/-- The first loop on 15 bits computes the model's number, after every round. -/
theorem toNat_multiplyLoop (x y : Byte) {n : Nat} (hn : n ≤ 8) :
    ((List.range n).foldl
      (fun (p : BitVec 15) i => if y.getLsbD i then p ^^^ (x.setWidth 15 <<< i) else p) 0).toNat =
      clmul x.toNat y.toNat n := by
  induction n with
  | zero => rfl
  | succ n ih =>
    rw [List.range_succ, List.foldl_append, List.foldl_cons, List.foldl_nil, toNat_multiply_bit _ x y hn,
      ih (by omega), clmul]

/-- One round of the second loop on 15 bits. -/
theorem toNat_reduce_bit (p : BitVec 15) {i : Nat} (hi : i ≤ 6) :
    (if p.getLsbD (8 + i) then p ^^^ (0x11D#15 <<< i) else p).toNat =
      p.toNat ^^^ bitOf p.toNat (8 + i) * (modulusP <<< i) := by
  have hfit : modulusP <<< i < 2 ^ 15 := by decide +revert
  rw [bitOf_mul, BitVec.testBit_toNat]
  split
  · rw [BitVec.toNat_xor, BitVec.toNat_shiftLeft]
    exact congrArg _ (Nat.mod_eq_of_lt hfit)
  · rw [Nat.xor_zero]

/-- The second loop on 15 bits computes the model's number. -/
theorem toNat_reducedProduct (p : BitVec 15) : (reducedProduct p).toNat = reduceModP p.toNat 7 := by
  simp only [reducedProduct, List.foldl_cons, List.foldl_nil, reduceModP]
  rw [← toNat_reduce_bit p (i := 6), ← toNat_reduce_bit _ (i := 5), ← toNat_reduce_bit _ (i := 4),
    ← toNat_reduce_bit _ (i := 3), ← toNat_reduce_bit _ (i := 2), ← toNat_reduce_bit _ (i := 1),
    ← toNat_reduce_bit _ (i := 0)]
  all_goals omega

theorem gfMul_eq_mul (x y : Byte) : gfMul x y = mul x y := by
  apply BitVec.eq_of_toNat_eq
  rw [gfMul, mul, BitVec.extractLsb'_toNat, toNat_reducedProduct, carrylessProduct,
    toNat_multiplyLoop x y le_rfl, BitVec.toNat_ofNat,
    Nat.shiftRight_zero]

/-! ### The network (R124) -/

/-- An exclusive or of exclusive ors splits in two. -/
theorem foldr_xor_xor (l : List Nat) (f g : Nat → Bool) :
    l.foldr (fun i acc => xor (xor (f i) (g i)) acc) false =
      xor (l.foldr (fun i acc => xor (f i) acc) false) (l.foldr (fun i acc => xor (g i) acc) false) := by
  induction l with
  | nil => rfl
  | cons i l ih =>
    rw [List.foldr_cons, ih]
    simp only [List.foldr_cons, Bool.xor_assoc, Bool.xor_left_comm]

theorem networkProductBit_add_left (x x' y : Byte) (m : Nat) :
    networkProductBit (gfAdd x x') y m = xor (networkProductBit x y m) (networkProductBit x' y m) := by
  simp only [networkProductBit, getLsbD_gfAdd, Bool.and_xor_distrib_right, foldr_xor_xor]

theorem networkProductBit_add_right (x y y' : Byte) (m : Nat) :
    networkProductBit x (gfAdd y y') m = xor (networkProductBit x y m) (networkProductBit x y' m) := by
  simp only [networkProductBit, getLsbD_gfAdd, Bool.and_xor_distrib_left, foldr_xor_xor]

/-- Bit `n` of the network's output is its result bit `n`. -/
theorem getLsbD_networkMul (x y : Byte) {n : Nat} (hn : n < 8) : (networkMul x y).getLsbD n = networkBit x y n := by
  rw [networkMul]
  generalize networkBit x y = bit
  interval_cases n <;> simp [List.range_succ]

theorem xorBilinear_networkMul : XorBilinear networkMul where
  left y x x' := BitVec.eq_of_getLsbD_eq fun n hn => by
    simp only [getLsbD_gfAdd, getLsbD_networkMul _ _ hn, networkBit, networkProductBit_add_left, foldr_xor_xor]
  right x y y' := BitVec.eq_of_getLsbD_eq fun n hn => by
    simp only [getLsbD_gfAdd, getLsbD_networkMul _ _ hn, networkBit, networkProductBit_add_right, foldr_xor_xor]

theorem networkMul_eq_gfMul (x y : Byte) : networkMul x y = gfMul x y :=
  xorBilinear_networkMul.ext xorBilinear_gfMul (by decide +kernel) x y

end Sys2Proof.Machine
end

-- ==== Proofs: inverses, powers and logarithms (40_field_arithmetic.md R127 to R134) ====
section
/-! The inverse and cancellation, the laws of powers, and that the powers of alpha run through every nonzero element once. -/

namespace Sys2Proof.Machine

/-! ### Inverses (R127) -/

theorem gfMul_gfInv {x : Byte} (hx : x ≠ 0x00) : gfMul x (gfInv x) = 0x01 := by
  rw [gfInv_of_ne_zero hx, gfMul_invTable x hx]

/-- A nonzero factor cancels: multiply by its inverse. -/
theorem gfMul_left_cancel {x y z : Byte} (hx : x ≠ 0x00) (h : gfMul x y = gfMul x z) : y = z := by
  have hone (w : Byte) : gfMul (gfInv x) (gfMul x w) = w := by
    rw [← gfMul_assoc, gfMul_comm (gfInv x), gfMul_gfInv hx, one_gfMul]
  rw [← hone y, h, hone]

theorem gfInv_unique {x y : Byte} (hx : x ≠ 0x00) (h : gfMul x y = 0x01) : y = gfInv x :=
  gfMul_left_cancel hx (h.trans (gfMul_gfInv hx).symm)

theorem ne_zero_of_gfMul_eq_one {x y : Byte} (h : gfMul x y = 0x01) : y ≠ 0x00 := by
  rintro rfl
  exact absurd ((gfMul_zero x).symm.trans h) (by decide)

theorem gfMul_eq_zero {x y : Byte} (h : gfMul x y = 0x00) : x = 0x00 ∨ y = 0x00 :=
  or_iff_not_imp_left.mpr fun hx => gfMul_left_cancel hx (h.trans (gfMul_zero x).symm)

/-! ### Powers (R130, R133) -/

theorem gfPow_eq_iterate (x : Byte) (n : Nat) : gfPow x n = (fun acc => gfMul acc x)^[n] 0x01 := by
  induction n with
  | zero => rfl
  | succ n ih => rw [gfPow_succ, ih, Function.iterate_succ_apply']

theorem zero_gfPow {n : Nat} (hn : n ≠ 0) : gfPow 0x00 n = 0x00 := by
  obtain ⟨m, rfl⟩ := Nat.exists_eq_succ_of_ne_zero hn
  exact gfMul_zero _

theorem one_gfPow (n : Nat) : gfPow 0x01 n = 0x01 := by
  induction n with
  | zero => rfl
  | succ n ih => rw [gfPow_succ, ih, gfMul_one]

theorem gfPow_add (x : Byte) (m n : Nat) : gfPow x (m + n) = gfMul (gfPow x m) (gfPow x n) := by
  induction n with
  | zero => exact (gfMul_one _).symm
  | succ n ih => rw [← Nat.add_assoc, gfPow_succ, ih, gfMul_assoc, gfPow_succ]

theorem gfPow_mul (x : Byte) (m n : Nat) : gfPow x (m * n) = gfPow (gfPow x m) n := by
  induction n with
  | zero => rfl
  | succ n ih => rw [Nat.mul_succ, gfPow_add, ih, gfPow_succ]

theorem gfPow_ne_zero {x : Byte} (hx : x ≠ 0x00) (n : Nat) : gfPow x n ≠ 0x00 := by
  induction n with
  | zero => exact (by decide : (0x01 : Byte) ≠ 0x00)
  | succ n ih => exact fun h => (gfMul_eq_zero h).elim ih hx

/-! ### The order of alpha (R134) -/

theorem alpha_pow_255 : gfPow alpha 255 = 0x01 := by decide +kernel

/-- No power below 255 but the 0th is 1: EXP lists 1 at index 0 alone. -/
theorem alpha_pow_ne_one {e : Nat} (hpos : 0 < e) (hlt : e < 255) : gfPow alpha e ≠ 0x01 := by
  have htable : ∀ e < 255, 0 < e → expTable e ≠ 0x01 := by decide +kernel
  exact expTable_eq_pow e hlt ▸ htable e hlt hpos

theorem alpha_pow_ne_zero (e : Nat) : gfPow alpha e ≠ 0x00 := gfPow_ne_zero (by decide) e

/-- Exponents of alpha count modulo 255. -/
theorem alpha_pow_mod (e : Nat) : gfPow alpha (e % 255) = gfPow alpha e := by
  conv_rhs => rw [← Nat.div_add_mod e 255, gfPow_add, gfPow_mul, alpha_pow_255, one_gfPow, one_gfMul]

theorem expTable_mod_eq_pow (e : Nat) : expTable (e % 255) = gfPow alpha e := by
  rw [expTable_eq_pow _ (Nat.mod_lt e (by decide)), alpha_pow_mod]

theorem alphaPow_natCast (e : Nat) : alphaPow e = gfPow alpha e := by
  rw [alphaPow_eq_pow, ← alpha_pow_mod e]
  congr 1

theorem locatorValue_eq_pow {n p : Nat} (h : p < n) : locatorValue n p = gfPow alpha (n - 1 - p) := by
  rw [locatorValue, ← alphaPow_natCast]
  congr 1
  omega

/-- The powers below 255 are distinct: the quotient of two equal ones would be a smaller power that is 1. -/
theorem alpha_pow_injOn {i j : Nat} (hi : i < 255) (hj : j < 255) (h : gfPow alpha i = gfPow alpha j) : i = j := by
  wlog hle : i ≤ j generalizing i j
  · exact (this hj hi h.symm (by omega)).symm
  have hquot : gfPow alpha (j - i) = 0x01 := by
    apply gfMul_left_cancel (alpha_pow_ne_zero i)
    rw [← gfPow_add, Nat.add_sub_cancel' hle, ← h, gfMul_one]
  by_contra hne
  exact alpha_pow_ne_one (by omega) (by omega) hquot

/-! ### Logarithms (R132) -/

/-- Every nonzero element is a power of alpha: 255 distinct powers fill the 255 nonzero elements. -/
theorem exists_alpha_pow {x : Byte} (hx : x ≠ 0x00) : ∃ l < 255, gfPow alpha l = x := by
  have hmaps : Set.MapsTo (gfPow alpha) (Finset.range 255) (Finset.univ.erase (0x00 : Byte)) :=
    fun i _ => by simpa using alpha_pow_ne_zero i
  have hinj : Set.InjOn (gfPow alpha) (Finset.range 255) :=
    fun i hi j hj => alpha_pow_injOn (by simpa using hi) (by simpa using hj)
  have hcard : (Finset.univ.erase (0x00 : Byte)).card ≤ (Finset.range 255).card := by
    rw [Finset.card_erase_of_mem (Finset.mem_univ _), Finset.card_univ, ← FinEnum.card_eq_fintypeCard,
      FinEnum.card_bitVec, Finset.card_range]
    decide
  simpa using Finset.surjOn_of_injOn_of_card_le _ hmaps hinj hcard (a := x) (by simpa using hx)

theorem gfLog_alpha_pow {l : Nat} (hl : l < 255) : gfLog (gfPow alpha l) = some l := by
  refine List.find?_range_eq_some.mpr ⟨?_, List.mem_range.mpr hl, fun j hj => ?_⟩
  · simp [expTable_eq_pow l hl]
  · have hne : gfPow alpha j ≠ gfPow alpha l := fun h => hj.ne (alpha_pow_injOn (by omega) hl h)
    simpa [expTable_eq_pow j (by omega)] using hne

/-- A nonzero element has a logarithm, and is alpha to it. -/
theorem exists_gfLog {x : Byte} (hx : x ≠ 0x00) : ∃ l < 255, gfLog x = some l ∧ x = gfPow alpha l := by
  obtain ⟨l, hl, rfl⟩ := exists_alpha_pow hx
  exact ⟨l, hl, gfLog_alpha_pow hl, rfl⟩

theorem gfPow_255 {x : Byte} (hx : x ≠ 0x00) : gfPow x 255 = 0x01 := by
  obtain ⟨l, -, rfl⟩ := exists_alpha_pow hx
  rw [← gfPow_mul, Nat.mul_comm, gfPow_mul, alpha_pow_255, one_gfPow]

theorem gfInv_eq_pow {x : Byte} (hx : x ≠ 0x00) : gfInv x = gfPow x 254 :=
  (gfInv_unique hx (by rw [gfMul_comm, ← gfPow_succ, gfPow_255 hx])).symm

theorem gfInv_alpha_pow {l : Nat} (hl : l ≤ 255) : gfInv (gfPow alpha l) = gfPow alpha (255 - l) :=
  (gfInv_unique (alpha_pow_ne_zero l) (by rw [← gfPow_add, Nat.add_sub_cancel' hl, alpha_pow_255])).symm

/-! ### The field commands on a core that is not locked -/

theorem exec_unlocked {s : State} (i : Instr) (h : s.fatal = false) : exec i s = outcomeOf (commandBody i s) :=
  exec_eq_runCommand_commandBody i s ▸ runCommand_unlocked s _ h

theorem commandBody_gfInv_ne_zero {s : State} (ha : s.a ≠ 0x00) :
    commandBody .gfInv s = .ok (s.setRes (gfInv s.a)).finishOk :=
  if_neg ha

end Sys2Proof.Machine
end

-- ==== Proofs: the obligations of 40_field_arithmetic.md ====
section
/-! The statements of the family 40_field_arithmetic.md, settled from the layers above. -/

namespace Sys2Proof.Proofs

open Sys2Proof.Machine Sys2Proof.Claims

/-- Settles O12: the model's two loops compute what the rule's compute on 15 bits. -/
theorem gfMulWritesTheProduct : Obligations.GfMulWritesTheProduct := by
  intro s hf
  rw [exec_unlocked .gfMul hf, ← gfMul_eq_mul]
  rfl

/-- Settles O14: both multipliers are bilinear and agree on the monomials. -/
theorem multiplierNetworkIsEquivalent : Obligations.MultiplierNetworkIsEquivalent :=
  networkMul_eq_gfMul

/-- Settles O15: the laws of exclusive or, the bilinear multiplier, and the inverse against zero divisors. -/
theorem fieldLawsHold : Obligations.FieldLawsHold := fun a b c =>
  ⟨gfAdd_comm a b, gfAdd_assoc a b c, gfAdd_zero a, gfAdd_self a, gfMul_comm a b, gfMul_add a b c, gfMul_assoc a b c,
    gfMul_one a, gfMul_zero a, gfMul_eq_zero⟩

/-- Settles O16: the inverse is the table's entry, and the only one because a nonzero factor cancels. -/
theorem gfInvWritesTheOneInverse : Obligations.GfInvWritesTheOneInverse := by
  intro s hf
  rw [exec_unlocked .gfInv hf]
  refine ⟨fun ha => ?_, fun ha => ?_⟩
  · have hinv : gfMul s.a (gfInv s.a) = 0x01 := gfMul_gfInv ha
    refine ⟨gfInv s.a, ne_zero_of_gfMul_eq_one hinv, hinv, fun z => gfInv_unique ha, ?_⟩
    rw [commandBody_gfInv_ne_zero ha]
    rfl
  · rw [commandBody_gfInv_zero ha]
    rfl

/-- Settles O17: the power is the iterated product, and a nonzero element is a power of alpha, whose order divides 255. -/
theorem gfPowWritesThePower : Obligations.GfPowWritesThePower := by
  intro s hf
  refine ⟨gfPow s.a s.exponent, gfPow_eq_iterate s.a _, exec_unlocked .gfPow hf, fun he => ?_, fun ha he => ?_,
    fun ha he => ?_⟩
  · rw [State.exponent, he]
    rfl
  · rw [ha]
    exact zero_gfPow fun h => he (BitVec.eq_of_toNat_eq h)
  · rw [State.exponent, he, gfPow_255 ha]

/-- Settles O18: with `a` written as alpha to its logarithm, each law is a law of exponents modulo 255. -/
theorem powerAndTableLawsHold : Obligations.PowerAndTableLawsHold := by
  intro a ha
  obtain ⟨l, hl, hlog, hal⟩ := exists_gfLog ha
  refine ⟨l, hl, hlog, fun e => ?_, gfPow_add a, gfPow_255 ha, gfInv_eq_pow ha, ?_, fun b hb => ?_⟩
  · rw [expTable_mod_eq_pow, gfPow_mul, hal]
  · rw [expTable_mod_eq_pow, hal, gfInv_alpha_pow hl.le]
  · obtain ⟨m, -, hm, hbm⟩ := exists_gfLog hb
    exact ⟨m, hm, by rw [expTable_mod_eq_pow, gfPow_add, hal, hbm]⟩

/-- Settles O19: the powers of alpha below 255 are distinct and nonzero. -/
theorem alphaHasOrder255 : Obligations.AlphaHasOrder255 := by
  refine ⟨fun i j hi hj h => ?_, fun i hi => ?_, alpha_pow_255, fun _ => alpha_pow_ne_one, fun r hr i j hi hj h => ?_,
    fun n hn p q hp hq h => ?_⟩
  · rw [expTable_eq_pow i hi, expTable_eq_pow j hj] at h
    exact alpha_pow_injOn hi hj h
  · rw [expTable_eq_pow i hi]
    exact alpha_pow_ne_zero i
  · rw [alphaPow_natCast, alphaPow_natCast] at h
    exact alpha_pow_injOn (by omega) (by omega) h
  · rw [locatorValue_eq_pow hp, locatorValue_eq_pow hq] at h
    have hexp : n - 1 - p = n - 1 - q := alpha_pow_injOn (by omega) (by omega) h
    omega

/-- Settles O11: the body of GF_ADD behind the lock check. -/
theorem gfAddWritesTheSum : Obligations.GfAddWritesTheSum := fun _ hf => exec_unlocked .gfAdd hf

end Sys2Proof.Proofs
end

-- ==== Proofs: the parameter check (41_encoder.md R151) ====
section
/-! Which result codes the commands that check K and R end with, on either side of the check. -/

namespace Sys2Proof.Machine

open Sys2Proof.Claims

theorem paramsOk_iff_validParams (s : State) : s.paramsOk = true ↔ ValidParams s := by
  simp only [State.paramsOk, paramsOk, Bool.and_eq_true, decide_eq_true_eq, and_assoc]
  rfl

/-- The commands that begin with the check of K and R (41_encoder.md R151). -/
def Instr.checksParams (i : Instr) : Prop := i = .encode ∨ i = .syndrome ∨ i = .decode

/-- With invalid parameters they report it and do nothing else. -/
theorem commandBody_of_not_paramsOk {i : Instr} (hi : Instr.checksParams i) {s : State} (hp : s.paramsOk = false) :
    commandBody i s = .ok (s.raise .invalidParameters) := by
  obtain rfl | rfl | rfl := hi
  · simp [commandBody, encodeBody, hp]
  · simp [commandBody, syndromeBody, hp]
  · simp [commandBody, decodeBody, syndromeBody, hp, thenStage]

theorem encodeBody_result {s t : State} (hp : s.paramsOk = true) (h : encodeBody s = .ok t) : t.result = .ok := by
  obtain ⟨hbad, -⟩ | ⟨d, -, -, -, rfl⟩ := encodeBody_cases h
  · simp [hp] at hbad
  · rfl

theorem syndromeBody_result {s t : State} (hp : s.paramsOk = true) (h : syndromeBody s = .ok t) :
    t.result = .ok := by
  obtain ⟨hbad, -⟩ | ⟨cw, -, -, rfl⟩ := syndromeBody_cases h
  · simp [hp] at hbad
  · rfl

theorem locateBody_result {s t : State} (h : locateBody s = .ok t) : t.result ∈ raisable .locate := by
  obtain ⟨-, rfl⟩ | ⟨syn, -, -, -, ⟨-, rfl⟩ | ⟨-, rfl⟩⟩ := locateBody_cases h <;> simp [raisable]

theorem correctBody_result {s t : State} (h : correctBody s = .ok t) : t.result ∈ raisable .correct := by
  obtain ⟨-, rfl⟩ | ⟨lam, -, -, ⟨-, rfl⟩ | ⟨-, syn, u, w, -, -, -, rfl⟩⟩ := correctBody_cases h <;> simp [raisable]

/-- No stage of DECODE reports invalid parameters once SYNDROME's check has passed. -/
theorem decodeBody_result_ne {s t : State} (hp : s.paramsOk = true) (h : decodeBody s = .ok t) :
    t.result ≠ .invalidParameters := by
  refine thenStage_preserves h (fun u hu => thenStage_preserves (P := fun u => u.result ≠ .invalidParameters) hu
    (fun w hw => ?_) fun w x _ hx => ?_) fun u w _ hw => ?_
  · simp [syndromeBody_result hp hw]
  · exact fun hbad => absurd (hbad ▸ locateBody_result hx) (by decide)
  · exact fun hbad => absurd (hbad ▸ correctBody_result hw) (by decide)

/-- With valid parameters they never report them as invalid. -/
theorem commandBody_result_ne_of_paramsOk {i : Instr} (hi : Instr.checksParams i) {s t : State}
    (hp : s.paramsOk = true) (h : commandBody i s = .ok t) : t.result ≠ .invalidParameters := by
  obtain rfl | rfl | rfl := hi
  · simp [encodeBody_result hp h]
  · simp [syndromeBody_result hp h]
  · exact decodeBody_result_ne hp h

end Sys2Proof.Machine
end

-- ==== Proofs: polynomials and the generator (41_encoder.md R152) ====
section
/-! Polynomial evaluation is linear in the coefficients and turns `mulLinear` into multiplication by x ⊕ c, so the generator
evaluates to the product of its factors. -/

namespace Sys2Proof.Machine

/-! ### Rearranging sums and products -/

theorem gfAdd_left_comm (x y z : Byte) : gfAdd x (gfAdd y z) = gfAdd y (gfAdd x z) := by
  rw [← gfAdd_assoc, gfAdd_comm x y, gfAdd_assoc]

theorem gfMul_left_comm (x y z : Byte) : gfMul x (gfMul y z) = gfMul y (gfMul x z) := by
  rw [← gfMul_assoc, gfMul_comm x y, gfMul_assoc]

theorem gfAdd_eq_zero_iff (x y : Byte) : gfAdd x y = 0x00 ↔ x = y := BitVec.xor_eq_zero_iff

/-- The sum of two sums, paired the other way. -/
theorem gfAdd_gfAdd_gfAdd_comm (x y z w : Byte) :
    gfAdd (gfAdd x y) (gfAdd z w) = gfAdd (gfAdd x z) (gfAdd y w) := by
  rw [gfAdd_assoc, gfAdd_left_comm y, ← gfAdd_assoc]

/-! ### Evaluation is linear in the coefficients (00_scope.md R14) -/

theorem polyEval_zipWith_gfAdd {p q : List Byte} (h : p.length = q.length) (x : Byte) :
    polyEval (List.zipWith gfAdd p q) x = gfAdd (polyEval p x) (polyEval q x) := by
  induction p generalizing q with
  | nil =>
    obtain rfl := List.length_eq_zero_iff.mp h.symm
    exact (gfAdd_self _).symm
  | cons c p ih =>
    obtain ⟨e, q, rfl⟩ := List.exists_cons_of_length_eq_add_one h.symm
    rw [List.zipWith_cons_cons, polyEval_cons, ih (Nat.succ.inj h), gfMul_add, gfAdd_gfAdd_gfAdd_comm]
    rfl

theorem polyEval_map_gfMul (c : Byte) (p : List Byte) (x : Byte) :
    polyEval (p.map (gfMul c)) x = gfMul c (polyEval p x) := by
  induction p with
  | nil => exact (gfMul_zero c).symm
  | cons e p ih => rw [List.map_cons, polyEval_cons, ih, gfMul_left_comm, ← gfMul_add, polyEval_cons]

/-- Coefficients after the first `p.length` stand `p.length` degrees higher. -/
theorem polyEval_append (p q : List Byte) (x : Byte) :
    polyEval (p ++ q) x = gfAdd (polyEval p x) (gfMul (gfPow x p.length) (polyEval q x)) := by
  induction p with
  | nil => rw [List.nil_append, polyEval_nil, zero_gfAdd, List.length_nil, gfPow_zero, one_gfMul]
  | cons c p ih =>
    rw [List.cons_append, polyEval_cons, ih, gfMul_add, ← gfAdd_assoc, ← gfMul_assoc, gfMul_comm x (gfPow x _)]
    rfl

theorem polyEval_singleton (c x : Byte) : polyEval [c] x = c := by
  rw [polyEval_cons, polyEval_nil, gfMul_zero, gfAdd_zero]

/-- A zero coefficient at the top adds nothing. -/
theorem polyEval_append_zero (p : List Byte) (x : Byte) : polyEval (p ++ [0x00]) x = polyEval p x := by
  rw [polyEval_append, polyEval_singleton, gfMul_zero, gfAdd_zero]

theorem polyEval_mulLinear (c : Byte) (p : List Byte) (x : Byte) :
    polyEval (mulLinear c p) x = gfMul (polyEval p x) (gfAdd x c) := by
  rw [mulLinear, polyEval_zipWith_gfAdd (by simp), polyEval_append_zero, polyEval_map_gfMul, polyEval_cons, zero_gfAdd,
    ← add_gfMul, gfMul_comm]

/-! ### The generator -/

/-- The value of the generator is the product of its factors x ⊕ α^j. -/
theorem polyEval_generator (r : Nat) (x : Byte) :
    polyEval (generator r) x = (List.range r).foldl (fun acc (j : Nat) => gfMul acc (gfAdd x (alphaPow j))) 0x01 := by
  induction r with
  | zero => exact polyEval_singleton 0x01 x
  | succ r ih => rw [generator, polyEval_mulLinear, ih, List.range_succ, List.foldl_concat]

theorem polyEval_generator_eq_zero_iff (r : Nat) (x : Byte) :
    polyEval (generator r) x = 0x00 ↔ ∃ j : Nat, j < r ∧ x = alphaPow j := by
  induction r with
  | zero =>
    have h : polyEval (generator 0) x = 0x01 := polyEval_generator 0 x
    simp [h]
  | succ r ih =>
    have hfactor : polyEval (generator (r + 1)) x = 0x00 ↔ polyEval (generator r) x = 0x00 ∨ x = alphaPow r := by
      rw [generator, polyEval_mulLinear, ← gfAdd_eq_zero_iff x]
      refine ⟨gfMul_eq_zero, ?_⟩
      rintro (h | h)
      · rw [h, zero_gfMul]
      · rw [h, gfMul_zero]
    simp only [hfactor, ih, Nat.lt_succ_iff_lt_or_eq, or_and_right, exists_or, exists_eq_left]

/-- Multiplying by x ⊕ c keeps the leading coefficient. -/
theorem mulLinear_getD_length (c : Byte) {p : List Byte} {n : Nat} (h : p.length = n + 1) :
    (mulLinear c p).getD (n + 1) 0x00 = p.getD n 0x00 := by
  simpa [mulLinear, h] using gfAdd_zero _

/-- The generator is monic. -/
theorem generator_getD_self (r : Nat) : (generator r).getD r 0x00 = 0x01 := by
  induction r with
  | zero => rfl
  | succ r ih => rw [generator, mulLinear_getD_length _ (generator_length r), ih]

end Sys2Proof.Machine
end

-- ==== Proofs: the parity shift register (41_encoder.md R153) ====
section
/-! The model's register is a list, the rule's is a family of cells; and what the register holds after a data block completes
the block to a multiple of the generator. -/

namespace Sys2Proof.Machine

open Sys2Proof.Claims

/-! ### Cell by cell -/

/-- What one data byte does to every cell of the register (41_encoder.md R153). -/
def registerStep (r : Nat) (p : Nat → Byte) (x : Byte) (j : Nat) : Byte :=
  if j + 1 < r then gfAdd (p (j + 1)) (gfMul (gfAdd x (p 0)) ((generator r).getD (r - 1 - j) 0x00))
  else gfMul (gfAdd x (p 0)) ((generator r).getD 0 0x00)

theorem parityRegister_eq_foldl (d : List Byte) (r : Nat) :
    parityRegister d r = d.foldl (registerStep r) fun _ => 0x00 := rfl

/-- The first r cells of a register, as the list the model keeps. -/
def cells (r : Nat) (p : Nat → Byte) : List Byte := (List.range r).map p

theorem parityTaps_getElem {r j : Nat} (h : j < (parityTaps r).length) :
    (parityTaps r)[j] = (generator r).getD (r - 1 - j) 0x00 := by
  have hj : j < r := by simpa using h
  have hlt : r - 1 - j < (generator r).length := by rw [generator_length]; omega
  rw [List.getD_eq_getElem _ _ hlt]
  simp [parityTaps, List.getElem_reverse]

theorem cells_headD {r : Nat} (hr : 0 < r) (p : Nat → Byte) : (cells r p).headD 0x00 = p 0 := by
  obtain ⟨n, rfl⟩ := Nat.exists_eq_add_of_lt hr
  simp [cells, List.range_succ_eq_map]

theorem parityStep_cells {r : Nat} (hr : 0 < r) (p : Nat → Byte) (x : Byte) :
    parityStep (parityTaps r) (cells r p) x = cells r (registerStep r p x) := by
  refine List.ext_getElem (by simp [parityStep, cells]; omega) fun j hj hj' => ?_
  have hjr : j < r := by simpa [cells] using hj'
  simp only [parityStep, List.getElem_zipWith, cells_headD hr, parityTaps_getElem]
  by_cases hlast : j + 1 < r
  · simp [cells, registerStep, hlast, show j < r - 1 by omega]
  · simpa [cells, registerStep, hlast, List.getElem_append, show ¬j < r - 1 by omega, show r - 1 - j = 0 by omega]
      using zero_gfAdd _

/-- The model's register holds the rule's cells. -/
theorem parity_eq_cells (d : List Byte) {r : Nat} (hr : 0 < r) : parity d r = cells r (parityRegister d r) := by
  rw [parity, parityRegister_eq_foldl, show List.replicate r (0x00 : Byte) = cells r fun _ => 0x00 by simp [cells]]
  exact List.foldl_hom (cells r) fun p x => parityStep_cells hr p x

/-! ### Evaluation of a word, highest degree first (00_scope.md R15) -/

theorem codewordEval_concat (cw : List Byte) (c x : Byte) :
    codewordEval (cw ++ [c]) x = gfAdd (gfMul (codewordEval cw x) x) c := List.foldl_concat ..

/-- A word evaluates as the coefficient list read from its end. -/
theorem codewordEval_eq_polyEval_reverse (cw : List Byte) (x : Byte) :
    codewordEval cw x = polyEval cw.reverse x := by
  induction cw using List.reverseRecOn with
  | nil => rfl
  | append_singleton cw c ih =>
    rw [codewordEval_concat, ih, gfAdd_comm, gfMul_comm, List.reverse_concat, polyEval_cons]

/-- Positions before the last `q.length` stand `q.length` degrees higher. -/
theorem codewordEval_append (p q : List Byte) (x : Byte) :
    codewordEval (p ++ q) x = gfAdd (gfMul (codewordEval p x) (gfPow x q.length)) (codewordEval q x) := by
  simp only [codewordEval_eq_polyEval_reverse, List.reverse_append, polyEval_append, List.length_reverse]
  rw [gfAdd_comm, gfMul_comm]

theorem codewordEval_cons (c : Byte) (p : List Byte) (x : Byte) :
    codewordEval (c :: p) x = gfAdd (gfMul c (gfPow x p.length)) (codewordEval p x) := by
  have hc : codewordEval [c] x = c := by rw [codewordEval_eq_polyEval_reverse]; exact polyEval_singleton c x
  rw [← List.singleton_append, codewordEval_append, hc]

theorem codewordEval_zipWith_gfAdd {p q : List Byte} (h : p.length = q.length) (x : Byte) :
    codewordEval (List.zipWith gfAdd p q) x = gfAdd (codewordEval p x) (codewordEval q x) := by
  simp only [codewordEval_eq_polyEval_reverse]
  rw [← polyEval_zipWith_gfAdd (by simpa using h), List.reverse_zipWith h]

theorem codewordEval_map_gfMul (c : Byte) (p : List Byte) (x : Byte) :
    codewordEval (p.map (gfMul c)) x = gfMul c (codewordEval p x) := by
  rw [codewordEval_eq_polyEval_reverse, ← List.map_reverse, polyEval_map_gfMul, codewordEval_eq_polyEval_reverse]

theorem codewordEval_replicate_zero (n : Nat) (x : Byte) : codewordEval (List.replicate n 0x00) x = 0x00 := by
  induction n with
  | zero => rfl
  | succ n ih => rw [List.replicate_succ', codewordEval_concat, ih, zero_gfMul, gfAdd_zero]

/-! ### The register divides by the generator -/

/-- At a root of the generator its lower coefficients evaluate to its leading term, x^r. -/
theorem codewordEval_parityTaps {r : Nat} {x : Byte} (hroot : polyEval (generator r) x = 0x00) :
    codewordEval (parityTaps r) x = gfPow x r := by
  have hsplit : (generator r).take r ++ [0x01] = generator r := by
    have hlt : r < (generator r).length := by simp
    rw [← generator_getD_self r, List.getD_eq_getElem _ _ hlt, List.take_append_getElem, List.take_of_length_le (by simp)]
  rw [← hsplit, polyEval_append, polyEval_singleton, gfMul_one, gfAdd_eq_zero_iff] at hroot
  rw [codewordEval_eq_polyEval_reverse, parityTaps, List.reverse_reverse, hroot, List.length_take_of_le (by simp)]

/-- One step of the register, evaluated at a root: the register times x plus the data byte times x^r. -/
theorem codewordEval_parityStep {taps p : List Byte} (hlen : p.length = taps.length) (hp : 0 < p.length) {x : Byte}
    (hroot : codewordEval taps x = gfPow x taps.length) (c : Byte) :
    codewordEval (parityStep taps p c) x = gfAdd (gfMul (codewordEval p x) x) (gfMul c (gfPow x taps.length)) := by
  obtain ⟨p₀, p, rfl⟩ := List.exists_cons_of_length_pos hp
  have hstep : parityStep taps (p₀ :: p) c = List.zipWith gfAdd (p ++ [0x00]) (taps.map (gfMul (gfAdd c p₀))) :=
    List.zipWith_map_right.symm
  rw [hstep, codewordEval_zipWith_gfAdd (by simpa using hlen), codewordEval_concat, gfAdd_zero,
    codewordEval_map_gfMul, hroot, codewordEval_cons, ← hlen, List.length_cons, gfPow_succ]
  simp only [add_gfMul, gfMul_assoc, gfAdd_comm, gfAdd_left_comm]

theorem parity_concat (d : List Byte) (c : Byte) (r : Nat) :
    parity (d ++ [c]) r = parityStep (parityTaps r) (parity d r) c := List.foldl_concat ..

/-- At a root of the generator the parity evaluates to the data block moved up r degrees: it is the remainder. -/
theorem codewordEval_parity (d : List Byte) {r : Nat} (hr : 0 < r) {x : Byte}
    (hroot : polyEval (generator r) x = 0x00) :
    codewordEval (parity d r) x = gfMul (codewordEval d x) (gfPow x r) := by
  induction d using List.reverseRecOn with
  | nil => exact (codewordEval_replicate_zero r x).trans (zero_gfMul _).symm
  | append_singleton d c ih =>
    have hlen := parity_length d r hr
    rw [parity_concat, codewordEval_parityStep (by rw [hlen, parityTaps_length]) (by omega)
      (by rw [parityTaps_length, codewordEval_parityTaps hroot]), parityTaps_length, ih, codewordEval_concat, add_gfMul,
      gfMul_assoc, gfMul_assoc, gfMul_comm x]

/-- Data and parity together vanish at every root of the generator. -/
theorem codewordEval_codeword (d : List Byte) {r : Nat} (hr : 0 < r) {x : Byte}
    (hroot : polyEval (generator r) x = 0x00) : codewordEval (d ++ parity d r) x = 0x00 := by
  rw [codewordEval_append, parity_length d r hr, codewordEval_parity d hr hroot, gfAdd_self]

/-- S[i] is the value of the word at α^(r-1-i) (42_syndrome.md R171). -/
theorem syndromes_eq_map (cw : List Byte) (r : Nat) :
    syndromes cw r = (List.range r).map fun i => codewordEval cw (gfPow alpha (r - 1 - i)) := by
  have hcast : syndromes cw r = (List.range r).map fun i : Nat => codewordEval cw (alphaPow ((r : Int) - 1 - i)) := by
    simp [syndromes, ← List.map_eq_flatMap]
  refine hcast.trans (List.map_congr_left fun i hi => ?_)
  have hexp : (r : Int) - 1 - i = (r - 1 - i : Nat) := by have := List.mem_range.mp hi; omega
  rw [hexp, alphaPow_natCast]

/-- The syndromes of a codeword are zero (41_encoder.md R155). -/
theorem syndromes_codeword (d : List Byte) {r : Nat} (hr : 0 < r) :
    syndromes (d ++ parity d r) r = List.replicate r 0x00 := by
  refine List.eq_replicate_iff.mpr ⟨syndromes_length _ r, fun y hy => ?_⟩
  rw [syndromes_eq_map] at hy
  obtain ⟨i, hi, rfl⟩ := List.mem_map.mp hy
  have hir : i < r := List.mem_range.mp hi
  refine codewordEval_codeword d hr ((polyEval_generator_eq_zero_iff r _).mpr ⟨r - 1 - i, by omega, ?_⟩)
  exact (alphaPow_natCast _).symm

end Sys2Proof.Machine
end

-- ==== Proofs: ENCODE, and DECODE on a codeword (41_encoder.md R154, R155) ====
section
/-! What ENCODE leaves in the codeword buffer, and that every stage of DECODE finds nothing to do when the syndromes are zero. -/

namespace Sys2Proof.Machine

open Sys2Proof.Claims

/-! ### Runs of entries as the bytes at their addresses -/

theorem Buffer.address_add (buf : Buffer) (start i : Nat) : buf.address (start + i) = buf.address start + i :=
  (Nat.add_assoc buf.base start i).symm

/-- A run that exists reads as a list exactly where the memory holds the list. -/
theorem readEntries_eq_ok_iff_holds {s : State} {buf : Buffer} {start : Nat} {vs : List Byte}
    (hsize : start + vs.length ≤ buf.size) :
    readEntries s buf start vs.length = .ok vs ↔ Holds s (buf.address start) vs := by
  rw [readEntries_ok_iff]
  refine ⟨fun ⟨_, h⟩ i hi => ?_, fun h => ⟨rfl, fun i hi => ?_⟩⟩
  · rw [byteAt, ← Buffer.address_add]
    exact ((readEntry_ok_iff ..).1 (h i hi)).2
  · exact (readEntry_ok_iff ..).2 ⟨by omega, Buffer.address_add .. ▸ h i hi⟩

theorem holds_append {s : State} {base : Nat} {us vs : List Byte} (hu : Holds s base us)
    (hv : Holds s (base + us.length) vs) : Holds s base (us ++ vs) := by
  intro i hi
  by_cases hlt : i < us.length
  · rw [List.getElem_append_left hlt]
    exact hu i hlt
  · rw [List.getElem_append_right (by omega), ← hv (i - us.length), Nat.add_assoc, Nat.add_sub_cancel' (by omega)]

theorem holds_setEntries (s : State) (buf : Buffer) (start : Nat) (vs : List Byte) :
    Holds (s.setEntries buf start vs) (buf.address start) vs := by
  intro i hi
  rw [byteAt, ← Buffer.address_add, get_setEntries_at s buf start vs i hi]

/-- Writing a run changes no byte outside it. -/
theorem sameOutside_setEntries (s : State) (buf : Buffer) (start : Nat) (vs : List Byte) :
    SameOutside s (s.setEntries buf start vs) (buf.address start) (buf.address start + vs.length) := by
  intro a ha
  rw [byteAt, get_setEntries, if_neg ha]

/-! ### ENCODE -/

theorem parityCount_pos {s : State} (hp : s.paramsOk = true) : 0 < s.parityCount :=
  ((paramsOk_iff_validParams s).1 hp).2.1

/-- With valid parameters and a data block that can be read, ENCODE ends OK with the parity written. -/
theorem encodeBody_of_read {s : State} {d : List Byte} (hp : s.paramsOk = true)
    (hd : readEntries s .cw 0 s.dataCount = .ok d) :
    encodeBody s = .ok (s.setEntries .cw s.dataCount (parity d s.parityCount)).clearValidity.finishOk := by
  have hwrite : writeEntries s .cw s.dataCount (parity d s.parityCount) = .ok _ :=
    (writeEntries_ok_iff ..).2 ⟨by rw [parity_length d _ (parityCount_pos hp)]; exact (lengths_of_paramsOk hp).1, rfl⟩
  rw [encodeBody, if_pos hp, hd]
  dsimp only
  rw [hwrite]

theorem getElem?_parity (d : List Byte) {r j : Nat} (hj : j < r) :
    (parity d r)[j]? = some (parityRegister d r j) := by
  rw [parity_eq_cells d (by omega)]
  simp [cells, hj]

/-- After ENCODE the buffer holds the data block and its parity. -/
theorem holds_codeword {s : State} {d : List Byte} {r : Nat} (hd : Holds s 0x100 d) :
    Holds (s.setEntries .cw d.length (parity d r)) 0x100 (d ++ parity d r) := by
  refine holds_append (fun i hi => ?_) (holds_setEntries s .cw d.length _)
  rw [sameOutside_setEntries s .cw d.length (parity d r) (0x100 + i) (by simp; omega)]
  exact hd i hi

/-- Everything an ENCODE that ends OK leaves in the codeword buffer: the data block as it was, and a codeword to read. -/
theorem encodeBody_codeword {s t : State} (h : encodeBody s = .ok t) (hok : t.result = .ok) :
    t.r = s.r ∧ t.paramsOk = true ∧ (∀ i, i < s.dataCount → byteAt t (0x100 + i) = byteAt s (0x100 + i)) ∧
      ∃ d, readEntries t .cw 0 t.codeLength = .ok (d ++ parity d t.parityCount) := by
  obtain ⟨-, rfl⟩ | ⟨d, hp, hd, hsize, ht⟩ := encodeBody_cases h
  · cases hok
  have hk : t.k = s.k := by rw [ht]; simp
  have hr : t.r = s.r := by rw [ht]; simp
  have hmem : t.mem = (s.setEntries .cw s.dataCount (parity d s.parityCount)).mem := by rw [ht]; rfl
  have hlen : d.length = s.dataCount := ((readEntries_ok_iff ..).1 hd).1
  have hn : (d ++ parity d s.parityCount).length = s.codeLength := by
    rw [List.length_append, hlen, parity_length d _ (parityCount_pos hp), State.codeLength]
  refine ⟨hr, ?_, fun i hi => ?_, d, ?_⟩
  · simpa only [State.paramsOk, State.dataCount, State.parityCount, hk, hr] using hp
  · rw [byteAt, hmem]
    exact sameOutside_setEntries s .cw _ _ _ (by simp; omega)
  · rw [← hlen] at hd hsize hmem
    have hword := holds_codeword (r := s.parityCount) ((readEntries_eq_ok_iff_holds (by simp; omega)).1 hd)
    have hread := (readEntries_eq_ok_iff_holds (buf := .cw) (start := 0) (by simpa using hsize)).2 hword
    rw [hn, ← readEntries_congr hmem] at hread
    simpa only [State.codeLength, State.dataCount, State.parityCount, hk, hr] using hread

/-! ### DECODE with zero syndromes -/

/-- With zero syndromes no iteration changes the locator: the discrepancy is always zero. -/
theorem berlekampMassey_replicate_zero (r n : Nat) :
    berlekampMassey (List.replicate r 0x00) n = { BerlekampMassey.init r with shift := n + 1 } := by
  induction n with
  | zero => simp [BerlekampMassey.init]
  | succ n ih =>
    have hdisc : discrepancy (List.replicate r 0x00) { BerlekampMassey.init r with shift := n + 1 } n = 0x00 := by
      rw [discrepancy, List.getD_eq_getElem?_getD, List.getElem?_getD_replicate_default_eq]
      exact gfAdd_self _
    rw [berlekampMassey_succ, ih, BerlekampMassey.iterate, hdisc]
    rfl

theorem locate_replicate_zero (r : Nat) :
    locate (List.replicate r 0x00) = (0x01 :: List.replicate r 0x00, 0) := by
  rw [locate, syndromeSequence, List.reverse_replicate, List.length_replicate, berlekampMassey_replicate_zero]
  rfl

theorem polyEval_replicate_zero (n : Nat) (x : Byte) : polyEval (List.replicate n 0x00) x = 0x00 := by
  rw [← List.reverse_replicate, ← codewordEval_eq_polyEval_reverse, codewordEval_replicate_zero]

/-- The constant locator 1 has no roots. -/
theorem rootPositions_one (r n : Nat) : rootPositions (0x01 :: List.replicate r 0x00) n = [] := by
  refine List.eq_nil_iff_forall_not_mem.2 fun p hp => ?_
  have hroot := ((mem_rootPositions ..).1 hp).2
  rw [polyEval_cons, polyEval_replicate_zero, gfMul_zero, gfAdd_zero] at hroot
  exact absurd hroot (by decide)

/-- With valid parameters and a word that can be read, SYNDROME ends OK with the syndromes written. -/
theorem syndromeBody_of_read {s : State} {cw : List Byte} (hp : s.paramsOk = true)
    (hcw : readEntries s .cw 0 s.codeLength = .ok cw) :
    syndromeBody s = .ok ((s.setEntries .syn 0 (syndromes cw s.parityCount)).setSyndromeFlags
      (syndromes cw s.parityCount)).finishOk := by
  have hwrite : writeEntries s .syn 0 (syndromes cw s.parityCount) = .ok _ :=
    (writeEntries_ok_iff ..).2 ⟨by simpa using (lengths_of_paramsOk hp).2, rfl⟩
  rw [syndromeBody, if_pos hp, hcw]
  dsimp only
  rw [hwrite]

/-- With a locator short enough, LOCATE ends OK with the locator written. -/
theorem locateBody_of_read {s : State} {syn : List Byte} (hv : s.synValid = true) (hr : s.parityCount ≤ 254)
    (hsyn : readEntries s .syn 0 s.parityCount = .ok syn) (hL : (locate syn).2 ≤ s.parityCount / 2) :
    locateBody s = .ok ((s.storeLocator syn).setLocValid true).finishOk := by
  have hlen : syn.length = s.parityCount := ((readEntries_ok_iff ..).1 hsyn).1
  have hwrite : writeEntries s .lambda 0 (locate syn).1 = .ok _ :=
    (writeEntries_ok_iff ..).2 ⟨by simp [locate_length]; omega, rfl⟩
  rw [locateBody, if_pos hv, hsyn]
  dsimp only
  rw [hwrite]
  exact if_pos hL

/-- With no root and L = 0, CORRECT ends OK, counts no error and writes no byte. -/
theorem correctBody_of_no_root {s : State} {lam syn : List Byte} (hv : s.locValid = true)
    (hlam : readEntries s .lambda 0 (s.parityCount + 1) = .ok lam) (hroots : rootPositions lam s.codeLength = [])
    (hL : s.locatorLength = 0) (hsyn : readEntries s .syn 0 s.parityCount = .ok syn) :
    correctBody s = .ok (s.setNerr 0).clearValidity.finishOk := by
  rw [correctBody, if_pos hv, hlam]
  simp only [hroots, hL, hsyn]
  rfl

/-- The state SYNDROME leaves when every syndrome is zero. -/
def State.storeZeroSyndromes (s : State) : State :=
  ((s.setEntries .syn 0 (List.replicate s.parityCount 0x00)).setSyndromeFlags
    (List.replicate s.parityCount 0x00)).finishOk

/-- The state LOCATE leaves when every syndrome is zero: the locator is the constant 1, its length 0. -/
def State.storeOneLocator (s : State) : State :=
  (((s.setEntries .lambda 0 (0x01 :: List.replicate s.parityCount 0x00)).setLdeg 0).setLocValid true).finishOk

section
variable (s : State)

theorem storeZeroSyndromes_mem :
    s.storeZeroSyndromes.mem = (s.setEntries .syn 0 (List.replicate s.parityCount 0x00)).mem := rfl

theorem storeOneLocator_mem :
    s.storeOneLocator.mem = (s.setEntries .lambda 0 (0x01 :: List.replicate s.parityCount 0x00)).mem := rfl

@[simp] theorem storeZeroSyndromes_parityCount : s.storeZeroSyndromes.parityCount = s.parityCount := by
  simp [State.storeZeroSyndromes, State.parityCount]

@[simp] theorem storeOneLocator_parityCount : s.storeOneLocator.parityCount = s.parityCount := by
  simp [State.storeOneLocator, State.parityCount]

theorem storeZeroSyndromes_synZero : s.storeZeroSyndromes.synZero = true := by
  simp [State.storeZeroSyndromes]

theorem byteAt_syn_storeZeroSyndromes {i : Nat} (hi : i < s.parityCount) :
    byteAt s.storeZeroSyndromes (0x200 + i) = some 0x00 := by
  rw [byteAt, storeZeroSyndromes_mem]
  refine (holds_setEntries s .syn 0 _ i (by simpa using hi)).trans ?_
  rw [List.getElem_replicate]

/-- SYN and LAMBDA lie beyond the codeword buffer. -/
theorem byteAt_cw_storeZeroSyndromes {p : Nat} (hp : p < 255) :
    byteAt s.storeZeroSyndromes (0x100 + p) = byteAt s (0x100 + p) := by
  rw [byteAt, storeZeroSyndromes_mem]
  exact sameOutside_setEntries s .syn 0 _ _ (by simp; omega)

theorem byteAt_cw_storeOneLocator {p : Nat} (hp : p < 255) :
    byteAt s.storeOneLocator (0x100 + p) = byteAt s (0x100 + p) := by
  rw [byteAt, storeOneLocator_mem]
  exact sameOutside_setEntries s .lambda 0 _ _ (by simp; omega)

end

theorem readEntries_storeZeroSyndromes {s : State} (hr : s.parityCount ≤ 254) :
    readEntries s.storeZeroSyndromes .syn 0 s.parityCount = .ok (List.replicate s.parityCount 0x00) := by
  have h := readEntries_setEntries_self s .syn 0 (List.replicate s.parityCount 0x00) (by simpa using hr)
  rwa [List.length_replicate, ← readEntries_congr (storeZeroSyndromes_mem s)] at h

theorem syndromeBody_of_zero_syndromes {s : State} {cw : List Byte} (hp : s.paramsOk = true)
    (hcw : readEntries s .cw 0 s.codeLength = .ok cw)
    (hz : syndromes cw s.parityCount = List.replicate s.parityCount 0x00) :
    syndromeBody s = .ok s.storeZeroSyndromes := by
  rw [syndromeBody_of_read hp hcw, hz, State.storeZeroSyndromes]

/-- With zero syndromes in SYN, LOCATE ends OK with the locator 1. -/
theorem locateBody_of_zero_syn {s : State} (hv : s.synValid = true) (hr : s.parityCount ≤ 254)
    (hsyn : readEntries s .syn 0 s.parityCount = .ok (List.replicate s.parityCount 0x00)) :
    locateBody s = .ok s.storeOneLocator := by
  have hlocate := locate_replicate_zero s.parityCount
  rw [locateBody_of_read hv hr hsyn (by rw [hlocate]; exact Nat.zero_le _), State.storeLocator, hlocate]
  rfl

/-- With the locator 1 CORRECT ends OK and has nothing to correct. -/
theorem correctBody_storeOneLocator {s : State} (hr : s.parityCount ≤ 254) {syn : List Byte}
    (hsyn : readEntries s .syn 0 s.parityCount = .ok syn) :
    correctBody s.storeOneLocator = .ok (s.storeOneLocator.setNerr 0).clearValidity.finishOk := by
  have hlam := readEntries_setEntries_self s .lambda 0 (0x01 :: List.replicate s.parityCount 0x00) (by simp; omega)
  have hother := readEntries_setEntries_other s (buf := .lambda) (buf' := .syn) (by simp) 0 0 s.parityCount
    (0x01 :: List.replicate s.parityCount 0x00) (by simp; omega) (by simpa using hr)
  rw [← readEntries_congr (storeOneLocator_mem s), List.length_cons, List.length_replicate] at hlam
  rw [← readEntries_congr (storeOneLocator_mem s), hsyn] at hother
  rw [← storeOneLocator_parityCount] at hlam hother
  exact correctBody_of_no_root rfl hlam (rootPositions_one ..) rfl hother

/-- DECODE of a word whose syndromes are zero ends OK, with no error counted and only SYN and LAMBDA written. -/
theorem decodeBody_of_zero_syndromes {s : State} {cw : List Byte} (hp : s.paramsOk = true)
    (hcw : readEntries s .cw 0 s.codeLength = .ok cw)
    (hz : syndromes cw s.parityCount = List.replicate s.parityCount 0x00) :
    decodeBody s = .ok (s.storeZeroSyndromes.storeOneLocator.setNerr 0).clearValidity.finishOk := by
  have hr := (lengths_of_paramsOk hp).2
  have hsyn := readEntries_storeZeroSyndromes hr
  rw [← storeZeroSyndromes_parityCount] at hr hsyn
  calc decodeBody s
    _ = thenStage (thenStage (.ok s.storeZeroSyndromes) locateBody) correctBody := by
      rw [decodeBody, syndromeBody_of_zero_syndromes hp hcw hz]
    _ = thenStage (.ok s.storeZeroSyndromes.storeOneLocator) correctBody := by
      rw [thenStage_ok rfl, locateBody_of_zero_syn rfl hr (hsyn.trans (by simp))]
    _ = _ := by rw [thenStage_ok rfl, correctBody_storeOneLocator hr hsyn]

end Sys2Proof.Machine
end

-- ==== Proofs: the obligations of 41_encoder.md ====
section
/-! The statements of the family 41_encoder.md, settled from the layers above. -/

namespace Sys2Proof.Proofs

open Sys2Proof.Machine Sys2Proof.Claims

/-- Settles O22: the check comes first in each of the three bodies, and no later stage reports invalid parameters. -/
theorem invalidParametersChangeOnlyResult : Obligations.InvalidParametersChangeOnlyResult := by
  intro s i hf hi
  refine ⟨fun hp => ?_, fun hp t h => ?_⟩
  · rw [← paramsOk_iff_validParams, Bool.not_eq_true] at hp
    rw [exec_unlocked i hf, commandBody_of_not_paramsOk hi hp]
    rfl
  · obtain ⟨hlocked, -⟩ | ⟨-, hbody⟩ := exec_next_cases h
    · simp [hf] at hlocked
    · exact commandBody_result_ne_of_paramsOk hi ((paramsOk_iff_validParams s).2 hp) hbody

/-- Settles O25: evaluation turns the recursion of the generator into a product, whose zeros are those of its factors. -/
theorem generatorHasExactlyItsRoots : Obligations.GeneratorHasExactlyItsRoots := by
  refine ⟨fun r => ⟨generator_length r, generator_getD_self r, fun x => ?_⟩,
    fun r x _ => polyEval_generator_eq_zero_iff r x, ?_⟩
  · rw [polyEval_generator]
    simp [← List.map_eq_flatMap, List.foldl_map]
  · decide +kernel

/-- Settles O26: ENCODE writes the list register, whose bytes are the cells of the rule's register. -/
theorem encodeWritesTheParity : Obligations.EncodeWritesTheParity := by
  intro s d hf hvalid hlen hd
  have ⟨_, hr, hn⟩ := hvalid
  have hread : readEntries s .cw 0 s.dataCount = .ok d := by
    rw [State.dataCount, ← hlen]
    exact (readEntries_eq_ok_iff_holds (by simp; omega)).2 hd
  have hplen : (parity d s.r.toNat).length = s.r.toNat := parity_length d _ hr
  refine ⟨(s.setEntries .cw s.k.toNat (parity d s.r.toNat)).clearValidity.finishOk, ?_, ?_, fun j hj => ?_, ?_⟩
  · rw [exec_unlocked .encode hf, commandBody, encodeBody_of_read ((paramsOk_iff_validParams s).2 hvalid) hread]
    rfl
  · rw [State.setEntries_eq]
    rfl
  · have hjp : j < (parity d s.r.toNat).length := hplen.symm ▸ hj
    refine (holds_setEntries s .cw s.k.toNat _ j hjp).trans ?_
    rw [← List.getElem?_eq_getElem, getElem?_parity d hj]
  · have h := sameOutside_setEntries s .cw s.k.toNat (parity d s.r.toNat)
    rwa [hplen] at h

/-- Settles O27: the register is the remainder of the data block, so the word vanishes at the generator's roots, and no stage of
DECODE finds an error. -/
theorem encodedWordIsACodeword : Obligations.EncodedWordIsACodeword := by
  intro s t h hok
  obtain ⟨-, rfl⟩ | ⟨hf, henc⟩ := exec_next_cases h
  · cases hok
  obtain ⟨hr, hp, hdata, d, hcw⟩ := encodeBody_codeword henc hok
  have hft : t.fatal = false := (encodeBody_fatal henc).trans hf
  have hz := syndromes_codeword d (parityCount_pos hp)
  refine ⟨hdata, ⟨t.storeZeroSyndromes, ?_, rfl, storeZeroSyndromes_synZero t, fun i hi => ?_⟩,
    (t.storeZeroSyndromes.storeOneLocator.setNerr 0).clearValidity.finishOk, ?_, rfl, rfl, fun p hp255 => ?_⟩
  · rw [exec_unlocked .syndrome hft, commandBody, syndromeBody_of_zero_syndromes hp hcw hz]
    rfl
  · rw [← hr] at hi
    exact byteAt_syn_storeZeroSyndromes t hi
  · rw [exec_unlocked .decode hft, commandBody, decodeBody_of_zero_syndromes hp hcw hz]
    rfl
  · rw [byteAt, State.finishOk_mem, State.clearValidity_mem, State.setNerr_mem]
    exact (byteAt_cw_storeOneLocator _ hp255).trans (byteAt_cw_storeZeroSyndromes t hp255)

end Sys2Proof.Proofs
end

-- ==== Proofs: sums over the positions of a word (42_syndrome.md R171, R173) ====
section
/-! Horner's rule over the positions is the sum of R171, so a syndrome is linear in the word and a single error gives it one
term. -/

namespace Sys2Proof.Machine

open Sys2Proof.Claims

/-! ### Sums in the field -/

theorem sumTo_succ (n : Nat) (f : Nat → Byte) : sumTo (n + 1) f = gfAdd (f 0) (sumTo n fun i => f (i + 1)) := by
  rw [sumTo, List.range_succ_eq_map, List.map_cons, xorSum_cons, List.map_map]
  rfl

theorem sumTo_congr {n : Nat} {f g : Nat → Byte} (h : ∀ i < n, f i = g i) : sumTo n f = sumTo n g :=
  congrArg xorSum (List.map_congr_left fun i hi => h i (List.mem_range.mp hi))

/-! ### The value of a word (00_scope.md R15) -/

/-- Horner's rule computes the sum over positions. -/
theorem codewordEval_eq_sumTo (cw : List Byte) (x : Byte) :
    codewordEval cw x = sumTo cw.length fun p => gfMul (cw.getD p 0x00) (gfPow x (cw.length - 1 - p)) := by
  induction cw with
  | nil => rfl
  | cons c cw ih =>
    rw [codewordEval_cons, ih, List.length_cons, sumTo_succ]
    refine congrArg (gfAdd _) (sumTo_congr fun p _ => ?_)
    rw [List.getD_cons_succ, Nat.add_sub_cancel, Nat.sub_sub, Nat.add_comm 1 p]

/-- A word with one nonzero position has one term. -/
theorem codewordEval_single (x y : Byte) {n p : Nat} (hp : p < n) :
    codewordEval ((List.replicate n 0x00).set p y) x = gfMul y (gfPow x (n - 1 - p)) := by
  have hsplit : (List.replicate n (0x00 : Byte)).set p y =
      List.replicate p 0x00 ++ y :: List.replicate (n - 1 - p) 0x00 := by
    rw [List.set_eq_take_append_cons_drop, if_pos (by simpa using hp), List.take_replicate, List.drop_replicate,
      Nat.min_eq_left hp.le, Nat.sub_sub, Nat.add_comm 1 p]
  rw [hsplit, codewordEval_append, codewordEval_cons, codewordEval_replicate_zero, codewordEval_replicate_zero,
    zero_gfMul, zero_gfAdd, gfAdd_zero, List.length_replicate]

/-! ### The syndromes (R171) -/

theorem syndromes_getElem (cw : List Byte) {r i : Nat} (h : i < (syndromes cw r).length) :
    (syndromes cw r)[i] = codewordEval cw (gfPow alpha (r - 1 - i)) := by
  simp [syndromes_eq_map]

theorem syndromes_getD (cw : List Byte) {r i : Nat} (hi : i < r) (v : Byte) :
    (syndromes cw r).getD i v = codewordEval cw (gfPow alpha (r - 1 - i)) := by
  rw [List.getD_eq_getElem _ _ (by simpa using hi), syndromes_getElem]

theorem syndromeSum_eq_codewordEval (cw : List Byte) (r i : Nat) :
    syndromeSum cw r i = codewordEval cw (gfPow alpha (r - 1 - i)) := (codewordEval_eq_sumTo ..).symm

/-- SYN_ZERO says that every one of R171's sums is zero. -/
theorem syndromes_all_zero_iff (cw : List Byte) (r : Nat) :
    (syndromes cw r).all (· == 0x00) = true ↔ ∀ i < r, syndromeSum cw r i = 0x00 := by
  simp only [syndromes_eq_map, ← syndromeSum_eq_codewordEval, List.all_map, List.all_eq_true, List.mem_range,
    Function.comp_apply, beq_iff_eq]

/-! ### Linearity, and the value at a root in powers of X_p (R173) -/

/-- The syndromes of a sum of words are the sums of their syndromes. -/
theorem syndromes_zipWith_gfAdd {c e : List Byte} (h : c.length = e.length) (r : Nat) :
    syndromes (List.zipWith gfAdd c e) r = List.zipWith gfAdd (syndromes c r) (syndromes e r) := by
  simp only [syndromes_eq_map, codewordEval_zipWith_gfAdd h, List.zipWith_map, List.zipWith_self]

theorem zipWith_gfAdd_replicate_zero (xs : List Byte) :
    List.zipWith gfAdd (List.replicate xs.length 0x00) xs = xs := by
  induction xs with
  | nil => rfl
  | cons x xs ih => rw [List.length_cons, List.replicate_succ, List.zipWith_cons_cons, zero_gfAdd, ih]

/-- A codeword adds nothing to the syndromes of an error word. -/
theorem syndromes_codeword_add {d e : List Byte} {r : Nat} (hr : 0 < r) (he : e.length = d.length + r) :
    syndromes (List.zipWith gfAdd (d ++ parity d r) e) r = syndromes e r := by
  have hlen : (d ++ parity d r).length = e.length := by rw [List.length_append, parity_length d r hr, he]
  have hzero := zipWith_gfAdd_replicate_zero (syndromes e r)
  rwa [syndromes_length, ← syndromes_codeword d hr, ← syndromes_zipWith_gfAdd hlen] at hzero

/-- The power of a generator root that weighs position p is the same power of X_p. -/
theorem gfPow_root_eq_positionValue (n p j : Nat) :
    gfPow (gfPow alpha j) (n - 1 - p) = gfPow (positionValue n p) j := by
  rw [positionValue, ← gfPow_mul, ← gfPow_mul, Nat.mul_comm]

end Sys2Proof.Machine
end

-- ==== Proofs: the obligations of 42_syndrome.md ====
section
/-! The statements of the family 42_syndrome.md, settled from the layers above. -/

namespace Sys2Proof.Proofs

open Sys2Proof.Machine Sys2Proof.Claims

/-- Settles O28: SYNDROME writes the values of the word at the generator's roots, which are the sums over positions. -/
theorem syndromeEvaluatesTheReceivedWord : Obligations.SyndromeEvaluatesTheReceivedWord := by
  intro s cw hf hvalid hlen hcw
  have ⟨_, _, hn⟩ := hvalid
  have hread : readEntries s .cw 0 s.codeLength = .ok cw := by
    rw [State.codeLength, State.dataCount, State.parityCount, ← hlen]
    exact (readEntries_eq_ok_iff_holds (by simp; omega)).2 hcw
  refine ⟨((s.setEntries .syn 0 (syndromes cw s.r.toNat)).setSyndromeFlags (syndromes cw s.r.toNat)).finishOk,
    ?_, ?_, fun i hi => ?_, syndromes_all_zero_iff cw _, ?_⟩
  · rw [exec_unlocked .syndrome hf, commandBody, syndromeBody_of_read ((paramsOk_iff_validParams s).2 hvalid) hread]
    rfl
  · rw [State.setEntries_eq]
    rfl
  · refine (holds_setEntries s .syn 0 _ i (by simpa using hi)).trans ?_
    rw [syndromes_getElem, syndromeSum_eq_codewordEval]
  · have h := sameOutside_setEntries s .syn 0 (syndromes cw s.r.toNat)
    rwa [syndromes_length] at h

/-- Settles O29: the value of a word at a root is linear in the word and zero for a codeword, so only the errors' terms stay, and
one term alone is a product of nonzero factors. -/
theorem syndromesDependOnTheErrorsAlone : Obligations.SyndromesDependOnTheErrorsAlone := by
  intro d e r _ hr _ he
  refine ⟨fun i hi => ?_, syndromes_codeword_add hr he, fun i hi => ?_, fun p y i hp hy hi hset => ?_⟩
  · rw [syndromes_codeword d hr, List.getD_replicate _ hi]
  · rw [syndromes_getD e hi, codewordEval_eq_sumTo]
    exact sumTo_congr fun p _ => by rw [gfPow_root_eq_positionValue]
  · have hterm : (syndromes e r).getD i 0x00 = gfMul y (gfPow alpha ((r - 1 - i) * (e.length - 1 - p))) := by
      rw [gfPow_mul, ← codewordEval_single _ y hp, ← hset, syndromes_getD e hi]
    refine ⟨hterm, fun hzero => ?_⟩
    exact (gfMul_eq_zero (hterm.symm.trans hzero)).elim hy (alpha_pow_ne_zero _)

end Sys2Proof.Proofs
end

-- ==== Proofs: Massey's recurrence and LOCATE (43_locator.md R192 to R197) ====
section
/-! The arms of Massey's update and the polynomial update coefficient by coefficient; the length never passes the number of
iterations, so LOCATE stores it exactly and completes on every readable SYN. -/

namespace Sys2Proof.Machine

open Sys2Proof.Claims

/-! ### The polynomials, coefficient by coefficient (R193, R195) -/

theorem getD_one_cons_replicate_zero {r i : Nat} (hi : i ≤ r) (v : Byte) :
    ((0x01 : Byte) :: List.replicate r 0x00).getD i v = if i = 0 then 0x01 else 0x00 := by
  cases i with
  | zero => rfl
  | succ i => rw [List.getD_cons_succ, List.getD_replicate _ hi, if_neg (Nat.succ_ne_zero i)]

/-- On the coefficients that both polynomials have, the value of a missing one never matters. -/
theorem addShifted_getD {cur base : List Byte} (hlen : base.length = cur.length) (c : Byte) (m : Nat) {i : Nat}
    (hi : i < cur.length) (v : Byte) :
    (addShifted cur c m base).getD i v =
      gfAdd (cur.getD i v) (if m ≤ i then gfMul c (base.getD (i - m) v) else 0x00) := by
  have hbase : i - m < base.length := by omega
  rw [List.getD_eq_getElem _ _ (by simpa using hi), List.getD_eq_getElem _ _ hi, List.getD_eq_getElem _ _ hbase]
  simp only [addShifted, List.getElem_mapIdx, List.getD_eq_getElem _ _ hbase]
  split
  · rfl
  · exact (gfAdd_zero _).symm

/-! ### The arms of the update (R195) -/

section
variable {st : BerlekampMassey} {n : Nat} {d : Byte}

theorem update_zero : st.update n 0x00 = { st with shift := st.shift + 1 } := if_pos rfl

/-- Both arms of a nonzero discrepancy compute the same next polynomial. -/
theorem update_current_of_ne_zero (hd : d ≠ 0x00) :
    (st.update n d).current = addShifted st.current (gfMul d (gfInv st.factor)) st.shift st.baseline := by
  rw [BerlekampMassey.update, if_neg hd]
  dsimp only
  split <;> rfl

theorem update_growing (hd : d ≠ 0x00) (hL : 2 * st.len ≤ n) :
    st.update n d = ⟨(st.update n d).current, st.current, n + 1 - st.len, 1, d⟩ := by
  rw [update_current_of_ne_zero hd, BerlekampMassey.update, if_neg hd]
  exact if_pos hL

theorem update_adjusting (hd : d ≠ 0x00) (hL : n < 2 * st.len) :
    st.update n d = { st with current := (st.update n d).current, shift := st.shift + 1 } := by
  rw [update_current_of_ne_zero hd, BerlekampMassey.update, if_neg hd]
  exact if_neg (by omega)

theorem update_len_le (d : Byte) (h : st.len ≤ n) : (st.update n d).len ≤ n + 1 := by
  by_cases hd : d = 0x00
  · rw [hd, update_zero]
    exact Nat.le_succ_of_le h
  · by_cases hL : 2 * st.len ≤ n
    · rw [update_growing hd hL]
      exact Nat.sub_le ..
    · rw [update_adjusting hd (by omega)]
      exact Nat.le_succ_of_le h

end

/-! ### The length (R194, R197) -/

theorem berlekampMassey_len_le (sq : List Byte) (n : Nat) : (berlekampMassey sq n).len ≤ n := by
  induction n with
  | zero => exact Nat.le_refl 0
  | succ n ih =>
    rw [berlekampMassey_succ]
    exact update_len_le _ ih

theorem locate_len_le (syn : List Byte) : (locate syn).2 ≤ syn.length := berlekampMassey_len_le ..

/-! ### LOCATE (R197) -/

/-- With SYN_VALID = 1 and syndromes that can be read, LOCATE completes, and only LOC_VALID and RESULT depend on the length. -/
theorem locateBody_of_syn {s : State} {syn : List Byte} (hv : s.synValid = true) (hr : s.parityCount ≤ 254)
    (hsyn : readEntries s .syn 0 s.parityCount = .ok syn) :
    locateBody s = .ok (((s.storeLocator syn).setLocValid (decide ((locate syn).2 ≤ s.parityCount / 2))).raise
      (if (locate syn).2 ≤ s.parityCount / 2 then .ok else .uncorrectable)) := by
  by_cases hL : (locate syn).2 ≤ s.parityCount / 2
  · rw [locateBody_of_read hv hr hsyn hL, decide_eq_true hL, if_pos hL, State.finishOk]
  · have hlen : syn.length = s.parityCount := ((readEntries_ok_iff ..).1 hsyn).1
    have hwrite : writeEntries s .lambda 0 (locate syn).1 = .ok _ :=
      (writeEntries_ok_iff ..).2 ⟨by simp [locate_length]; omega, rfl⟩
    rw [locateBody, if_pos hv, hsyn, decide_eq_false hL, if_neg hL]
    dsimp only
    rw [hwrite]
    exact if_neg hL

end Sys2Proof.Machine
end

-- ==== Proofs: the obligations of 43_locator.md R192 to R197 ====
section
/-! The statements on LOCATE's recurrence and on what it writes, settled from the layer above. -/

namespace Sys2Proof.Proofs

open Sys2Proof.Machine Sys2Proof.Claims

/-- Settles O30: the model iterates the rule's update, whose arms are read off coefficient by coefficient. -/
theorem locatorFollowsMasseysRecurrence : Obligations.LocatorFollowsMasseysRecurrence := by
  intro syn
  have hcoeff (i : Nat) (hi : i ≤ syn.length) :
      ((0x01 : Byte) :: List.replicate syn.reverse.length 0x00).getD i 0xFF = if i = 0 then 0x01 else 0x00 :=
    getD_one_cons_replicate_zero (by simpa using hi) _
  refine ⟨rfl, fun i hi => ⟨hcoeff i hi, hcoeff i hi⟩, rfl, rfl, rfl, fun n st st' d _ hst hst' hd => ?_⟩
  have hstep : st' = st.update n d := by
    rw [hst', berlekampMassey_succ, ← hst, hd]
    rfl
  obtain ⟨hcur, hbase⟩ : st.current.length = syn.length + 1 ∧ st.baseline.length = syn.length + 1 := by
    simpa [hst] using berlekampMassey_lengths syn.reverse n
  refine ⟨hst ▸ berlekampMassey_len_le _ n, fun hzero => ?_, fun hne => ⟨fun i hi => ?_, fun hL => ?_, fun hL => ?_⟩⟩
  · rw [hstep, hzero, update_zero]
  · rw [hstep, update_current_of_ne_zero hne]
    exact addShifted_getD (hbase.trans hcur.symm) _ _ (by omega) _
  · rw [hstep, update_growing hne hL]
    exact ⟨rfl, rfl, rfl, rfl⟩
  · rw [hstep, update_adjusting hne hL]
    exact ⟨rfl, rfl, rfl, rfl⟩

/-- Settles O31: the locator has r + 1 coefficients, so it fits LAMBDA, and its length is at most r, so LDEG holds it. -/
theorem locateWritesTheLocator : Obligations.LocateWritesTheLocator := by
  intro s syn hf hv hr hlen hsyn
  have hread : readEntries s .syn 0 s.parityCount = .ok syn := by
    rw [State.parityCount, ← hlen]
    exact (readEntries_eq_ok_iff_holds (by simp; omega)).2 hsyn
  have hlam : (locate syn).1.length = s.r.toNat + 1 := by rw [locate_length, hlen]
  refine ⟨((s.storeLocator syn).setLocValid (decide ((locate syn).2 ≤ s.r.toNat / 2))).raise
      (if (locate syn).2 ≤ s.r.toNat / 2 then .ok else .uncorrectable), ?_, ?_, ?_, fun i hi => ?_, ?_⟩
  · rw [exec_unlocked .locate hf, commandBody, locateBody_of_syn hv hr hread]
    rfl
  · rw [State.storeLocator, State.setEntries_eq]
    rfl
  · have hL := locate_len_le syn
    exact (BitVec.toNat_ofNat ..).trans (Nat.mod_eq_of_lt (by omega))
  · have hi' : i < (locate syn).1.length := by omega
    rw [List.getElem?_eq_getElem hi']
    exact holds_setEntries s .lambda 0 (locate syn).1 i hi'
  · have h := sameOutside_setEntries s .lambda 0 (locate syn).1
    rwa [hlam] at h

end Sys2Proof.Proofs
end

-- ==== Proofs: polynomial values as sums (00_scope.md R14) ====
section
/-! Horner's rule computes the sum of coefficients times powers, for a polynomial and for its formal derivative. -/

namespace Sys2Proof.Machine

open Sys2Proof.Claims

/-- Multiplication distributes over a sum. -/
theorem gfMul_sumTo (x : Byte) (n : Nat) (f : Nat → Byte) :
    gfMul x (sumTo n f) = sumTo n fun i => gfMul x (f i) := by
  rw [sumTo, (xorBilinear_gfMul.right x).map_xorSum, List.map_map]
  rfl

theorem evalSum_cons (c : Byte) (cs : List Byte) (x : Byte) :
    evalSum (c :: cs) x = gfAdd c (gfMul x (evalSum cs x)) := by
  rw [evalSum, List.length_cons, sumTo_succ, evalSum, gfMul_sumTo]
  congr 1
  · exact gfMul_one c
  · refine sumTo_congr fun i _ => ?_
    rw [List.getD_cons_succ, gfPow_succ, gfMul_comm (gfPow x i), gfMul_left_comm]

theorem polyEval_eq_evalSum (c : List Byte) (x : Byte) : polyEval c x = evalSum c x := by
  induction c with
  | nil => rfl
  | cons c cs ih => rw [polyEval_cons, evalSum_cons, ih]

@[simp] theorem formalDerivative_length (c : List Byte) : (formalDerivative c).length = c.length - 1 := by
  cases c with
  | nil => rfl
  | cons c cs => simp [formalDerivative]

theorem formalDerivative_getD (c : List Byte) (i : Nat) :
    (formalDerivative c).getD i 0x00 = if i % 2 = 0 then c.getD (i + 1) 0x00 else 0x00 := by
  cases c with
  | nil => simp [formalDerivative]
  | cons c cs =>
    rw [formalDerivative, List.getD_cons_succ, List.getD_eq_getElem?_getD, List.getElem?_mapIdx]
    by_cases hi : i < cs.length
    · simp [hi]
    · simp [List.getElem?_eq_none (not_lt.mp hi)]

/-- The coefficient of degree i in the derivative is the one of degree i + 1, kept where i + 1 is odd. -/
theorem evalSum_formalDerivative (c : List Byte) (x : Byte) : evalSum (formalDerivative c) x = derivSum c x := by
  cases c with
  | nil => rfl
  | cons c cs =>
    rw [derivSum, List.length_cons, sumTo_succ, if_neg (by decide), zero_gfAdd, evalSum, formalDerivative_length]
    refine sumTo_congr fun i _ => ?_
    rw [formalDerivative_getD, Nat.add_sub_cancel]
    by_cases hi : i % 2 = 0
    · rw [if_pos hi, if_pos (by omega)]
    · rw [if_neg hi, if_neg (by omega), zero_gfMul]

theorem polyEval_formalDerivative (c : List Byte) (x : Byte) : polyEval (formalDerivative c) x = derivSum c x :=
  (polyEval_eq_evalSum ..).trans (evalSum_formalDerivative c x)

end Sys2Proof.Machine
end

-- ==== Proofs: the root search and Forney's formula (44_corrector.md R221 to R224) ====
section
/-! The table entries the corrector uses are X_p and its inverse, so the roots and the magnitudes are those of the rules'
sums. -/

namespace Sys2Proof.Machine

open Sys2Proof.Claims

/-! ### The root search (R221) -/

theorem locatorValue_eq_positionValue {n p : Nat} (h : p < n) : locatorValue n p = positionValue n p :=
  locatorValue_eq_pow h

theorem locatorInverse_eq_gfInv {n p : Nat} (hn : n ≤ 255) (hp : p < n) :
    locatorInverse n p = gfInv (positionValue n p) := by
  rw [positionValue, gfInv_alpha_pow (by omega), locatorInverse, ← alphaPow_natCast]
  congr 1
  omega

theorem rootPositions_pairwise_lt (lam : List Byte) (n : Nat) : (rootPositions lam n).Pairwise (· < ·) :=
  List.pairwise_lt_range.filter _

theorem rootPositions_nodup (lam : List Byte) (n : Nat) : (rootPositions lam n).Nodup :=
  List.nodup_range.filter _

theorem lt_of_mem_rootPositions {lam : List Byte} {n p : Nat} (h : p ∈ rootPositions lam n) : p < n :=
  ((mem_rootPositions ..).1 h).1

/-! ### The magnitudes (R222 to R224) -/

@[simp] theorem evaluator_length (sq lam : List Byte) (r : Nat) : (evaluator sq lam r).length = r := by
  simp [evaluator]

theorem evaluator_getD (sq lam : List Byte) {r i : Nat} (hi : i < r) :
    (evaluator sq lam r).getD i 0x00 =
      sumTo (i + 1) fun j => gfMul (sq.getD (i - j) 0x00) (lam.getD j 0x00) := by
  rw [List.getD_eq_getElem _ _ (by simpa using hi)]
  simp only [evaluator, List.getElem_map, List.getElem_range, sumTo]

theorem forney_eq_magnitudeSum (syn lam : List Byte) {n p : Nat} (hn : n ≤ 255) (hp : p < n) :
    forney (evaluator (syndromeSequence syn) lam syn.length) lam n p = magnitudeSum syn lam n p := by
  have hvalue (x : Byte) : polyEval (evaluator (syndromeSequence syn) lam syn.length) x =
      sumTo syn.length fun i =>
        gfMul (sumTo (i + 1) fun j => gfMul (syn.reverse.getD (i - j) 0x00) (lam.getD j 0x00)) (gfPow x i) := by
    rw [polyEval_eq_evalSum, evalSum, evaluator_length]
    exact sumTo_congr fun i hi => by rw [evaluator_getD _ _ hi, syndromeSequence]
  rw [forney, forneyDivisor, hvalue, polyEval_formalDerivative, locatorValue_eq_positionValue hp,
    locatorInverse_eq_gfInv hn hp, magnitudeSum]

theorem magnitudes_rootPositions (syn lam : List Byte) {n : Nat} (hn : n ≤ 255) :
    magnitudes syn lam n (rootPositions lam n) = (rootPositions lam n).map (magnitudeSum syn lam n) :=
  List.map_congr_left fun _ hp => forney_eq_magnitudeSum syn lam hn (lt_of_mem_rootPositions hp)

end Sys2Proof.Machine
end

-- ==== Proofs: CORRECT (44_corrector.md R220, R225 to R227) ====
section
/-! How CORRECT ends on either side of the root count, and which bytes its corrections and its two lists leave. -/

namespace Sys2Proof.Machine

open Sys2Proof.Claims

/-- Bytes held from a buffer's first address on are what a command reads from it. -/
theorem readEntries_of_holds {s : State} {buf : Buffer} {n : Nat} {vs : List Byte} (hlen : vs.length = n)
    (hsize : n ≤ buf.size) (h : Holds s (buf.address 0) vs) : readEntries s buf 0 n = .ok vs := by
  subst hlen
  exact (readEntries_eq_ok_iff_holds (by omega)).2 h

/-- With another number of roots than LDEG, CORRECT ends before it writes a byte. -/
theorem correctBody_of_root_count_ne {s : State} {lam : List Byte} (hv : s.locValid = true)
    (hlam : readEntries s .lambda 0 (s.parityCount + 1) = .ok lam)
    (hcount : (rootPositions lam s.codeLength).length ≠ s.locatorLength) :
    correctBody s = .ok ((s.setNerr 0).clearValidity.raise .uncorrectable) := by
  rw [correctBody, if_pos hv, hlam]
  exact if_pos hcount

/-- The state CORRECT ends in once `CW` is corrected: both lists and NERR written, the validity flags clear, RESULT = OK. -/
def State.storeErrors (s : State) (roots : List Nat) (mags : List Byte) : State :=
  ((((s.setEntries .errpos 0 (roots.map (BitVec.ofNat 8))).setEntries .errmag 0 mags).setNerr
    roots.length).clearValidity).finishOk

/-- With as many roots as LDEG, at most 128, and corrections that succeed, CORRECT ends OK with the errors recorded. -/
theorem correctBody_of_corrections {s u : State} {lam syn : List Byte} {roots : List Nat} (hv : s.locValid = true)
    (hlam : readEntries s .lambda 0 (s.parityCount + 1) = .ok lam)
    (hsyn : readEntries s .syn 0 s.parityCount = .ok syn) (hroots : rootPositions lam s.codeLength = roots)
    (hcount : roots.length = s.locatorLength) (hsize : roots.length ≤ 128)
    (hu : applyCorrections s (roots.zip (magnitudes syn lam s.codeLength roots)) = .ok u) :
    correctBody s = .ok (u.storeErrors roots (magnitudes syn lam s.codeLength roots)) := by
  rw [correctBody, if_pos hv, hlam]
  simp only [hroots, hcount, ne_eq, not_true_eq_false, if_false, hsyn, hu]
  rw [recordErrors_ok hsize (by simpa using hsize)]
  rfl

/-! ### The bytes CORRECT leaves (R226) -/

/-- Distinct written positions of `CW` can all be corrected, each by the magnitude `f` gives it. -/
theorem applyCorrections_zip_map_ok {s : State} {ps : List Nat} (f : Nat → Byte) (hnodup : ps.Nodup)
    (hlt : ∀ p ∈ ps, p < 255) (hw : ∀ p ∈ ps, (byteAt s (0x100 + p)).isSome = true) :
    ∃ u, applyCorrections s (ps.zip (ps.map f)) = .ok u ∧
      ∀ p ∈ ps, ∀ v, byteAt s (0x100 + p) = some v → byteAt u (0x100 + p) = some (gfAdd v (f p)) := by
  obtain ⟨u, hu, hbyte⟩ := applyCorrections_ok s (ps.zip (ps.map f)) (by rwa [List.map_fst_zip (by simp)]) fun c hc =>
    ⟨hlt _ (List.of_mem_zip hc).1, hw _ (List.of_mem_zip hc).1⟩
  refine ⟨u, hu, fun p hp => hbyte (p, f p) ?_⟩
  rw [← List.map_prod_left_eq_zip]
  exact List.mem_map_of_mem hp

/-- Corrections change no byte but those at the positions listed. -/
theorem applyCorrections_zip_byteAt_ne {s u : State} {ps : List Nat} {ys : List Byte}
    (h : applyCorrections s (ps.zip ys) = .ok u) {a : Nat} (ha : ∀ p ∈ ps, a ≠ 0x100 + p) :
    byteAt u a = byteAt s a :=
  applyCorrections_get_ne h fun _ hc => ha _ (List.of_mem_zip hc).1

/-- With as many roots as LDEG and their bytes written, CORRECT adds the rules' magnitudes to `CW` and records the errors. -/
theorem correctBody_of_roots {s : State} {lam syn : List Byte} {roots : List Nat} (hv : s.locValid = true)
    (hlam : readEntries s .lambda 0 (s.parityCount + 1) = .ok lam)
    (hsyn : readEntries s .syn 0 s.parityCount = .ok syn) (hn : s.codeLength ≤ 255)
    (hroots : roots = rootPositions lam s.codeLength) (hcount : roots.length = s.locatorLength)
    (hsize : roots.length ≤ 128) (hw : ∀ p ∈ roots, (byteAt s (0x100 + p)).isSome = true) :
    ∃ u, applyCorrections s (roots.zip (roots.map (magnitudeSum syn lam s.codeLength))) = .ok u ∧
      (∀ p ∈ roots, ∀ v, byteAt s (0x100 + p) = some v →
        byteAt u (0x100 + p) = some (gfAdd v (magnitudeSum syn lam s.codeLength p))) ∧
      correctBody s = .ok (u.storeErrors roots (roots.map (magnitudeSum syn lam s.codeLength))) := by
  subst hroots
  obtain ⟨u, hu, hcorrected⟩ := applyCorrections_zip_map_ok (magnitudeSum syn lam s.codeLength)
    (rootPositions_nodup lam _) (fun _ hp => (lt_of_mem_rootPositions hp).trans_le hn) hw
  refine ⟨u, hu, hcorrected, ?_⟩
  rw [← magnitudes_rootPositions syn lam hn] at hu ⊢
  exact correctBody_of_corrections hv hlam hsyn rfl hcount hsize hu

section
variable (s : State) (roots : List Nat) (mags : List Byte)

theorem storeErrors_mem : (s.storeErrors roots mags).mem =
    ((s.setEntries .errpos 0 (roots.map (BitVec.ofNat 8))).setEntries .errmag 0 mags).mem := rfl

theorem storeErrors_nerr : (s.storeErrors roots mags).nerr = BitVec.ofNat 8 roots.length := rfl

/-- Recording the errors changes the memory, NERR, the validity flags and RESULT. -/
theorem storeErrors_eq : s.storeErrors roots mags =
    { s with
      mem := (s.storeErrors roots mags).mem, nerr := BitVec.ofNat 8 roots.length, synValid := false,
      locValid := false, synZero := false, result := .ok } := by
  rw [State.storeErrors, State.setEntries_eq _ .errmag, State.setEntries_eq s .errpos]
  rfl

variable {roots mags}

theorem byteAt_errmag_storeErrors {i : Nat} (hi : i < mags.length) :
    byteAt (s.storeErrors roots mags) (0x480 + i) = some mags[i] :=
  holds_setEntries _ .errmag 0 mags i hi

/-- The list of positions ends below the list of magnitudes, which leaves it as it is. -/
theorem byteAt_errpos_storeErrors {i : Nat} (hi : i < roots.length) (hsize : roots.length ≤ 128) :
    byteAt (s.storeErrors roots mags) (0x400 + i) = some (BitVec.ofNat 8 roots[i]) := by
  rw [byteAt, storeErrors_mem]
  refine (sameOutside_setEntries _ .errmag 0 mags _ (by simp; omega)).trans ?_
  refine (holds_setEntries s .errpos 0 (roots.map (BitVec.ofNat 8)) i (by simpa using hi)).trans ?_
  rw [List.getElem_map]

theorem byteAt_storeErrors_outside {a : Nat} (hpos : ¬(0x400 ≤ a ∧ a < 0x400 + roots.length))
    (hmag : ¬(0x480 ≤ a ∧ a < 0x480 + mags.length)) : byteAt (s.storeErrors roots mags) a = byteAt s a := by
  rw [byteAt, storeErrors_mem]
  exact (sameOutside_setEntries _ .errmag 0 mags a hmag).trans
    (sameOutside_setEntries s .errpos 0 _ a (by simpa using hpos))

end

end Sys2Proof.Machine
end

-- ==== Proofs: the obligations of 44_corrector.md R221 to R227 ====
section
/-! The statements on the root search and on CORRECT's two outcomes, settled from the layers above. -/

namespace Sys2Proof.Proofs

open Sys2Proof.Machine Sys2Proof.Claims

/-- Settles O34: the scan filters the positions in order, and its test is the locator's value at the inverse of X_p. -/
theorem rootSearchScansEveryPosition : Obligations.RootSearchScansEveryPosition := by
  intro lam n hn
  refine ⟨rootPositions_pairwise_lt lam n, fun p => ?_⟩
  rw [mem_rootPositions]
  refine and_congr_right fun hp => ?_
  rw [locatorInverse_eq_gfInv hn hp, polyEval_eq_evalSum]

/-- Settles O35: the roots are distinct positions below n, so each byte is corrected once, and the lists lie beyond `CW`. -/
theorem correctAddsForneysMagnitudes : Obligations.CorrectAddsForneysMagnitudes := by
  intro s syn lam roots hf hv hvalid hsynlen hlamlen hsyn hlam hroots hcount hsize hw
  have ⟨_, _, hn⟩ := hvalid
  have hreadLam : readEntries s .lambda 0 (s.parityCount + 1) = .ok lam :=
    readEntries_of_holds hlamlen (by simp [State.parityCount]; omega) hlam
  have hreadSyn : readEntries s .syn 0 s.parityCount = .ok syn :=
    readEntries_of_holds hsynlen (by simp [State.parityCount]; omega) hsyn
  have hlt : ∀ p ∈ roots, p < 255 := fun p hp => (lt_of_mem_rootPositions (hroots ▸ hp)).trans_le hn
  obtain ⟨u, hu, hcorrected, hbody⟩ := correctBody_of_roots hv hreadLam hreadSyn hn hroots hcount hsize hw
  refine ⟨u.storeErrors roots (roots.map (magnitudeSum syn lam s.codeLength)), ?_, ?_, ?_,
    fun i hi v hbyte => ⟨?_, byteAt_errpos_storeErrors u hi hsize, ?_⟩, fun a hcw hpos hmag => ?_⟩
  · rw [exec_unlocked .correct hf, commandBody, hbody]
    rfl
  · rw [storeErrors_eq, applyCorrections_eq hu]
  · rw [storeErrors_nerr, BitVec.toNat_ofNat]
    omega
  · have hmem : roots[i] ∈ roots := List.getElem_mem hi
    have := hlt _ hmem
    rw [byteAt_storeErrors_outside u (by omega) (by omega)]
    exact hcorrected _ hmem v hbyte
  · rw [byteAt_errmag_storeErrors u (by simpa using hi), List.getElem_map]
    rfl
  · rw [byteAt_storeErrors_outside u hpos (by simpa using hmag)]
    exact applyCorrections_zip_byteAt_ne hu hcw

/-- Settles O36: CORRECT compares the root count with LDEG before it writes a byte. -/
theorem rootCountMismatchLeavesTheWord : Obligations.RootCountMismatchLeavesTheWord := by
  intro s lam hf hv hr hlen hlam hcount
  have hread : readEntries s .lambda 0 (s.parityCount + 1) = .ok lam :=
    readEntries_of_holds hlen (by simp [State.parityCount]; omega) hlam
  rw [exec_unlocked .correct hf, commandBody, correctBody_of_root_count_ne hv hread hcount]
  rfl

end Sys2Proof.Proofs
end

-- ==== Proofs: DECODE and its three commands (45_decode.md R254) ====
section
/-! No command body reads CMD, so each stage of DECODE does what its command does after the host's write of its byte. -/

namespace Sys2Proof.Machine

open Sys2Proof.Claims

/-! ### Commands do not read CMD -/

/-- The byte of a CMD write stored, before its command runs (20_memory.md R79). -/
def State.storeCmd (s : State) (v : Byte) : State := { s with cmd := v }

theorem writeCmd_eq_exec_storeCmd (s : State) (v : Byte) : writeCmd s v = exec (decodeByte v) (s.storeCmd v) := rfl

/-- A body that does not read CMD and leaves it: a stored byte only stays. -/
def IgnoresCmd (body : State → Except Fault State) : Prop :=
  ∀ s v, body (s.storeCmd v) = (body s).map (State.storeCmd · v)

/-- Two stages that do not read CMD make one. -/
theorem IgnoresCmd.thenStage {first next : State → Except Fault State} (hfirst : IgnoresCmd first)
    (hnext : IgnoresCmd next) : IgnoresCmd fun s => Machine.thenStage (first s) next := by
  intro s v
  dsimp only
  rw [hfirst]
  cases first s with
  | error f => rfl
  | ok u =>
    by_cases hok : u.result = .ok
    · rw [thenStage_ok hok, ← hnext]
      exact thenStage_ok (s := u.storeCmd v) hok
    · rw [thenStage_stop hok]
      exact thenStage_stop (s := u.storeCmd v) hok

section
variable (s : State) (v : Byte)

theorem readEntries_storeCmd (buf : Buffer) (start n : Nat) :
    readEntries (s.storeCmd v) buf start n = readEntries s buf start n :=
  readEntries_congr (s := s.storeCmd v) (t := s) rfl ..

theorem writeEntries_storeCmd (buf : Buffer) (start : Nat) (vs : List Byte) :
    writeEntries (s.storeCmd v) buf start vs = (writeEntries s buf start vs).map (State.storeCmd · v) := by
  have hset : (s.storeCmd v).setEntries buf start vs = (s.setEntries buf start vs).storeCmd v := by
    induction vs generalizing s start with
    | nil => rfl
    | cons x xs ih => exact ih (s.setEntry buf start x) (start + 1)
  unfold writeEntries
  split
  · rw [hset]; rfl
  · rfl

theorem applyCorrections_storeCmd (ps : List (Nat × Byte)) :
    applyCorrections (s.storeCmd v) ps = (applyCorrections s ps).map (State.storeCmd · v) := by
  induction ps generalizing s with
  | nil => rfl
  | cons c ps ih =>
    obtain ⟨p, y⟩ := c
    rw [applyCorrections, applyCorrections, readEntry_congr (s := s.storeCmd v) (t := s) rfl]
    cases readEntry s .cw p with
    | error f => rfl
    | ok x => exact ih (s.setEntry .cw p (gfAdd x y))

theorem recordErrors_storeCmd (roots : List Nat) (mags : List Byte) :
    recordErrors (s.storeCmd v) roots mags = (recordErrors s roots mags).map (State.storeCmd · v) := by
  rw [recordErrors, recordErrors, writeEntries_storeCmd]
  cases writeEntries s .errpos 0 (roots.map (BitVec.ofNat 8)) with
  | error f => rfl
  | ok u =>
    simp only [Except.map]
    rw [writeEntries_storeCmd]
    cases writeEntries u .errmag 0 mags <;> rfl

end

theorem syndromeBody_ignoresCmd : IgnoresCmd syndromeBody := by
  intro s v
  rw [syndromeBody, syndromeBody, show (s.storeCmd v).paramsOk = s.paramsOk from rfl]
  split
  · rw [readEntries_storeCmd, show (s.storeCmd v).codeLength = s.codeLength from rfl]
    cases readEntries s .cw 0 s.codeLength with
    | error f => rfl
    | ok cw =>
      dsimp only
      rw [writeEntries_storeCmd, show (s.storeCmd v).parityCount = s.parityCount from rfl]
      cases writeEntries s .syn 0 (syndromes cw s.parityCount) <;> rfl
  · rfl

theorem locateBody_ignoresCmd : IgnoresCmd locateBody := by
  intro s v
  rw [locateBody, locateBody, show (s.storeCmd v).synValid = s.synValid from rfl]
  split
  · rw [readEntries_storeCmd, show (s.storeCmd v).parityCount = s.parityCount from rfl]
    cases readEntries s .syn 0 s.parityCount with
    | error f => rfl
    | ok syn =>
      dsimp only
      rw [writeEntries_storeCmd]
      cases writeEntries s .lambda 0 (locate syn).1 with
      | error f => rfl
      | ok u =>
        simp only [Except.map]
        split <;> rfl
  · rfl

theorem correctBody_ignoresCmd : IgnoresCmd correctBody := by
  intro s v
  rw [correctBody, correctBody, show (s.storeCmd v).locValid = s.locValid from rfl]
  split
  · rw [readEntries_storeCmd, readEntries_storeCmd, show (s.storeCmd v).parityCount = s.parityCount from rfl,
      show (s.storeCmd v).codeLength = s.codeLength from rfl,
      show (s.storeCmd v).locatorLength = s.locatorLength from rfl]
    cases readEntries s .lambda 0 (s.parityCount + 1) with
    | error f => rfl
    | ok lam =>
      dsimp only
      split
      · rfl
      · cases readEntries s .syn 0 s.parityCount with
        | error f => rfl
        | ok syn =>
          dsimp only
          rw [applyCorrections_storeCmd]
          cases applyCorrections s ((rootPositions lam s.codeLength).zip
              (magnitudes syn lam s.codeLength (rootPositions lam s.codeLength))) with
          | error f => rfl
          | ok u =>
            simp only [Except.map, recordErrors_storeCmd]
            cases recordErrors u (rootPositions lam s.codeLength)
              (magnitudes syn lam s.codeLength (rootPositions lam s.codeLength)) <;> rfl
  · rfl

/-! ### A host write after a stage -/

/-- An outcome is that of a body's result in every field but CMD. -/
def EndsAs (o : Host.Outcome State Fault Refusal) (result : Except Fault State) : Prop :=
  ∃ v, o = outcomeOf (result.map (State.storeCmd · v))

theorem EndsAs.mapNext_storeCmd {o : Host.Outcome State Fault Refusal} {result : Except Fault State}
    (h : EndsAs o result) (v : Byte) :
    mapNext (State.storeCmd · v) o = outcomeOf (result.map (State.storeCmd · v)) := by
  obtain ⟨w, rfl⟩ := h
  cases result <;> rfl

/-- On an unlocked core a CMD write runs the body of its instruction, with the byte stored. -/
theorem writeCmd_unlocked {s : State} {v : Byte} (hf : s.fatal = false)
    (hbody : IgnoresCmd (commandBody (decodeByte v))) :
    writeCmd s v = outcomeOf ((commandBody (decodeByte v) s).map (State.storeCmd · v)) := by
  rw [writeCmd_eq_exec_storeCmd, exec_unlocked _ (s := s.storeCmd v) hf, hbody]

/-- The next host write, issued where RESULT is OK, does what the next stage does. -/
theorem EndsAs.ifOk_writeCmd {o : Host.Outcome State Fault Refusal} {stage : Except Fault State} {v : Byte}
    (h : EndsAs o stage) (hf : ∀ u, stage = .ok u → u.fatal = false)
    (hbody : IgnoresCmd (commandBody (decodeByte v))) :
    EndsAs (ifOk o fun t => writeCmd t v) (thenStage stage (commandBody (decodeByte v))) := by
  obtain ⟨w, rfl⟩ := h
  cases stage with
  | error f => exact ⟨w, rfl⟩
  | ok u =>
    by_cases hok : u.result = .ok
    · have hoverwrite : writeCmd (u.storeCmd w) v = writeCmd u v := rfl
      refine ⟨v, ?_⟩
      rw [thenStage_ok hok, ← writeCmd_unlocked (hf u rfl) hbody, ← hoverwrite]
      exact if_pos hok
    · exact ⟨w, by rw [thenStage_stop hok]; exact if_neg hok⟩

theorem decodeBody_ignoresCmd : IgnoresCmd decodeBody :=
  (syndromeBody_ignoresCmd.thenStage locateBody_ignoresCmd).thenStage correctBody_ignoresCmd

end Sys2Proof.Machine
end

-- ==== Proofs: the obligation on the three commands of DECODE ====
section
/-! The statement on DECODE as three host writes, settled from the layer above. -/

namespace Sys2Proof.Proofs

open Sys2Proof.Machine Sys2Proof.Claims

/-- Settles O39: a locked core answers all four bytes alike; on an unlocked one each write runs its stage of DECODE, and no stage
locks the core or reads CMD. -/
theorem decodeIsTheThreeCommands : Obligations.DecodeIsTheThreeCommands := by
  intro s
  by_cases hf : s.fatal = true
  · have hlocked (v : Byte) : writeCmd s v = .next ((s.storeCmd v).raise .locked) :=
      exec_locked (s := s.storeCmd v) _ hf
    rw [hlocked, hlocked]
    rfl
  · have hf : s.fatal = false := by simpa using hf
    have hsyn : EndsAs (writeCmd s 0x06) (syndromeBody s) := ⟨0x06, writeCmd_unlocked hf syndromeBody_ignoresCmd⟩
    have hloc : EndsAs _ (thenStage (syndromeBody s) locateBody) :=
      hsyn.ifOk_writeCmd (v := 0x07) (fun u hu => (syndromeBody_fatal hu).trans hf) locateBody_ignoresCmd
    have hcor : EndsAs _ (decodeBody s) :=
      hloc.ifOk_writeCmd (v := 0x08) (fun u hu => thenStage_preserves (P := fun w => w.fatal = false) hu
        (fun w hw => (syndromeBody_fatal hw).trans hf) fun w x hw hx => (locateBody_fatal hx).trans hw)
        correctBody_ignoresCmd
    exact (writeCmd_unlocked (v := 0x09) hf decodeBody_ignoresCmd).trans (hcor.mapNext_storeCmd 0x09).symm

end Sys2Proof.Proofs
end

-- ==== Proofs: bytes as elements of a field, and lists of bytes as polynomials ====
section
/-! Mathlib's polynomials need a `Field`. The field of the bytes is reached through a map that keeps sums, products and 1, so
that facts about byte lists and facts about polynomials over a field translate into each other. -/

namespace Sys2Proof.Machine

open Sys2Proof.Claims Polynomial

/-! ### The field -/

/-- The bytes under a name of their own, without the arithmetic of bit vectors. -/
def FieldByte : Type := Byte

/-- The ring of the bytes (40_field_arithmetic.md R122, R126). -/
@[reducible] def fieldByteRing : CommRing FieldByte where
  add := gfAdd
  add_assoc := gfAdd_assoc
  zero := (0x00 : Byte)
  zero_add := zero_gfAdd
  add_zero := gfAdd_zero
  nsmul := @nsmulRec FieldByte ⟨(0x00 : Byte)⟩ ⟨gfAdd⟩
  add_comm := gfAdd_comm
  mul := gfMul
  left_distrib := gfMul_add
  right_distrib := add_gfMul
  zero_mul := zero_gfMul
  mul_zero := gfMul_zero
  mul_assoc := gfMul_assoc
  one := (0x01 : Byte)
  one_mul := one_gfMul
  mul_one := gfMul_one
  neg := id
  zsmul := @zsmulRec FieldByte ⟨(0x00 : Byte)⟩ ⟨gfAdd⟩ ⟨id⟩ (@nsmulRec FieldByte ⟨(0x00 : Byte)⟩ ⟨gfAdd⟩)
  neg_add_cancel := gfAdd_self
  mul_comm := gfMul_comm

/-- Every nonzero byte has an inverse (40_field_arithmetic.md R127). -/
theorem fieldByteRing_isField : @IsField FieldByte fieldByteRing.toSemiring :=
  letI := fieldByteRing
  { exists_pair_ne := ⟨(0x00 : Byte), (0x01 : Byte), show (0x00 : Byte) ≠ 0x01 by decide⟩
    mul_comm := gfMul_comm
    mul_inv_cancel := fun {x} hx => ⟨gfInv x, gfMul_gfInv hx⟩ }

/-- A map of the bytes into a field that keeps sums, products and 1. -/
structure FieldEmbedding {K : Type} [Field K] (φ : Byte → K) : Prop where
  map_add : ∀ x y, φ (gfAdd x y) = φ x + φ y
  map_mul : ∀ x y, φ (gfMul x y) = φ x * φ y
  map_one : φ 0x01 = 1

/-- There is such a map: the identity. -/
theorem exists_fieldEmbedding : ∃ (K : Type) (_ : Field K) (φ : Byte → K), FieldEmbedding φ :=
  letI := fieldByteRing
  letI := fieldByteRing_isField.toField
  ⟨FieldByte, inferInstance, id, fun _ _ => rfl, fun _ _ => rfl, rfl⟩

namespace FieldEmbedding

variable {K : Type} [Field K] {φ : Byte → K}

theorem map_zero (h : FieldEmbedding φ) : φ 0x00 = 0 := by
  have hadd := h.map_add 0x00 0x00
  rwa [gfAdd_self, left_eq_add] at hadd

/-- Every element is its own negative. -/
theorem add_self (h : FieldEmbedding φ) (z : K) : z + z = 0 := by
  have htwo : (1 : K) + 1 = 0 := by rw [← h.map_one, ← h.map_add, gfAdd_self, h.map_zero]
  rw [← mul_one z, ← mul_add, htwo, mul_zero]

theorem neg_eq (h : FieldEmbedding φ) (z : K) : -z = z := neg_eq_of_add_eq_zero_left (h.add_self z)

theorem map_ne_zero (h : FieldEmbedding φ) {x : Byte} (hx : x ≠ 0x00) : φ x ≠ 0 := by
  intro hzero
  have hone := h.map_mul x (gfInv x)
  rw [gfMul_gfInv hx, h.map_one, hzero, zero_mul] at hone
  exact one_ne_zero hone

theorem map_eq_zero_iff (h : FieldEmbedding φ) {x : Byte} : φ x = 0 ↔ x = 0x00 :=
  ⟨fun hx => by_contra fun hne => h.map_ne_zero hne hx, fun hx => hx ▸ h.map_zero⟩

theorem injective (h : FieldEmbedding φ) : Function.Injective φ := by
  intro x y hxy
  rw [← gfAdd_eq_zero_iff, ← h.map_eq_zero_iff, h.map_add, hxy, h.add_self]

theorem map_inv (h : FieldEmbedding φ) {x : Byte} (hx : x ≠ 0x00) : φ (gfInv x) = (φ x)⁻¹ := by
  refine eq_inv_of_mul_eq_one_right ?_
  rw [← h.map_mul, gfMul_gfInv hx, h.map_one]

theorem map_pow (h : FieldEmbedding φ) (x : Byte) (n : Nat) : φ (gfPow x n) = φ x ^ n := by
  induction n with
  | zero => rw [gfPow_zero, h.map_one, pow_zero]
  | succ n ih => rw [gfPow_succ, h.map_mul, ih, pow_succ]

theorem map_sumTo (h : FieldEmbedding φ) (n : Nat) (f : Nat → Byte) :
    φ (sumTo n f) = ∑ i ∈ Finset.range n, φ (f i) := by
  induction n generalizing f with
  | zero => exact h.map_zero
  | succ n ih => rw [sumTo_succ, h.map_add, ih, Finset.sum_range_succ', add_comm]

end FieldEmbedding

/-! ### Polynomials -/

section
variable {K : Type} [Field K] (φ : Byte → K)

/-- The polynomial of a coefficient list, constant term first (00_scope.md R14). -/
noncomputable def listPoly : List Byte → K[X]
  | [] => 0
  | c :: cs => C (φ c) + X * listPoly cs

variable {φ}

theorem coeff_listPoly (h : FieldEmbedding φ) (c : List Byte) (i : Nat) :
    (listPoly φ c).coeff i = φ (c.getD i 0x00) := by
  induction c generalizing i with
  | nil => exact h.map_zero.symm
  | cons c cs ih =>
    cases i with
    | zero => simp [listPoly]
    | succ i => simp [listPoly, ih]

theorem coeff_listPoly_of_length_le (h : FieldEmbedding φ) {c : List Byte} {i : Nat} (hi : c.length ≤ i) :
    (listPoly φ c).coeff i = 0 := by
  rw [coeff_listPoly h, List.getD_eq_default _ _ hi, h.map_zero]

theorem eval_listPoly (h : FieldEmbedding φ) (c : List Byte) (x : Byte) :
    (listPoly φ c).eval (φ x) = φ (polyEval c x) := by
  induction c with
  | nil => exact eval_zero.trans h.map_zero.symm
  | cons c cs ih => simp [listPoly, ih, h.map_add, h.map_mul]

/-- The coefficient i of a product, as the rules write it: a sum over the degrees of one factor. -/
theorem coeff_mul_eq_sum_range (p q : K[X]) (n : Nat) :
    (p * q).coeff n = ∑ i ∈ Finset.range (n + 1), p.coeff i * q.coeff (n - i) :=
  (coeff_mul p q n).trans (Finset.Nat.sum_antidiagonal_eq_sum_range_succ_mk _ n)

/-- In characteristic 2 the even-degree terms of a derivative vanish (44_corrector.md R223). -/
theorem listPoly_formalDerivative (h : FieldEmbedding φ) (c : List Byte) :
    listPoly φ (formalDerivative c) = derivative (listPoly φ c) := by
  ext i
  have htwo (m : Nat) : ((m + m : Nat) : K) = 0 := by rw [Nat.cast_add, h.add_self]
  rw [coeff_listPoly h, formalDerivative_getD, coeff_derivative, coeff_listPoly h]
  split
  · next hi =>
    obtain ⟨m, rfl⟩ := Nat.even_iff.mpr hi
    rw [htwo, zero_add, mul_one]
  · next hi =>
    obtain ⟨m, rfl⟩ := Nat.odd_iff.mpr (Nat.mod_two_ne_zero.mp hi)
    rw [h.map_zero, ← Nat.cast_succ, show (2 * m + 1).succ = (m + 1) + (m + 1) by omega, htwo, mul_zero]

end

end Sys2Proof.Machine
end

-- ==== Proofs: the key equation and Forney's formula over a field (44_corrector.md R221 to R224) ====
section
/-! The locator and evaluator polynomials of a set of errors solve the key equation, and where the errors are at most half the
syndromes nothing else of their degrees does. -/

namespace Sys2Proof.Machine

open Polynomial

section
variable {K : Type} [Field K] (E : Finset Nat) (x y : Nat → K)

/-- The error locator: one factor 1 - X_p x for each error position p. -/
noncomputable def errorLocator : K[X] := ∏ p ∈ E, (1 - C (x p) * X)

/-- The error evaluator: the magnitudes, each times the locator of the other errors. -/
noncomputable def errorEvaluator : K[X] := ∑ p ∈ E, C (y p) * errorLocator (E.erase p) x

/-- The first r syndromes of the errors: coefficient j is the sum of Y_p times X_p to the j (42_syndrome.md R173). -/
noncomputable def errorSyndromes (r : Nat) : K[X] := ∑ p ∈ E, C (y p) * ∑ j ∈ Finset.range r, (C (x p) * X) ^ j

variable {E x y}

/-! ### The locator -/

theorem errorLocator_eq_mul_erase {p : Nat} (hp : p ∈ E) :
    errorLocator E x = (1 - C (x p) * X) * errorLocator (E.erase p) x := (Finset.mul_prod_erase E _ hp).symm

theorem errorLocator_coeff_zero : (errorLocator E x).coeff 0 = 1 := by
  simp [errorLocator, coeff_zero_eq_eval_zero, eval_prod]

theorem errorLocator_ne_zero : errorLocator E x ≠ 0 := by
  intro h
  have hcoeff := errorLocator_coeff_zero (E := E) (x := x)
  rw [h, coeff_zero] at hcoeff
  exact zero_ne_one hcoeff

theorem natDegree_errorLocator (hx : ∀ p ∈ E, x p ≠ 0) : (errorLocator E x).natDegree = E.card := by
  have hfactor (p : Nat) (hp : p ∈ E) : (1 - C (x p) * X).natDegree = 1 := by
    rw [← C_1, sub_eq_neg_add, ← neg_mul, ← C_neg, natDegree_linear (neg_ne_zero.mpr (hx p hp))]
  rw [errorLocator, natDegree_prod _ _ fun p hp hzero => by simpa [hzero] using hfactor p hp, Finset.sum_congr rfl hfactor,
    Finset.card_eq_sum_ones]

/-- The locator vanishes at the inverses of the error positions' values and nowhere else. -/
theorem eval_inv_errorLocator_eq_zero_iff {z : K} (hz : z ≠ 0) :
    (errorLocator E x).eval z⁻¹ = 0 ↔ ∃ p ∈ E, x p = z := by
  simp only [errorLocator, eval_prod, Finset.prod_eq_zero_iff]
  refine exists_congr fun p => and_congr_right fun _ => ?_
  simp [sub_eq_zero, eq_comm (a := (1 : K)), mul_inv_eq_one₀ hz]

/-- The locator of the other errors does not vanish at an error. -/
theorem eval_inv_errorLocator_erase_ne_zero (hinj : Set.InjOn x E) {p : Nat} (hp : p ∈ E) (hx : x p ≠ 0) :
    (errorLocator (E.erase p) x).eval (x p)⁻¹ ≠ 0 := by
  rw [ne_eq, eval_inv_errorLocator_eq_zero_iff hx]
  rintro ⟨q, hq, heq⟩
  exact Finset.ne_of_mem_erase hq (hinj (Finset.mem_of_mem_erase hq) hp heq)

theorem eval_inv_derivative_errorLocator {p : Nat} (hp : p ∈ E) (hx : x p ≠ 0) :
    (derivative (errorLocator E x)).eval (x p)⁻¹ = -x p * (errorLocator (E.erase p) x).eval (x p)⁻¹ := by
  rw [errorLocator_eq_mul_erase hp]
  simp [derivative_mul, hx]

/-! ### The evaluator -/

theorem degree_errorEvaluator_lt (hx : ∀ p ∈ E, x p ≠ 0) : (errorEvaluator E x y).degree < E.card := by
  rw [degree_lt_iff_coeff_zero]
  intro m hm
  rw [errorEvaluator, finsetSum_coeff]
  refine Finset.sum_eq_zero fun p hp => ?_
  have hdeg := natDegree_errorLocator (E := E.erase p) (x := x) fun q hq => hx q (Finset.mem_of_mem_erase hq)
  have hcard := Finset.card_erase_lt_of_mem hp
  rw [coeff_C_mul, coeff_eq_zero_of_natDegree_lt (by omega), mul_zero]

/-- At an error only its own term of the evaluator stays. -/
theorem eval_inv_errorEvaluator {p : Nat} (hp : p ∈ E) (hx : x p ≠ 0) :
    (errorEvaluator E x y).eval (x p)⁻¹ = y p * (errorLocator (E.erase p) x).eval (x p)⁻¹ := by
  rw [errorEvaluator, eval_finsetSum, Finset.sum_eq_single_of_mem p hp, eval_mul, eval_C]
  intro q _ hne
  rw [eval_mul, (eval_inv_errorLocator_eq_zero_iff hx).mpr ⟨p, Finset.mem_erase.mpr ⟨hne.symm, hp⟩, rfl⟩, mul_zero]

/-- Forney's formula gives the magnitude, up to the sign (44_corrector.md R224). -/
theorem forney_formula (hinj : Set.InjOn x E) {p : Nat} (hp : p ∈ E) (hx : x p ≠ 0) :
    x p * (errorEvaluator E x y).eval (x p)⁻¹ * ((derivative (errorLocator E x)).eval (x p)⁻¹)⁻¹ = -y p := by
  have hne := eval_inv_errorLocator_erase_ne_zero hinj hp hx
  rw [eval_inv_errorEvaluator hp hx, eval_inv_derivative_errorLocator hp hx]
  generalize (errorLocator (E.erase p) x).eval (x p)⁻¹ = others at hne
  field_simp

/-! ### The key equation -/

/-- Locator times syndromes is the evaluator, up to degree r: each syndrome is a geometric sum that its own factor closes. -/
theorem X_pow_dvd_errorLocator_mul_sub (r : Nat) :
    X ^ r ∣ errorLocator E x * errorSyndromes E x y r - errorEvaluator E x y := by
  rw [errorSyndromes, errorEvaluator, Finset.mul_sum, ← Finset.sum_sub_distrib]
  refine Finset.dvd_sum fun p hp => ?_
  have hgeom := mul_neg_geom_sum (C (x p) * X) r
  have hterm : errorLocator E x * (C (y p) * ∑ j ∈ Finset.range r, (C (x p) * X) ^ j) -
      C (y p) * errorLocator (E.erase p) x = X ^ r * -(C (y p) * errorLocator (E.erase p) x * C (x p) ^ r) := by
    rw [errorLocator_eq_mul_erase hp]
    linear_combination C (y p) * errorLocator (E.erase p) x * hgeom
  exact ⟨_, hterm⟩

section
variable (hinj : Set.InjOn x E) (hx : ∀ p ∈ E, x p ≠ 0) (hy : ∀ p ∈ E, y p ≠ 0) {r : Nat} (hr : 2 * E.card ≤ r)
  {lam om : K[X]} (hlam0 : lam.coeff 0 = 1) (hlam : lam.degree ≤ E.card) (hom : om.degree < E.card)
  (hkey : X ^ r ∣ lam * errorSyndromes E x y r - om)
include hx hr hlam hom hkey

/-- Two solutions agree when multiplied crosswise: the difference is a multiple of x^r of a degree below r. -/
theorem errorLocator_mul_eq_mul_errorEvaluator : errorLocator E x * om = lam * errorEvaluator E x y := by
  have hdvd : X ^ r ∣ errorLocator E x * om - lam * errorEvaluator E x y := by
    have hsub := dvd_sub ((X_pow_dvd_errorLocator_mul_sub (E := E) (x := x) (y := y) r).mul_left lam)
      (hkey.mul_left (errorLocator E x))
    convert hsub using 1
    ring
  have hloc : (errorLocator E x).degree ≤ E.card := natDegree_le_iff_degree_le.mp (natDegree_errorLocator hx).le
  have hsum : ((E.card + E.card : Nat) : WithBot Nat) ≤ r := by exact_mod_cast (two_mul E.card) ▸ hr
  have hdeg {p q : K[X]} (hp : p.degree ≤ E.card) (hq : q.degree < E.card) : (p * q).degree < r := by
    calc (p * q).degree
      _ ≤ p.degree + q.degree := degree_mul_le p q
      _ ≤ E.card + q.degree := add_le_add_left hp _
      _ < E.card + E.card := WithBot.add_lt_add_left (WithBot.natCast_ne_bot _) hq
      _ ≤ r := hsum
  refine sub_eq_zero.mp (eq_zero_of_dvd_of_degree_lt hdvd ?_)
  rw [degree_X_pow]
  exact (degree_sub_le _ _).trans_lt (max_lt (hdeg hloc hom) (hdeg hlam (degree_errorEvaluator_lt hx)))

include hinj hy

theorem eval_inv_eq_zero_of_key {p : Nat} (hp : p ∈ E) : lam.eval (x p)⁻¹ = 0 := by
  have hcross := congrArg (eval (x p)⁻¹) (errorLocator_mul_eq_mul_errorEvaluator hx hr hlam hom hkey)
  rw [eval_mul, eval_mul, (eval_inv_errorLocator_eq_zero_iff (hx p hp)).mpr ⟨p, hp, rfl⟩, zero_mul,
    eval_inv_errorEvaluator hp (hx p hp)] at hcross
  exact (mul_eq_zero.mp hcross.symm).resolve_right
    (mul_ne_zero (hy p hp) (eval_inv_errorLocator_erase_ne_zero hinj hp (hx p hp)))

include hlam0

/-- The locator is the only solution: it and any other agree at 0 and at every error, one point more than their degree. -/
theorem eq_errorLocator_of_key : lam = errorLocator E x := by
  classical
  have hinv : Set.InjOn (fun p => (x p)⁻¹) E := fun p hp q hq h => hinj hp hq (inv_injective h)
  have hzero : (0 : K) ∉ E.image fun p => (x p)⁻¹ := by
    simp only [Finset.mem_image, inv_eq_zero, not_exists, not_and]
    exact hx
  have hloc : (errorLocator E x).degree ≤ E.card := natDegree_le_iff_degree_le.mp (natDegree_errorLocator hx).le
  refine eq_of_degree_sub_lt_of_eval_finset_eq (insert 0 (E.image fun p => (x p)⁻¹)) ?_ ?_
  · rw [Finset.card_insert_of_notMem hzero, Finset.card_image_of_injOn hinv]
    refine (degree_sub_le _ _).trans_lt ((max_le hlam hloc).trans_lt ?_)
    exact_mod_cast Nat.lt_succ_self _
  · simp only [Finset.forall_mem_insert, Finset.forall_mem_image, ← coeff_zero_eq_eval_zero, hlam0,
      errorLocator_coeff_zero, true_and]
    intro p hp
    rw [eval_inv_eq_zero_of_key hinj hx hy hr hlam hom hkey hp,
      (eval_inv_errorLocator_eq_zero_iff (hx p hp)).mpr ⟨p, hp, rfl⟩]

theorem eq_errorEvaluator_of_key : om = errorEvaluator E x y := by
  have hcross := errorLocator_mul_eq_mul_errorEvaluator hx hr hlam hom hkey
  rw [eq_errorLocator_of_key hinj hx hy hr hlam0 hlam hom hkey] at hcross
  exact mul_left_cancel₀ errorLocator_ne_zero hcross

end

end

end Sys2Proof.Machine
end

-- ==== Proofs: Massey's algorithm over a field (43_locator.md R193 to R198) ====
section
/-! What every iteration keeps: the locator is the shortest shift register that generates the syndromes so far, and the
baseline, moved up by its shift, is ready to cancel the next discrepancy. The syndromes s_0, s_1, … stand at the degrees 1, 2, …
of a polynomial with constant term 1, so that the initial baseline 1 has the discrepancy 1 like every later one. -/

namespace Sys2Proof.Machine

open Polynomial

section
variable {K : Type} [Field K]

/-! ### Shift registers -/

/-- `lam` is the connection polynomial of a shift register of length `len` that generates the coefficients of `S` up to
degree n: each one above `len` is its combination of the `len` before it. -/
structure IsRegister (S lam : K[X]) (len n : Nat) : Prop where
  coeff_zero : lam.coeff 0 = 1
  coeff_eq_zero : ∀ i, len < i → lam.coeff i = 0
  generates : ∀ i, len < i → i ≤ n → (lam * S).coeff i = 0

theorem IsRegister.mono {S lam : K[X]} {len m n : Nat} (h : IsRegister S lam len n) (hm : m ≤ n) :
    IsRegister S lam len m :=
  ⟨h.coeff_zero, h.coeff_eq_zero, fun i hlt hi => h.generates i hlt (hi.trans hm)⟩

/-- Where q vanishes at the degrees just below n that p reaches, only one term of the coefficient n of the product stays. -/
theorem coeff_mul_of_vanishing {p q : K[X]} {a n : Nat} (hp : ∀ i, a < i → p.coeff i = 0)
    (hq : ∀ i, i < n → n ≤ i + a → q.coeff i = 0) : (p * q).coeff n = p.coeff 0 * q.coeff n := by
  rw [coeff_mul_eq_sum_range, Finset.sum_range_succ', Nat.sub_zero, add_eq_right]
  refine Finset.sum_eq_zero fun i hi => ?_
  have hin := Finset.mem_range.mp hi
  by_cases hia : i + 1 ≤ a
  · rw [hq _ (by omega) (by omega), mul_zero]
  · rw [hp _ (by omega), zero_mul]

/-- Massey's lemma: where a register of length `len` fails at n + 1, one that does not has a length of at least n + 1 - len. -/
theorem IsRegister.lt_add_of_discrepancy {S cur lam : K[X]} {len l n : Nat} (hcur : IsRegister S cur len n)
    (hlam : IsRegister S lam l (n + 1)) (hd : (cur * S).coeff (n + 1) ≠ 0) : n < l + len := by
  by_contra hle
  have hzero : (cur * (lam * S)).coeff (n + 1) = 0 := by
    rw [coeff_mul_of_vanishing hcur.coeff_eq_zero fun i hi hi' => hlam.generates i (by omega) hi.le,
      hlam.generates _ (by omega) le_rfl, mul_zero]
  rw [mul_left_comm, coeff_mul_of_vanishing hlam.coeff_eq_zero fun i hi hi' =>
    hcur.generates i (by omega) (Nat.le_of_lt_succ hi), hlam.coeff_zero, one_mul] at hzero
  exact hd hzero

/-! ### The baseline -/

/-- `base`, the earlier locator moved up by its shift, reaches no higher than n + 1 - `len`, and its product with S vanishes at
the degrees from n + 2 - `len` to n and is b at n + 1. -/
structure IsBaseline (S base : K[X]) (len n : Nat) (b : K) : Prop where
  factor_ne_zero : b ≠ 0
  coeff_zero : base.coeff 0 = 0
  coeff_eq_zero : ∀ i, n + 1 < i + len → base.coeff i = 0
  generates : ∀ i, n + 1 < i + len → i ≤ n → (base * S).coeff i = 0
  discrepancy : (base * S).coeff (n + 1) = b

/-- An iteration that keeps the baseline moves it up by one degree. -/
theorem IsBaseline.shift {S base : K[X]} {len n : Nat} {b : K} (h : IsBaseline S base len n b) :
    IsBaseline S (X * base) len (n + 1) b where
  factor_ne_zero := h.factor_ne_zero
  coeff_zero := coeff_X_mul_zero base
  coeff_eq_zero i hi := by
    cases i with
    | zero => exact coeff_X_mul_zero base
    | succ i => rw [coeff_X_mul, h.coeff_eq_zero i (by omega)]
  generates i hi hin := by
    rw [mul_assoc]
    cases i with
    | zero => exact coeff_X_mul_zero _
    | succ i => rw [coeff_X_mul, h.generates i (by omega) (by omega)]
  discrepancy := by rw [mul_assoc, coeff_X_mul, h.discrepancy]

/-- A register that fails at n + 1 is the baseline of the iterations after that. -/
theorem IsRegister.isBaseline {S cur : K[X]} {len n : Nat} (h : IsRegister S cur len n) (hlen : len ≤ n)
    (hd : (cur * S).coeff (n + 1) ≠ 0) :
    IsBaseline S (X * cur) (n + 1 - len) (n + 1) ((cur * S).coeff (n + 1)) where
  factor_ne_zero := hd
  coeff_zero := coeff_X_mul_zero cur
  coeff_eq_zero i hi := by
    cases i with
    | zero => exact coeff_X_mul_zero cur
    | succ i => rw [coeff_X_mul, h.coeff_eq_zero i (by omega)]
  generates i hi hin := by
    rw [mul_assoc]
    cases i with
    | zero => exact coeff_X_mul_zero _
    | succ i => rw [coeff_X_mul, h.generates i (by omega) (by omega)]
  discrepancy := by rw [mul_assoc, coeff_X_mul]

/-- The multiple of the baseline that cancels the discrepancy makes the locator a register for one syndrome more, at a length
that holds both polynomials. -/
theorem IsRegister.add_baseline {S cur base : K[X]} {len n : Nat} {a b : K} (hcur : IsRegister S cur len n)
    (hbase : IsBaseline S base len n b) (ha : (cur * S).coeff (n + 1) + a * b = 0) {len' : Nat} (hlen : len ≤ len')
    (hsum : n + 1 ≤ len' + len) : IsRegister S (cur + C a * base) len' (n + 1) where
  coeff_zero := by rw [coeff_add, coeff_C_mul, hcur.coeff_zero, hbase.coeff_zero, mul_zero, add_zero]
  coeff_eq_zero i hi := by
    rw [coeff_add, coeff_C_mul, hcur.coeff_eq_zero i (by omega), hbase.coeff_eq_zero i (by omega), mul_zero, add_zero]
  generates i hlt hi := by
    rw [add_mul, mul_assoc, coeff_add, coeff_C_mul]
    obtain hi | rfl := Nat.lt_or_eq_of_le hi
    · rw [hcur.generates i (by omega) (by omega), hbase.generates i (by omega) (by omega), mul_zero, add_zero]
    · rw [hbase.discrepancy, ha]

/-! ### The invariant -/

/-- After n iterations: the locator `cur` is a shortest register, and `base` is the shifted baseline. -/
structure MasseyInvariant (S cur base : K[X]) (len n : Nat) (b : K) : Prop where
  register : IsRegister S cur len n
  baseline : IsBaseline S base len n b
  minimal : ∀ lam l, IsRegister S lam l n → len ≤ l

/-- Before the first iteration both polynomials are 1 and the length is 0. -/
theorem masseyInvariant_init {S : K[X]} (hS : S.coeff 0 = 1) : MasseyInvariant S 1 X 0 0 1 where
  register := ⟨coeff_one_zero, fun i hi => by rw [coeff_one, if_neg (by omega)], fun i hlt hi => by omega⟩
  baseline := ⟨one_ne_zero, coeff_X_zero, fun i hi => coeff_X_of_ne_one (by omega), fun i hlt hi => by omega,
    by rw [coeff_X_mul, hS]⟩
  minimal _ _ _ := Nat.zero_le _

section
variable {S cur base : K[X]} {len n : Nat} {b : K} (h : MasseyInvariant S cur base len n b)
include h

/-- With discrepancy 0 only the shift advances. -/
theorem MasseyInvariant.advance (hd : (cur * S).coeff (n + 1) = 0) :
    MasseyInvariant S cur (X * base) len (n + 1) b where
  register := by
    refine ⟨h.register.coeff_zero, h.register.coeff_eq_zero, fun i hlt hi => ?_⟩
    obtain hi | rfl := Nat.lt_or_eq_of_le hi
    · exact h.register.generates i hlt (Nat.le_of_lt_succ hi)
    · exact hd
  baseline := h.baseline.shift
  minimal lam l hlam := h.minimal lam l (hlam.mono n.le_succ)

/-- The adjusting arm: the length stays. -/
theorem MasseyInvariant.adjust {a : K} (ha : (cur * S).coeff (n + 1) + a * b = 0) (hL : n < 2 * len) :
    MasseyInvariant S (cur + C a * base) (X * base) len (n + 1) b where
  register := h.register.add_baseline h.baseline ha le_rfl (by omega)
  baseline := h.baseline.shift
  minimal lam l hlam := h.minimal lam l (hlam.mono n.le_succ)

/-- The growing arm: the locator becomes the baseline, and by Massey's lemma no register is shorter than the new length. -/
theorem MasseyInvariant.grow {a : K} (ha : (cur * S).coeff (n + 1) + a * b = 0) (hd : (cur * S).coeff (n + 1) ≠ 0)
    (hL : 2 * len ≤ n) :
    MasseyInvariant S (cur + C a * base) (X * cur) (n + 1 - len) (n + 1) ((cur * S).coeff (n + 1)) where
  register := h.register.add_baseline h.baseline ha (by omega) (by omega)
  baseline := h.register.isBaseline (by omega) hd
  minimal lam l hlam := by
    have := h.register.lt_add_of_discrepancy hlam hd
    omega

end

end

end Sys2Proof.Machine
end

-- ==== Proofs: LOCATE finds a shortest shift register (43_locator.md R192 to R198) ====
section
/-! The model's Berlekamp-Massey state, read as polynomials, keeps Massey's invariant, so LOCATE returns a shortest register of
the syndromes. -/

namespace Sys2Proof.Machine

open Sys2Proof.Claims Polynomial

section
variable {K : Type} [Field K] {φ : Byte → K}

theorem listPoly_one_cons_replicate_zero (h : FieldEmbedding φ) (r : Nat) :
    listPoly φ (0x01 :: List.replicate r 0x00) = 1 := by
  ext i
  rw [coeff_listPoly h, coeff_one]
  cases i with
  | zero => exact h.map_one
  | succ i =>
    rw [List.getD_cons_succ, List.getD_eq_getElem?_getD, List.getElem?_getD_replicate_default_eq, h.map_zero,
      if_neg i.succ_ne_zero]

/-- The polynomial update (R195), where the moved baseline does not reach beyond the coefficients kept. -/
theorem listPoly_addShifted (h : FieldEmbedding φ) {cur base : List Byte} (hlen : base.length = cur.length) (c : Byte)
    (m : Nat) (hfit : ∀ i, cur.length ≤ i → (X ^ m * listPoly φ base).coeff i = 0) :
    listPoly φ (addShifted cur c m base) = listPoly φ cur + C (φ c) * (X ^ m * listPoly φ base) := by
  ext i
  rw [coeff_add, coeff_C_mul]
  by_cases hi : i < cur.length
  · rw [coeff_listPoly h, addShifted_getD hlen c m hi, h.map_add, coeff_listPoly h, coeff_X_pow_mul']
    split
    · rw [h.map_mul, coeff_listPoly h]
    · rw [h.map_zero, mul_zero]
  · rw [hfit i (by omega), coeff_listPoly_of_length_le h (by simpa using hi), coeff_listPoly_of_length_le h (by omega),
      mul_zero, add_zero]

/-- The product with 1 + x q, whose coefficients Massey's invariant speaks of. -/
theorem coeff_mul_one_add_X_mul (p q : K[X]) (n : Nat) :
    (p * (1 + X * q)).coeff (n + 1) = p.coeff (n + 1) + (p * q).coeff n := by
  rw [mul_add, mul_one, mul_left_comm, coeff_add, coeff_X_mul]

/-- The discrepancy (R194) is the coefficient of the product that stands for the next syndrome. -/
theorem map_discrepancy (h : FieldEmbedding φ) {sq : List Byte} {st : BerlekampMassey} {n : Nat} (hlen : st.len ≤ n)
    (hcur : IsRegister (1 + X * listPoly φ sq) (listPoly φ st.current) st.len n) :
    (listPoly φ st.current * (1 + X * listPoly φ sq)).coeff (n + 1) = φ (discrepancy sq st n) := by
  have hsum : φ (discrepancy sq st n) = φ (sq.getD n 0x00) + ∑ i ∈ Finset.range st.len,
      (listPoly φ st.current).coeff (i + 1) * (listPoly φ sq).coeff (n - (i + 1)) := by
    refine (h.map_add ..).trans (congrArg _ ((h.map_sumTo st.len _).trans (Finset.sum_congr rfl fun i _ => ?_)))
    rw [h.map_mul, coeff_listPoly h, coeff_listPoly h]
  rw [coeff_mul_one_add_X_mul, hcur.coeff_eq_zero _ (by omega), zero_add, coeff_mul_eq_sum_range,
    Finset.sum_range_succ', hcur.coeff_zero, one_mul, Nat.sub_zero, coeff_listPoly h sq, hsum, add_comm]
  refine congrArg _ (Finset.sum_subset (Finset.range_subset_range.mpr hlen) fun i _ hi => ?_).symm
  rw [hcur.coeff_eq_zero _ (by simpa [Nat.lt_succ_iff] using hi), zero_mul]

/-- The model's state as the invariant sees it. -/
def KeepsMassey (φ : Byte → K) (sq : List Byte) (st : BerlekampMassey) (n : Nat) : Prop :=
  MasseyInvariant (1 + X * listPoly φ sq) (listPoly φ st.current) (X ^ st.shift * listPoly φ st.baseline) st.len n
    (φ st.factor)

/-- One iteration keeps the invariant, arm by arm. -/
theorem KeepsMassey.iterate (h : FieldEmbedding φ) {sq : List Byte} {st : BerlekampMassey} {n : Nat}
    (hinv : KeepsMassey φ sq st n) (hlen : st.len ≤ n) (hn : n < sq.length)
    (hcur : st.current.length = sq.length + 1) (hbase : st.baseline.length = sq.length + 1) :
    KeepsMassey φ sq (st.iterate sq n) (n + 1) := by
  have hdisc := map_discrepancy h hlen hinv.register
  rw [BerlekampMassey.iterate]
  generalize discrepancy sq st n = d at hdisc
  by_cases hd : d = 0x00
  · rw [hd, update_zero, KeepsMassey, pow_succ', mul_assoc]
    exact hinv.advance (by rw [hdisc, hd, h.map_zero])
  have hnext : listPoly φ (st.update n d).current =
      listPoly φ st.current + C (φ (gfMul d (gfInv st.factor))) * (X ^ st.shift * listPoly φ st.baseline) := by
    rw [update_current_of_ne_zero hd, listPoly_addShifted h (by omega)]
    exact fun i hi => hinv.baseline.coeff_eq_zero i (by omega)
  have hcancel : (listPoly φ st.current * (1 + X * listPoly φ sq)).coeff (n + 1) +
      φ (gfMul d (gfInv st.factor)) * φ st.factor = 0 := by
    have hfactor : st.factor ≠ 0x00 := fun hzero => hinv.baseline.factor_ne_zero (hzero ▸ h.map_zero)
    rw [hdisc, ← h.map_mul, gfMul_assoc, gfMul_comm (gfInv _), gfMul_gfInv hfactor, gfMul_one, h.add_self]
  by_cases hL : 2 * st.len ≤ n
  · have hgrow := hinv.grow hcancel (by rw [hdisc]; exact h.map_ne_zero hd) hL
    rw [update_growing hd hL, KeepsMassey, pow_one, ← hdisc, hnext]
    exact hgrow
  · rw [update_adjusting hd (by omega), KeepsMassey, pow_succ', mul_assoc, hnext]
    exact hinv.adjust hcancel (by omega)

theorem keepsMassey_berlekampMassey (h : FieldEmbedding φ) (sq : List Byte) {n : Nat} (hn : n ≤ sq.length) :
    KeepsMassey φ sq (berlekampMassey sq n) n := by
  induction n with
  | zero =>
    have hone := listPoly_one_cons_replicate_zero h sq.length
    rw [berlekampMassey_zero, KeepsMassey, BerlekampMassey.init, hone, pow_one, mul_one, h.map_one]
    exact masseyInvariant_init (by simp)
  | succ n ih =>
    obtain ⟨hcur, hbase⟩ := berlekampMassey_lengths sq n
    rw [berlekampMassey_succ]
    exact (ih (by omega)).iterate h (berlekampMassey_len_le sq n) (by omega) hcur hbase

/-- LOCATE's polynomial is a register of the syndromes, of the length it returns. -/
theorem isRegister_locate (h : FieldEmbedding φ) (syn : List Byte) :
    IsRegister (1 + X * listPoly φ syn.reverse) (listPoly φ (locate syn).1) (locate syn).2 syn.length :=
  (keepsMassey_berlekampMassey h syn.reverse (n := syn.length) (by simp)).register

/-- No register of the syndromes is shorter. -/
theorem locate_len_le_of_isRegister (h : FieldEmbedding φ) {syn : List Byte} {lam : K[X]} {l : Nat}
    (hlam : IsRegister (1 + X * listPoly φ syn.reverse) lam l syn.length) : (locate syn).2 ≤ l :=
  (keepsMassey_berlekampMassey h syn.reverse (n := syn.length) (by simp)).minimal lam l hlam

/-! ### Registers and the key equation (44_corrector.md R222) -/

/-- A solution of the key equation is a register of the syndromes. -/
theorem isRegister_of_key {q lam om : K[X]} {l r : Nat} (hlam0 : lam.coeff 0 = 1) (hlam : lam.degree ≤ l)
    (hom : om.degree < l) (hkey : X ^ r ∣ lam * q - om) : IsRegister (1 + X * q) lam l r := by
  have hlam' := degree_le_iff_coeff_zero _ _ |>.mp hlam
  refine ⟨hlam0, fun i hi => hlam' i (by exact_mod_cast hi), fun i hlt hi => ?_⟩
  obtain ⟨j, rfl⟩ := Nat.exists_eq_succ_of_ne_zero (n := i) (by omega)
  have hj := X_pow_dvd_iff.mp hkey j (by omega)
  rw [coeff_sub, (degree_lt_iff_coeff_zero _ _).mp hom j (by omega), sub_zero] at hj
  rw [Nat.succ_eq_add_one, coeff_mul_one_add_X_mul, hlam' _ (by exact_mod_cast hlt), hj, zero_add]

/-- The evaluator's coefficients (R222) are those of locator times syndromes. -/
theorem coeff_listPoly_evaluator (h : FieldEmbedding φ) (sq lam : List Byte) {r i : Nat} (hi : i < r) :
    (listPoly φ (evaluator sq lam r)).coeff i = (listPoly φ lam * listPoly φ sq).coeff i := by
  rw [coeff_listPoly h, evaluator_getD sq lam hi, h.map_sumTo, coeff_mul_eq_sum_range]
  refine Finset.sum_congr rfl fun j _ => ?_
  rw [h.map_mul, coeff_listPoly h, coeff_listPoly h, mul_comm]

/-- With the evaluator computed from it, a register solves the key equation. -/
theorem X_pow_dvd_mul_sub_evaluator (h : FieldEmbedding φ) (sq lam : List Byte) (r : Nat) :
    X ^ r ∣ listPoly φ lam * listPoly φ sq - listPoly φ (evaluator sq lam r) :=
  X_pow_dvd_iff.mpr fun i hi => by rw [coeff_sub, coeff_listPoly_evaluator h sq lam hi, sub_self]

theorem degree_listPoly_evaluator_lt (h : FieldEmbedding φ) {sq lam : List Byte} {l r : Nat}
    (hlam : IsRegister (1 + X * listPoly φ sq) (listPoly φ lam) l r) :
    (listPoly φ (evaluator sq lam r)).degree < l := by
  rw [degree_lt_iff_coeff_zero]
  intro i hi
  by_cases hr : i < r
  · have hgen := hlam.generates (i + 1) (by omega) (by omega)
    rw [coeff_mul_one_add_X_mul, hlam.coeff_eq_zero _ (by omega), zero_add] at hgen
    rw [coeff_listPoly_evaluator h sq lam hr, hgen]
  · exact coeff_listPoly_of_length_le h (by simpa using hr)

end

end Sys2Proof.Machine
end

-- ==== Proofs: LOCATE and Forney's formula find the errors (44_corrector.md R229; 45_decode.md R253) ====
section
/-! Where an error word has at most r / 2 nonzero bytes, its r syndromes determine it: LOCATE's locator has its roots at the
errors, and Forney's formula gives their values. -/

namespace Sys2Proof.Machine

open Sys2Proof.Claims Polynomial

/-! ### The errors of a word -/

/-- The positions of the nonzero bytes, in rising order. -/
def errorPositions (e : List Byte) : List Nat := (List.range e.length).filter fun p => e.getD p 0x00 != 0x00

theorem mem_errorPositions {e : List Byte} {p : Nat} : p ∈ errorPositions e ↔ p < e.length ∧ e.getD p 0x00 ≠ 0x00 := by
  simp [errorPositions]

/-- The same positions as a set. -/
def errorSet (e : List Byte) : Finset Nat := (errorPositions e).toFinset

theorem mem_errorSet {e : List Byte} {p : Nat} : p ∈ errorSet e ↔ p < e.length ∧ e.getD p 0x00 ≠ 0x00 :=
  List.mem_toFinset.trans mem_errorPositions

theorem card_errorSet (e : List Byte) : (errorSet e).card = (errorPositions e).length :=
  List.toFinset_card_of_nodup (List.nodup_range.filter _)

theorem positionValue_ne_zero (n p : Nat) : positionValue n p ≠ 0x00 := alpha_pow_ne_zero _

/-- The values X_p of the positions of a word are distinct (40_field_arithmetic.md R134). -/
theorem positionValue_inj {n p q : Nat} (hn : n ≤ 255) (hp : p < n) (hq : q < n)
    (h : positionValue n p = positionValue n q) : p = q := by
  have hexp : n - 1 - p = n - 1 - q := alpha_pow_injOn (by omega) (by omega) h
  omega

section
variable {K : Type} [Field K] {φ : Byte → K}

/-- X_p as an element of the field. -/
def positionIn (φ : Byte → K) (e : List Byte) (p : Nat) : K := φ (positionValue e.length p)

/-- The byte at p as an element of the field. -/
def byteIn (φ : Byte → K) (e : List Byte) (p : Nat) : K := φ (e.getD p 0x00)

theorem coeff_errorSyndromes (E : Finset Nat) (x y : Nat → K) (r j : Nat) :
    (errorSyndromes E x y r).coeff j = if j < r then ∑ p ∈ E, y p * x p ^ j else 0 := by
  have hgeom (p : Nat) : (∑ i ∈ Finset.range r, (C (x p) * X) ^ i).coeff j = if j < r then x p ^ j else 0 := by
    rw [finsetSum_coeff]
    simp only [mul_pow, ← C_pow, coeff_C_mul_X_pow, Finset.sum_ite_eq, Finset.mem_range]
  rw [errorSyndromes, finsetSum_coeff]
  simp only [coeff_C_mul, hgeom, mul_ite, mul_zero]
  split
  · rfl
  · exact Finset.sum_const_zero

/-- In order of rising root exponent (R192), the syndromes are the sums of R173 over the errors. -/
theorem listPoly_syndromes (h : FieldEmbedding φ) (e : List Byte) (r : Nat) :
    listPoly φ (syndromes e r).reverse =
      errorSyndromes (errorSet e) (positionIn φ e) (byteIn φ e) r := by
  ext j
  rw [coeff_errorSyndromes]
  split
  · next hj =>
    have hsum : (syndromes e r).reverse.getD j 0x00 =
        sumTo e.length fun p => gfMul (e.getD p 0x00) (gfPow (positionValue e.length p) j) := by
      rw [List.getD_reverse _ (by simpa using hj), syndromes_length, syndromes_getD e (by omega), codewordEval_eq_sumTo]
      refine sumTo_congr fun p _ => ?_
      rw [gfPow_root_eq_positionValue, show r - 1 - (r - 1 - j) = j by omega]
    rw [coeff_listPoly h, hsum, h.map_sumTo]
    refine (Finset.sum_subset_zero_on_sdiff (fun p hp => ?_) (fun p hp => ?_) fun p _ => ?_).symm
    · exact Finset.mem_range.mpr (mem_errorSet.mp hp).1
    · rw [Finset.mem_sdiff, Finset.mem_range, mem_errorSet, not_and_not_right] at hp
      rw [hp.2 hp.1, zero_gfMul, h.map_zero]
    · rw [h.map_mul, h.map_pow, byteIn, positionIn]
  · exact coeff_listPoly_of_length_le h (by simpa using by omega)

/-! ### What LOCATE and CORRECT compute from the syndromes of an error word -/

theorem positionIn_ne_zero (h : FieldEmbedding φ) (e : List Byte) (p : Nat) : positionIn φ e p ≠ 0 :=
  h.map_ne_zero (positionValue_ne_zero _ _)

/-- The errors' own locator is a register of the syndromes, so LOCATE's is no longer. -/
theorem locate_syndromes_len_le (h : FieldEmbedding φ) (e : List Byte) (r : Nat) :
    (locate (syndromes e r)).2 ≤ (errorSet e).card := by
  have hx (p : Nat) (_ : p ∈ errorSet e) : positionIn φ e p ≠ 0 := positionIn_ne_zero h e p
  refine locate_len_le_of_isRegister h (lam := errorLocator (errorSet e) (positionIn φ e)) ?_
  rw [listPoly_syndromes h, syndromes_length]
  exact isRegister_of_key errorLocator_coeff_zero (natDegree_le_iff_degree_le.mp (natDegree_errorLocator hx).le)
    (degree_errorEvaluator_lt hx) (X_pow_dvd_errorLocator_mul_sub r)

section
variable (h : FieldEmbedding φ) {e : List Byte} {r : Nat} (hn : e.length ≤ 255) (hr : 2 * (errorPositions e).length ≤ r)
include h

theorem positionIn_injOn (hn : e.length ≤ 255) : Set.InjOn (positionIn φ e) (errorSet e) := fun _ hp _ hq heq =>
  positionValue_inj hn (mem_errorSet.mp hp).1 (mem_errorSet.mp hq).1 (h.injective heq)

theorem byteIn_ne_zero {p : Nat} (hp : p ∈ errorSet e) : byteIn φ e p ≠ 0 := h.map_ne_zero (mem_errorSet.mp hp).2

include hn hr

/-- LOCATE returns the errors' locator, and the evaluator computed from it is the errors' evaluator: both solve the key equation,
with at most r / 2 errors. -/
theorem listPoly_locate_syndromes :
    listPoly φ (locate (syndromes e r)).1 = errorLocator (errorSet e) (positionIn φ e) ∧
      listPoly φ (evaluator (syndromes e r).reverse (locate (syndromes e r)).1 r) =
        errorEvaluator (errorSet e) (positionIn φ e) (byteIn φ e) := by
  have hreg := isRegister_locate h (syndromes e r)
  have hlen := locate_syndromes_len_le h e r
  have hom := degree_listPoly_evaluator_lt h hreg
  have hkey := X_pow_dvd_mul_sub_evaluator h (syndromes e r).reverse (locate (syndromes e r)).1 r
  rw [syndromes_length] at hom
  rw [listPoly_syndromes h] at hkey
  have hdeg : (listPoly φ (locate (syndromes e r)).1).degree ≤ (errorSet e).card :=
    (degree_le_iff_coeff_zero _ _).mpr fun i hi => hreg.coeff_eq_zero i (hlen.trans_lt (by exact_mod_cast hi))
  have hdeg' := hom.trans_le (Nat.cast_le.mpr hlen)
  rw [← card_errorSet] at hr
  exact ⟨eq_errorLocator_of_key (positionIn_injOn h hn) (fun p _ => positionIn_ne_zero h e p)
      (fun p hp => byteIn_ne_zero h hp) hr hreg.coeff_zero hdeg hdeg' hkey,
    eq_errorEvaluator_of_key (positionIn_injOn h hn) (fun p _ => positionIn_ne_zero h e p)
      (fun p hp => byteIn_ne_zero h hp) hr hreg.coeff_zero hdeg hdeg' hkey⟩

theorem locate_syndromes_len : (locate (syndromes e r)).2 = (errorSet e).card := by
  refine (locate_syndromes_len_le h e r).antisymm ?_
  obtain ⟨hlam, -⟩ := listPoly_locate_syndromes h hn hr
  rw [← natDegree_errorLocator fun p _ => positionIn_ne_zero h e p, ← hlam]
  exact natDegree_le_iff_coeff_eq_zero.mpr (isRegister_locate h (syndromes e r)).coeff_eq_zero

omit hr

theorem map_locatorInverse {p : Nat} (hp : p < e.length) : φ (locatorInverse e.length p) = (positionIn φ e p)⁻¹ := by
  rw [locatorInverse_eq_gfInv hn hp, h.map_inv (positionValue_ne_zero _ _), positionIn]

include hr

/-- The root search finds exactly the errors. -/
theorem polyEval_locate_syndromes_eq_zero_iff {p : Nat} (hp : p < e.length) :
    polyEval (locate (syndromes e r)).1 (locatorInverse e.length p) = 0x00 ↔ e.getD p 0x00 ≠ 0x00 := by
  obtain ⟨hlam, -⟩ := listPoly_locate_syndromes h hn hr
  rw [← h.map_eq_zero_iff, ← eval_listPoly h, map_locatorInverse h hn hp, hlam,
    eval_inv_errorLocator_eq_zero_iff (positionIn_ne_zero h e p)]
  refine ⟨?_, fun hne => ⟨p, mem_errorSet.mpr ⟨hp, hne⟩, rfl⟩⟩
  rintro ⟨q, hq, heq⟩
  obtain ⟨hqn, hqe⟩ := mem_errorSet.mp hq
  exact positionValue_inj hn hqn hp (h.injective heq) ▸ hqe

/-- Forney's formula gives the error (R224). -/
theorem forney_locate_syndromes {p : Nat} (hp : p ∈ errorSet e) :
    forney (evaluator (syndromes e r).reverse (locate (syndromes e r)).1 r) (locate (syndromes e r)).1 e.length p =
      e.getD p 0x00 := by
  obtain ⟨hlam, hom⟩ := listPoly_locate_syndromes h hn hr
  have hpn := (mem_errorSet.mp hp).1
  have hinj := positionIn_injOn h hn
  have hx := positionIn_ne_zero h e p
  have hdiv : φ (forneyDivisor (locate (syndromes e r)).1 e.length p) =
      (derivative (errorLocator (errorSet e) (positionIn φ e))).eval (positionIn φ e p)⁻¹ := by
    rw [forneyDivisor, ← eval_listPoly h, map_locatorInverse h hn hpn, listPoly_formalDerivative h, hlam]
  have hne : forneyDivisor (locate (syndromes e r)).1 e.length p ≠ 0x00 := by
    rw [ne_eq, ← h.map_eq_zero_iff, hdiv, eval_inv_derivative_errorLocator hp hx]
    exact mul_ne_zero (neg_ne_zero.mpr hx) (eval_inv_errorLocator_erase_ne_zero hinj hp hx)
  apply h.injective
  calc φ (forney (evaluator (syndromes e r).reverse (locate (syndromes e r)).1 r) (locate (syndromes e r)).1 e.length p)
    _ = positionIn φ e p * (errorEvaluator (errorSet e) (positionIn φ e) (byteIn φ e)).eval (positionIn φ e p)⁻¹ *
        ((derivative (errorLocator (errorSet e) (positionIn φ e))).eval (positionIn φ e p)⁻¹)⁻¹ := by
      rw [forney, h.map_mul, h.map_mul, h.map_inv hne, hdiv, ← eval_listPoly h, hom, map_locatorInverse h hn hpn,
        locatorValue_eq_positionValue hpn, positionIn]
    _ = -byteIn φ e p := forney_formula hinj hp hx
    _ = φ (e.getD p 0x00) := h.neg_eq _

end

end

/-! ### The same facts of the bytes alone -/

section
variable {e : List Byte} {r : Nat} (hn : e.length ≤ 255) (hr : 2 * (errorPositions e).length ≤ r)
include hn hr

/-- LOCATE's length is the number of errors. -/
theorem locate_syndromes_snd : (locate (syndromes e r)).2 = (errorPositions e).length := by
  obtain ⟨K, _, φ, h⟩ := exists_fieldEmbedding
  rw [locate_syndromes_len h hn hr, card_errorSet]

/-- The roots of LOCATE's locator are the errors. -/
theorem rootPositions_locate_syndromes :
    rootPositions (locate (syndromes e r)).1 e.length = errorPositions e := by
  obtain ⟨K, _, φ, h⟩ := exists_fieldEmbedding
  refine List.filter_congr fun p hp => ?_
  rw [Bool.eq_iff_iff, beq_iff_eq, bne_iff_ne]
  exact polyEval_locate_syndromes_eq_zero_iff h hn hr (List.mem_range.mp hp)

/-- The magnitudes at the roots are the errors' values. -/
theorem magnitudeSum_locate_syndromes {p : Nat} (hp : p ∈ errorPositions e) :
    magnitudeSum (syndromes e r) (locate (syndromes e r)).1 e.length p = e.getD p 0x00 := by
  obtain ⟨K, _, φ, h⟩ := exists_fieldEmbedding
  rw [← forney_eq_magnitudeSum _ _ hn (mem_errorPositions.mp hp).1, syndromes_length]
  exact forney_locate_syndromes h hn hr (List.mem_toFinset.mpr hp)

end

end Sys2Proof.Machine
end

-- ==== Proofs: DECODE of a word with few errors (45_decode.md R251 to R253) ====
section
/-! What SYNDROME and LOCATE hand to CORRECT, and how DECODE ends on a word whose syndromes are those of an error word with at
most r / 2 errors. -/

namespace Sys2Proof.Machine

open Sys2Proof.Claims

/-! ### The stages before CORRECT -/

/-- The state SYNDROME leaves when it ends OK. -/
def State.storeSyndromes (s : State) (syn : List Byte) : State :=
  ((s.setEntries .syn 0 syn).setSyndromeFlags syn).finishOk

/-- The state LOCATE leaves when it ends OK. -/
def State.storeLocated (s : State) (syn : List Byte) : State := ((s.storeLocator syn).setLocValid true).finishOk

section
variable (s : State) (syn : List Byte)

theorem storeSyndromes_mem : (s.storeSyndromes syn).mem = (s.setEntries .syn 0 syn).mem := rfl

theorem storeLocated_mem : (s.storeLocated syn).mem = (s.setEntries .lambda 0 (locate syn).1).mem := rfl

@[simp] theorem storeSyndromes_dataCount : (s.storeSyndromes syn).dataCount = s.dataCount := by
  simp [State.storeSyndromes, State.dataCount]

@[simp] theorem storeSyndromes_parityCount : (s.storeSyndromes syn).parityCount = s.parityCount := by
  simp [State.storeSyndromes, State.parityCount]

@[simp] theorem storeLocated_dataCount : (s.storeLocated syn).dataCount = s.dataCount := by
  simp [State.storeLocated, State.storeLocator, State.dataCount]

@[simp] theorem storeLocated_parityCount : (s.storeLocated syn).parityCount = s.parityCount := by
  simp [State.storeLocated, State.storeLocator, State.parityCount]

theorem storeLocated_locatorLength (hL : (locate syn).2 ≤ 255) :
    (s.storeLocated syn).locatorLength = (locate syn).2 :=
  (BitVec.toNat_ofNat ..).trans (Nat.mod_eq_of_lt (by omega))

/-- SYN and LAMBDA lie beyond the codeword buffer. -/
theorem byteAt_cw_storeLocated_storeSyndromes {p : Nat} (hp : p < 255) :
    byteAt ((s.storeSyndromes syn).storeLocated syn) (0x100 + p) = byteAt s (0x100 + p) := by
  rw [byteAt, storeLocated_mem]
  refine (sameOutside_setEntries _ .lambda 0 _ _ (by simp; omega)).trans ?_
  rw [byteAt, storeSyndromes_mem]
  exact sameOutside_setEntries s .syn 0 _ _ (by simp; omega)

end

section
variable {s : State} {syn : List Byte} (hlen : syn.length = s.parityCount) (hr : s.parityCount ≤ 254)
include hlen hr

theorem readEntries_syn_storeSyndromes :
    readEntries (s.storeSyndromes syn) .syn 0 s.parityCount = .ok syn := by
  have hself := readEntries_setEntries_self s .syn 0 syn (by simp; omega)
  rwa [hlen, ← readEntries_congr (storeSyndromes_mem s syn)] at hself

theorem readEntries_syn_storeLocated :
    readEntries ((s.storeSyndromes syn).storeLocated syn) .syn 0 s.parityCount = .ok syn := by
  rw [readEntries_congr (storeLocated_mem ..), readEntries_setEntries_other _ (by simp) _ _ _ _
    (by simp [locate_length]; omega) (by simpa using hr), readEntries_syn_storeSyndromes hlen hr]

theorem readEntries_lambda_storeLocated :
    readEntries ((s.storeSyndromes syn).storeLocated syn) .lambda 0 (s.parityCount + 1) = .ok (locate syn).1 := by
  have hself := readEntries_setEntries_self (s.storeSyndromes syn) .lambda 0 (locate syn).1
    (by simp [locate_length]; omega)
  rwa [locate_length, hlen, ← readEntries_congr (storeLocated_mem ..)] at hself

end

/-- With valid parameters, a word that can be read and a locator short enough, CORRECT is the stage that ends DECODE. -/
theorem decodeBody_of_located {s : State} {cw syn : List Byte} (hp : s.paramsOk = true)
    (hcw : readEntries s .cw 0 s.codeLength = .ok cw) (hsyn : syndromes cw s.parityCount = syn)
    (hL : (locate syn).2 ≤ s.parityCount / 2) :
    decodeBody s = correctBody ((s.storeSyndromes syn).storeLocated syn) := by
  have hr := (lengths_of_paramsOk hp).2
  have hread := readEntries_syn_storeSyndromes (hsyn ▸ syndromes_length cw _) hr
  have hlocate : locateBody (s.storeSyndromes syn) = .ok ((s.storeSyndromes syn).storeLocated syn) :=
    locateBody_of_read rfl (by simpa using hr) (by simpa using hread) (by simpa using hL)
  calc decodeBody s
    _ = thenStage (thenStage (.ok (s.storeSyndromes syn)) locateBody) correctBody := by
      rw [decodeBody, syndromeBody_of_read hp hcw, hsyn, State.storeSyndromes]
    _ = thenStage (.ok ((s.storeSyndromes syn).storeLocated syn)) correctBody := by rw [thenStage_ok rfl, hlocate]
    _ = _ := thenStage_ok rfl

/-! ### A received word and its error word -/

/-- A word that can be read holds its bytes. -/
theorem byteAt_cw_of_readEntries {s : State} {n : Nat} {cw : List Byte} (h : readEntries s .cw 0 n = .ok cw) {p : Nat}
    (hp : p < n) : byteAt s (0x100 + p) = some (cw.getD p 0x00) := by
  obtain ⟨hlen, hget⟩ := (readEntries_ok_iff ..).1 h
  have hread := hget p (by omega)
  rw [Nat.zero_add, readEntry_ok_iff] at hread
  rw [List.getD_eq_getElem _ _ (by omega)]
  exact hread.2

/-- The error word that makes one word of another: their difference. -/
def errorWord (sent received : List Byte) : List Byte := List.zipWith gfAdd sent received

section
variable {sent received : List Byte} (hlen : sent.length = received.length)
include hlen

theorem errorWord_length : (errorWord sent received).length = sent.length := by simp [errorWord, hlen]

theorem errorWord_getD {p : Nat} (hp : p < sent.length) :
    (errorWord sent received).getD p 0x00 = gfAdd (sent.getD p 0x00) (received.getD p 0x00) := by
  rw [List.getD_eq_getElem _ _ (by simpa [errorWord_length hlen] using hp), List.getD_eq_getElem _ _ hp,
    List.getD_eq_getElem _ _ (hlen ▸ hp)]
  exact List.getElem_zipWith ..

theorem zipWith_gfAdd_errorWord : List.zipWith gfAdd sent (errorWord sent received) = received := by
  refine List.ext_getElem (by simp [errorWord, hlen]) fun p _ _ => ?_
  simp only [errorWord, List.getElem_zipWith]
  rw [← gfAdd_assoc, gfAdd_self, zero_gfAdd]

/-- The positions where two states' words differ are those of the error word. -/
theorem differingPositions_eq_errorPositions {s t : State}
    (hs : readEntries s .cw 0 sent.length = .ok sent) (ht : readEntries t .cw 0 sent.length = .ok received) :
    differingPositions s t sent.length = errorPositions (errorWord sent received) := by
  rw [errorPositions, errorWord_length hlen]
  refine List.filter_congr fun p hp => ?_
  have hp := List.mem_range.mp hp
  rw [byteAt_cw_of_readEntries hs hp, byteAt_cw_of_readEntries ht hp, errorWord_getD hlen hp, Bool.eq_iff_iff, bne_iff_ne,
    bne_iff_ne, ne_eq, ne_eq, gfAdd_eq_zero_iff, Option.some_inj, eq_comm]

end

/-! ### DECODE -/

/-- How a DECODE that corrects the error word e ends: each byte of the word with its error added, and the errors listed. -/
structure Corrects (e : List Byte) (s t : State) : Prop where
  result : t.result = .ok
  nerr : t.nerr.toNat = (errorPositions e).length
  word : ∀ p < e.length, ∀ v, byteAt s (0x100 + p) = some v → byteAt t (0x100 + p) = some (gfAdd v (e.getD p 0x00))
  lists : ∀ i (h : i < (errorPositions e).length), byteAt t (0x400 + i) = some (BitVec.ofNat 8 (errorPositions e)[i]) ∧
    byteAt t (0x480 + i) = some (e.getD (errorPositions e)[i] 0x00)

/-- CORRECT removes the error word whose syndromes SYN holds, where LAMBDA and LDEG hold their locator. -/
theorem correctBody_corrects {s : State} {e : List Byte} (hv : s.locValid = true)
    (hsyn : readEntries s .syn 0 s.parityCount = .ok (syndromes e s.parityCount))
    (hlam : readEntries s .lambda 0 (s.parityCount + 1) = .ok (locate (syndromes e s.parityCount)).1)
    (hldeg : s.locatorLength = (locate (syndromes e s.parityCount)).2) (he : s.codeLength = e.length)
    (hn : e.length ≤ 255) (hfew : (errorPositions e).length ≤ s.parityCount / 2)
    (hw : ∀ p < e.length, (byteAt s (0x100 + p)).isSome = true) : ∃ t, correctBody s = .ok t ∧ Corrects e s t := by
  have hhalf : 2 * (errorPositions e).length ≤ s.parityCount := by omega
  have hsize : (errorPositions e).length ≤ 127 := hfew.trans (Nat.div_le_div_right (Nat.le_of_lt_succ s.r.isLt))
  have hmag {p : Nat} (h : p ∈ errorPositions e) := magnitudeSum_locate_syndromes hn hhalf h
  obtain ⟨u, hu, hcorrected, hbody⟩ := correctBody_of_roots hv hlam hsyn (he ▸ hn)
    (by rw [he, rootPositions_locate_syndromes hn hhalf]) (by rw [hldeg, locate_syndromes_snd hn hhalf]) (by omega)
    fun p hp => hw p (mem_errorPositions.mp hp).1
  rw [he, List.map_congr_left fun p => hmag] at hu hbody
  refine ⟨_, hbody, rfl, ?_, fun p hp v hbyte => ?_, fun i hi => ⟨byteAt_errpos_storeErrors u hi (by omega), ?_⟩⟩
  · rw [storeErrors_nerr, BitVec.toNat_ofNat, Nat.mod_eq_of_lt (by omega)]
  · rw [byteAt_storeErrors_outside u (by omega) (by omega)]
    by_cases hmem : p ∈ errorPositions e
    · rw [hcorrected p hmem v hbyte, he, hmag hmem]
    · have hzero : e.getD p 0x00 = 0x00 := by_contra fun hne => hmem (mem_errorPositions.mpr ⟨hp, hne⟩)
      rw [hzero, gfAdd_zero, ← hbyte]
      refine applyCorrections_zip_byteAt_ne hu fun q hq heq => hmem ?_
      rwa [Nat.add_left_cancel heq]
  · rw [byteAt_errmag_storeErrors u (by simpa using hi), List.getElem_map]

/-- The word's syndromes are those of e, which determine e: DECODE ends OK with e removed from the word. -/
theorem decodeBody_corrects {s : State} {cw e : List Byte} (hp : s.paramsOk = true)
    (hcw : readEntries s .cw 0 s.codeLength = .ok cw) (he : s.codeLength = e.length)
    (hsyn : syndromes cw s.parityCount = syndromes e s.parityCount)
    (hfew : (errorPositions e).length ≤ s.parityCount / 2) : ∃ t, decodeBody s = .ok t ∧ Corrects e s t := by
  obtain ⟨hn, hr⟩ := lengths_of_paramsOk hp
  have hlen := syndromes_length e s.parityCount
  have hL := locate_syndromes_snd (he ▸ hn) (r := s.parityCount) (by omega)
  have hsame {p : Nat} (h : p < e.length) :=
    byteAt_cw_storeLocated_storeSyndromes s (syndromes e s.parityCount) (p := p) (by omega)
  obtain ⟨t, ht, hresult, hnerr, hword, hlists⟩ := correctBody_corrects (e := e)
    (s := (s.storeSyndromes (syndromes e s.parityCount)).storeLocated (syndromes e s.parityCount)) rfl
    (by simpa using readEntries_syn_storeLocated hlen hr) (by simpa using readEntries_lambda_storeLocated hlen hr)
    (by simpa using storeLocated_locatorLength _ _ (by omega)) (by simpa [State.codeLength] using he) (he ▸ hn)
    (by simpa using hfew) fun p h => by
      rw [hsame h, byteAt_cw_of_readEntries hcw (he ▸ h)]
      rfl
  refine ⟨t, by rw [decodeBody_of_located hp hcw hsyn (by omega), ht], hresult, hnerr, fun p h v hv => ?_, hlists⟩
  exact hword p h v (by rw [hsame h, hv])

/-- A codeword adds nothing to the syndromes, so DECODE takes a received word back to the codeword it is near to. -/
theorem decodeBody_restores {s : State} {d received : List Byte} (hp : s.paramsOk = true)
    (hcw : readEntries s .cw 0 s.codeLength = .ok received)
    (hlen : (d ++ parity d s.parityCount).length = received.length)
    (hfew : (errorPositions (errorWord (d ++ parity d s.parityCount) received)).length ≤ s.parityCount / 2) :
    ∃ t, decodeBody s = .ok t ∧ Corrects (errorWord (d ++ parity d s.parityCount) received) s t ∧
      ∀ p < s.codeLength, byteAt t (0x100 + p) = some ((d ++ parity d s.parityCount).getD p 0x00) := by
  have hr := parityCount_pos hp
  have hn : received.length = s.codeLength := ((readEntries_ok_iff ..).1 hcw).1
  have helen := errorWord_length hlen
  have hsyn := syndromes_codeword_add (d := d) (e := errorWord (d ++ parity d s.parityCount) received) hr
    (by rw [helen, List.length_append, parity_length d _ hr])
  rw [zipWith_gfAdd_errorWord hlen] at hsyn
  obtain ⟨t, ht, hcorrects⟩ := decodeBody_corrects hp hcw (by rw [helen, hlen, hn]) hsyn hfew
  refine ⟨t, ht, hcorrects, fun p h => ?_⟩
  rw [hcorrects.word p (by omega) _ (byteAt_cw_of_readEntries hcw h), errorWord_getD hlen (by omega), gfAdd_left_comm,
    gfAdd_self, gfAdd_zero]

end Sys2Proof.Machine
end

-- ==== Proofs: the obligation on the errors DECODE corrects ====
section
/-! The statement on DECODE up to floor(r/2) errors, settled from the layers above. -/

namespace Sys2Proof.Proofs

open Sys2Proof.Machine Sys2Proof.Claims

/-- Settles O42: the received word is a codeword plus an error word, whose positions are those where the two words differ; the
codeword adds nothing to the syndromes, and DECODE removes the error word they determine. -/
theorem decodeCorrectsUpToCapability : Obligations.DecodeCorrectsUpToCapability := by
  intro s t u errors h hok hf hk hr hw herrors hfew
  obtain ⟨-, rfl⟩ | ⟨-, henc⟩ := exec_next_cases h
  · cases hok
  obtain ⟨-, hp, hdata, d, hsent⟩ := encodeBody_codeword henc hok
  have hks : t.k = s.k := congrArg (·.2.1) (encodeBody_hostSide henc)
  have hn : u.codeLength = t.codeLength := by simp only [State.codeLength, State.dataCount, State.parityCount, hk, hr]
  have hur : u.parityCount = t.parityCount := congrArg BitVec.toNat hr
  have hup : u.paramsOk = true := by rwa [State.paramsOk, State.dataCount, State.parityCount, hk, hr]
  obtain ⟨received, hreceived⟩ := readEntries_of_written u .cw 0 t.codeLength
    (by simpa using (lengths_of_paramsOk hp).1) fun i hi => by rw [Nat.zero_add]; exact hw i hi
  have hsentLen := ((readEntries_ok_iff ..).1 hsent).1
  have hlen := hsentLen.trans ((readEntries_ok_iff ..).1 hreceived).1.symm
  have hdiffer := differingPositions_eq_errorPositions hlen (hsentLen ▸ hsent) (hsentLen ▸ hreceived)
  rw [hsentLen] at hdiffer
  obtain rfl := herrors.trans hdiffer
  obtain ⟨w, hdecode, hcorrects, hword⟩ := decodeBody_restores hup (d := d) (hn ▸ hreceived) (hur ▸ hlen) (hur ▸ hfew)
  rw [hur] at hcorrects hword
  have hrestored (p : Nat) (h : p < t.codeLength) : byteAt w (0x100 + p) = byteAt t (0x100 + p) :=
    (hword p (hn ▸ h)).trans (byteAt_cw_of_readEntries hsent h).symm
  refine ⟨w, ?_, hcorrects.result, hcorrects.nerr, hrestored, fun p h => ?_, fun i hi x y hx hy => ?_⟩
  · rw [exec_unlocked .decode hf, commandBody, hdecode]
    rfl
  · rw [hrestored p (by rw [State.codeLength, State.dataCount, hks]; omega), hdata p h]
  · obtain ⟨hpos, hval⟩ := hcorrects.lists i hi
    have hp := (mem_errorPositions.mp (List.getElem_mem hi)).1
    rw [errorWord_length hlen] at hp
    rw [byteAt_cw_of_readEntries hsent (hsentLen ▸ hp), Option.some_inj] at hx
    rw [byteAt_cw_of_readEntries hreceived (hsentLen ▸ hp), Option.some_inj] at hy
    rw [errorWord_getD hlen hp, hx, hy] at hval
    exact ⟨hpos, hval⟩

end Sys2Proof.Proofs
end

-- ==== Proofs: the checks of a CMD write (60_exceptions.md R272) ====
section
/-! What a command that fails a check does, and which codes are left to one that passes them. -/

namespace Sys2Proof.Machine

/-! ### Illegal bytes, and GF_INV of 0 -/

theorem decodeByte_of_illegalByte {v : Byte} (hv : illegalByte v = true) : decodeByte v = .illegal v := by
  have hrange : v.toNat = 0 ∨ 10 ≤ v.toNat := by simpa [illegalByte] using hv
  exact decodeByte_eq_illegal hrange

/-- The bytes that are not illegal are those of the nine commands (30_encoding.md R101, R103). -/
theorem eq_commandByte_of_not_illegalByte {v : Byte} (hv : illegalByte v = false) :
    v = 0x01 ∨ v = 0x02 ∨ v = 0x03 ∨ v = 0x04 ∨ v = 0x05 ∨ v = 0x06 ∨ v = 0x07 ∨ v = 0x08 ∨ v = 0x09 := by
  have hrange : v.toNat ≠ 0 ∧ v.toNat < 10 := by simpa [illegalByte] using hv
  bv_omega

theorem exec_illegal {s : State} (v : Byte) (hf : s.fatal = false) :
    exec (.illegal v) s = .next (s.raise .illegalCommand) :=
  exec_unlocked _ hf

/-- A CMD write of an illegal byte (60_exceptions.md R274). -/
theorem writeCmd_illegalByte {s : State} {v : Byte} (hf : s.fatal = false) (hv : illegalByte v = true) :
    writeCmd s v = .next ((s.storeCmd v).raise .illegalCommand) := by
  rw [writeCmd_eq_exec_storeCmd, decodeByte_of_illegalByte hv]
  exact exec_illegal v hf

/-- The step whose event is a write to CMD (20_memory.md R79). -/
theorem step_writeCmd {s : State} {v : Byte} {rest : List HostEvent}
    (hp : s.pending = .access (.write 0x000 v) :: rest) :
    step s = writeCmd { s with pending := rest, reply := .written } v :=
  step_event s _ rest hp

/-- GF_INV of 0 locks an unlocked core (60_exceptions.md R275). -/
theorem exec_gfInv_zero {s : State} (hf : s.fatal = false) (ha : s.a = 0x00) :
    exec .gfInv s = .next s.lockDivByZero := by
  rw [exec_unlocked .gfInv hf, commandBody_gfInv_zero ha]
  rfl

/-! ### LOCATE and CORRECT on either side of the sequence check -/

theorem locateBody_of_not_synValid {s : State} (hv : s.synValid = false) :
    locateBody s = .ok (s.raise .sequenceError) := by
  simp [locateBody, hv]

theorem correctBody_of_not_locValid {s : State} (hv : s.locValid = false) :
    correctBody s = .ok (s.raise .sequenceError) := by
  simp [correctBody, hv]

theorem locateBody_result_of_synValid {s t : State} (hv : s.synValid = true) (h : locateBody s = .ok t) :
    t.result = .ok ∨ t.result = .uncorrectable := by
  obtain ⟨hbad, -⟩ | ⟨syn, -, -, -, ⟨-, rfl⟩ | ⟨-, rfl⟩⟩ := locateBody_cases h
  · simp [hv] at hbad
  · exact .inl rfl
  · exact .inr rfl

theorem correctBody_result_of_locValid {s t : State} (hv : s.locValid = true) (h : correctBody s = .ok t) :
    t.result = .ok ∨ t.result = .uncorrectable := by
  obtain ⟨hbad, -⟩ | ⟨lam, -, -, ⟨-, rfl⟩ | ⟨-, syn, u, w, -, -, -, rfl⟩⟩ := correctBody_cases h
  · simp [hv] at hbad
  · exact .inr rfl
  · exact .inl rfl

/-! ### DECODE: each stage prepares the sequence check of the next -/

/-- What two stages can do: the second runs exactly where the first left RESULT = OK. -/
theorem thenStage_cases {stage : Except Fault State} {next : State → Except Fault State} {t : State}
    (h : thenStage stage next = .ok t) :
    ∃ u, stage = .ok u ∧ (u.result = .ok ∧ next u = .ok t ∨ u.result ≠ .ok ∧ t = u) := by
  cases stage with
  | error f => cases h
  | ok u =>
    refine ⟨u, rfl, ?_⟩
    by_cases hu : u.result = .ok
    · exact .inl ⟨hu, (thenStage_ok hu).symm.trans h⟩
    · rw [thenStage_stop hu] at h
      cases h
      exact .inr ⟨hu, rfl⟩

theorem syndromeBody_synValid {s t : State} (hp : s.paramsOk = true) (h : syndromeBody s = .ok t) :
    t.synValid = true := by
  obtain ⟨hbad, -⟩ | ⟨cw, -, -, rfl⟩ := syndromeBody_cases h
  · simp [hp] at hbad
  · rfl

theorem locateBody_locValid {s t : State} (h : locateBody s = .ok t) (hok : t.result = .ok) : t.locValid = true := by
  obtain ⟨-, rfl⟩ | ⟨syn, -, -, -, ⟨-, rfl⟩ | ⟨-, rfl⟩⟩ := locateBody_cases h
  · cases hok
  · rfl
  · cases hok

/-- Past SYNDROME's check no stage of DECODE reports an error but UNCORRECTABLE. -/
theorem decodeBody_result {s t : State} (hp : s.paramsOk = true) (h : decodeBody s = .ok t) :
    t.result = .ok ∨ t.result = .uncorrectable := by
  obtain ⟨u, hu, hcorrect⟩ := thenStage_cases h
  obtain ⟨w, hw, ⟨-, hlocate⟩ | ⟨hstop, -⟩⟩ := thenStage_cases hu
  · obtain ⟨hok, hcorrect⟩ | ⟨-, rfl⟩ := hcorrect
    · exact correctBody_result_of_locValid (locateBody_locValid hlocate hok) hcorrect
    · exact locateBody_result_of_synValid (syndromeBody_synValid hp hw) hlocate
  · exact absurd (syndromeBody_result hp hw) hstop

/-! ### A command that passes every check -/

theorem gfInv_result_of_ne_zero {s t : State} (ha : s.a ≠ 0x00) (h : commandBody .gfInv s = .ok t) :
    t.result = .ok := by
  rw [commandBody_gfInv_ne_zero ha] at h
  cases h; rfl

/-- The codes left to the command of a legal byte once its own check has passed. -/
theorem commandBody_result_of_checks {s t : State} {v : Byte} (hlegal : illegalByte v = false)
    (hsyn : v = 0x07 → s.synValid = true) (hloc : v = 0x08 → s.locValid = true)
    (hparams : v = 0x05 ∨ v = 0x06 ∨ v = 0x09 → s.paramsOk = true) (hinv : v = 0x03 → s.a ≠ 0x00)
    (h : commandBody (decodeByte v) s = .ok t) :
    t.result = .ok ∨ t.result = .uncorrectable ∧ (v = 0x07 ∨ v = 0x08 ∨ v = 0x09) := by
  obtain rfl | rfl | rfl | rfl | rfl | rfl | rfl | rfl | rfl := eq_commandByte_of_not_illegalByte hlegal
  · cases h; exact .inl rfl
  · cases h; exact .inl rfl
  · exact .inl (gfInv_result_of_ne_zero (hinv rfl) h)
  · cases h; exact .inl rfl
  · exact .inl (encodeBody_result (hparams (.inl rfl)) h)
  · exact .inl (syndromeBody_result (hparams (.inr (.inl rfl))) h)
  · exact (locateBody_result_of_synValid (hsyn rfl) h).imp_right fun hr => ⟨hr, .inl rfl⟩
  · exact (correctBody_result_of_locValid (hloc rfl) h).imp_right fun hr => ⟨hr, .inr (.inl rfl)⟩
  · exact (decodeBody_result (hparams (.inr (.inr rfl))) h).imp_right fun hr => ⟨hr, .inr (.inr rfl)⟩

end Sys2Proof.Machine
end

-- ==== Proofs: the obligations of 60_exceptions.md ====
section
/-! The statements of the family 60_exceptions.md, settled from the layers above. -/

namespace Sys2Proof.Proofs

open Sys2Proof.Machine Sys2Proof.Claims

/-- Settles O21: an illegal byte decodes to the illegal instruction, whose body only reports. -/
theorem illegalByteChangesOnlyResult : Obligations.IllegalByteChangesOnlyResult := by
  refine fun s v hf => ⟨exec_illegal v hf, fun rest hv hp => ?_⟩
  rw [step_writeCmd hp]
  exact writeCmd_illegalByte (s := { s with pending := rest, reply := .written }) hf hv

/-- Settles O23: each of the two bodies begins with the check of its flag. -/
theorem outOfOrderStagesReportSequenceError : Obligations.OutOfOrderStagesReportSequenceError := by
  refine fun s hf => ⟨fun hv => ?_, fun hv => ?_⟩
  · rw [exec_unlocked .locate hf, commandBody, locateBody_of_not_synValid hv]
    rfl
  · rw [exec_unlocked .correct hf, commandBody, correctBody_of_not_locValid hv]
    rfl

/-- Settles O46: the lock check comes before the instruction, and on an unlocked core each byte has at most one check left
to fail, made on the state with the byte stored. -/
theorem checksComeInTheirOrder : Obligations.ChecksComeInTheirOrder := by
  refine fun s v => ⟨exec_locked (s := s.storeCmd v) _, fun hf => ⟨writeCmd_illegalByte hf, ?sequence, ?params, ?divide,
    fun hlegal hseq hparams hdiv t h => ?passed⟩⟩
  case sequence =>
    rintro (⟨rfl, hv⟩ | ⟨rfl, hv⟩)
    · exact (outOfOrderStagesReportSequenceError (s.storeCmd 0x07) hf).1 hv
    · exact (outOfOrderStagesReportSequenceError (s.storeCmd 0x08) hf).2 hv
  case params =>
    rintro ⟨hv, hp⟩
    have hchecks : Instr.checksParams (decodeByte v) := by
      obtain rfl | rfl | rfl := hv
      · exact .inl rfl
      · exact .inr (.inl rfl)
      · exact .inr (.inr rfl)
    exact (invalidParametersChangeOnlyResult (s.storeCmd v) _ hf hchecks).1 hp
  case divide =>
    rintro ⟨rfl, ha⟩
    exact exec_gfInv_zero (s := s.storeCmd 0x03) hf ha
  case passed =>
    obtain ⟨hlocked, -⟩ | ⟨-, hbody⟩ := exec_next_cases (s := s.storeCmd v) h
    · exact absurd (hf.symm.trans hlocked) Bool.false_ne_true
    · refine commandBody_result_of_checks hlegal (fun hv => ?_) (fun hv => ?_) (fun hv => ?_) (fun hv ha => ?_) hbody
      · exact (Bool.not_eq_false _).mp fun hbad => hseq (.inl ⟨hv, hbad⟩)
      · exact (Bool.not_eq_false _).mp fun hbad => hseq (.inr ⟨hv, hbad⟩)
      · exact (paramsOk_iff_validParams _).mpr (not_not.mp fun hbad => hparams ⟨hv, hbad⟩)
      · exact hdiv ⟨hv, ha⟩

end Sys2Proof.Proofs
end

-- ==== Proofs: the codec and transaction words (30_encoding.md R100 to R109) ====
section
/-! The decoders give back the instruction and the access that were encoded. -/

namespace Sys2Proof.Machine

open Sys2Proof.Claims

theorem decodeByte_encodeByte {i : Instr} (h : i.wellFormed = true) : decodeByte (encodeByte i) = i := by
  cases i with
  | illegal v => exact decodeByte_of_illegalByte h
  | _ => rfl

/-- Every byte is that of the well-formed instruction it decodes to. -/
theorem encodeByte_decodeByte (v : Byte) : (decodeByte v).wellFormed = true ∧ encodeByte (decodeByte v) = v := by
  cases hv : illegalByte v with
  | true => rw [decodeByte_of_illegalByte hv]; exact ⟨hv, rfl⟩
  | false =>
    obtain rfl | rfl | rfl | rfl | rfl | rfl | rfl | rfl | rfl := eq_commandByte_of_not_illegalByte hv <;>
      exact ⟨rfl, rfl⟩

/-! ### Transaction words (30_encoding.md R109) -/

section
variable (dir : BitVec 1) (addr : Addr) (v : Byte)

theorem transactionFields_toNat :
    (dir ++ addr ++ v).toNat = 2 ^ 19 * dir.toNat + 2 ^ 8 * addr.toNat + v.toNat := by
  rw [BitVec.toNat_append, BitVec.toNat_append, ← Nat.shiftLeft_add_eq_or_of_lt v.isLt,
    ← Nat.shiftLeft_add_eq_or_of_lt addr.isLt, Nat.shiftLeft_eq, Nat.shiftLeft_eq]
  omega

theorem transactionFields_dir : (dir ++ addr ++ v).getLsbD 19 = dir.getLsbD 0 := by
  rw [BitVec.getLsbD_append, if_neg (by decide), BitVec.getLsbD_append, if_neg (by decide)]

theorem transactionFields_addr : (dir ++ addr ++ v).extractLsb' 8 11 = addr := by
  apply BitVec.eq_of_toNat_eq
  have := addr.isLt
  rw [BitVec.extractLsb'_toNat, transactionFields_toNat, Nat.shiftRight_eq_div_pow]
  omega

theorem transactionFields_data : (dir ++ addr ++ v).extractLsb' 0 8 = v := by
  apply BitVec.eq_of_toNat_eq
  rw [BitVec.extractLsb'_toNat, transactionFields_toNat, Nat.shiftRight_zero]
  omega

/-- The decoder reads the three fields back. -/
theorem decodeTransaction_fields :
    decodeTransaction (dir ++ addr ++ v) =
      if dir.getLsbD 0 then some (.write addr v) else if v = 0x00 then some (.read addr) else none := by
  rw [decodeTransaction, transactionFields_dir, transactionFields_addr, transactionFields_data]

end

end Sys2Proof.Machine
end

-- ==== Proofs: the obligations on the codec, the step and reset ====
section
/-! The statements on decoding, on the events that run no command, and on the reset state, settled from the layers above. -/

namespace Sys2Proof.Proofs

open Sys2Proof.Machine Sys2Proof.Claims

/-- Settles O2: the decoder is a left and a right inverse of the encoder. -/
theorem decodeAndEncodeAgree : Obligations.DecodeAndEncodeAgree := by
  refine ⟨fun i rest h => ?_, encodeByte_decodeByte⟩
  rw [encode, List.singleton_append, decode, decodeByte_encodeByte h]

/-- Settles O3: each word evaluates to its instruction. -/
theorem writtenOutWordsDecode : Obligations.WrittenOutWordsDecode :=
  ⟨rfl, rfl, rfl, rfl, rfl, rfl, rfl, rfl, rfl⟩

/-- Settles O4: the number of the word and its decoding, field by field. -/
theorem transactionWordCarriesItsAccess : Obligations.TransactionWordCarriesItsAccess := by
  refine fun addr v => ⟨transactionFields_toNat 1#1 addr v, ?_, decodeTransaction_fields 1#1 addr v,
    decodeTransaction_fields 0#1 addr 0x00⟩
  exact (transactionFields_toNat 0#1 addr 0x00).trans (by simp)

/-- Settles O9: the decoder gives back the instruction whose byte the host wrote. -/
theorem stepRunsTheDecodedInstruction : Obligations.StepRunsTheDecodedInstruction := by
  intro s i rest hi hp
  rw [step_writeCmd hp, writeCmd, decodeByte_encodeByte hi]

/-- Settles O10: idle time shows in the reply alone. -/
theorem idleCoreHoldsItsState : Obligations.IdleCoreHoldsItsState :=
  ⟨step_idle, fun s rest hp => step_event s .idle rest hp⟩

/-- Settles O43: the STATUS byte is its number, whose two lowest digits to base 8 are RESULT and the flags above bit 3. -/
theorem statusHasItsLayout : Obligations.StatusHasItsLayout := by
  intro s
  have hcode : codeNumber s.result ≤ 6 := by cases s.result <;> decide
  refine ⟨statusByte_toNat s, ?_, ?_⟩
  · rw [BitVec.getLsbD, statusByte_toNat, Nat.testBit_eq_decide_div_mod_eq, statusNumber]
    exact decide_eq_false (by omega)
  · rw [statusByte_toNat, statusNumber]
    omega

/-- Settles O50: both reset events load the reset state, on the host's bus as it was. -/
theorem rstLoadsTheResetState : Obligations.RstLoadsTheResetState := by
  intro s ev rest hp hev
  obtain ⟨-, hstatus, -⟩ := resetLeavesEverythingZero
  refine ⟨State.reset.onBus rest .inReset s.draws, ?_, ?_⟩
  · rw [step_event s ev rest hp]
    obtain rfl | ⟨v, rfl⟩ := hev <;> rfl
  · exact ⟨rfl, hstatus, rfl, rfl, rfl, rfl, rfl, rfl, rfl, rfl, rfl, rfl, rfl, rfl, Memory.get_nil, rfl, rfl⟩

/-- Settles O53: the memory is empty and no flag is set. -/
theorem resetMeetsTheInvariants : Obligations.ResetMeetsTheInvariants := reset_onBus_inv [] .idle 0

end Sys2Proof.Proofs
end

-- ==== Proofs: the codes each command may end with (60_exceptions.md R271) ====
section
/-! Which result codes each instruction may end with. -/

namespace Sys2Proof.Machine

open Sys2Proof.Claims

/-- The result codes of 60_exceptions.md R271, command by command. -/
theorem commandBody_result {i : Instr} {s t : State} (h : commandBody i s = .ok t) : t.result ∈ raisable i := by
  cases i with
  | gfInv =>
    rw [commandBody] at h
    split at h <;> cases h <;> simp [raisable]
  | encode => obtain ⟨-, rfl⟩ | ⟨d, -, -, -, rfl⟩ := encodeBody_cases h <;> simp [raisable]
  | syndrome => obtain ⟨-, rfl⟩ | ⟨cw, -, -, rfl⟩ := syndromeBody_cases h <;> simp [raisable]
  | locate => exact locateBody_result h
  | correct => exact correctBody_result h
  | decode =>
    cases hp : s.paramsOk with
    | true => obtain hr | hr := decodeBody_result hp h <;> simp [raisable, hr]
    | false =>
      rw [commandBody_of_not_paramsOk (.inr (.inr rfl)) hp] at h
      cases h; simp [raisable]
  | _ => cases h; simp [raisable]

end Sys2Proof.Machine
end

-- ==== Proofs: the obligation on the result codes ====
section
/-! The statement on the rows of R271, settled from the layer above. -/

namespace Sys2Proof.Proofs

open Sys2Proof.Machine Sys2Proof.Claims

/-- Settles O45: a locked core reports LOCKED before the command, and each body ends with a code of its row. -/
theorem eachCommandRaisesItsOwnCodes : Obligations.EachCommandRaisesItsOwnCodes := by
  refine ⟨fun c => by cases c <;> rfl, fun i s t h => ?_⟩
  obtain ⟨hf, rfl⟩ | ⟨hf, hbody⟩ := exec_next_cases h
  · exact ⟨fun _ => rfl, fun hunlocked => absurd (hf.symm.trans hunlocked) (by decide)⟩
  · exact ⟨fun hlocked => absurd (hf.symm.trans hlocked) (by decide), fun _ => commandBody_result hbody⟩

end Sys2Proof.Proofs
end

-- ==== Proofs: bytes as polynomials over GF(2) (40_field_arithmetic.md R120, R123) ====
section
/-! Reading a byte as a polynomial turns field addition into addition and, modulo P, field multiplication into
multiplication: both are linear, and every monomial is a power of alpha = x. -/

namespace Sys2Proof.Machine

open Sys2Proof.Claims Polynomial

/-- What holds of the monomials, of 0 and of every sum holds of every byte. -/
theorem byte_induction {motive : Byte → Prop} (zero : motive 0x00) (unit : ∀ i < 8, motive (unitByte i))
    (add : ∀ x y, motive x → motive y → motive (gfAdd x y)) (x : Byte) : motive x := by
  have hsum (l : List Nat) (hl : ∀ i ∈ l, i < 8) : motive (xorSum (l.map unitByte)) := by
    induction l with
    | nil => exact zero
    | cons i l ih =>
      exact add _ _ (unit i (hl i List.mem_cons_self)) (ih fun j hj => hl j (List.mem_cons_of_mem i hj))
  rw [eq_xorSum_unitBytes x]
  exact hsum _ fun i hi => List.mem_range.mp (List.mem_filter.mp hi).1

/-! ### Sums and monomials -/

theorem toPoly_gfAdd (x y : Byte) : toPoly (gfAdd x y) = toPoly x + toPoly y := by
  have hbit (a b : Bool) (p : (ZMod 2)[X]) :
      (if xor a b then p else 0) = (if a then p else 0) + if b then p else 0 := by
    cases a <;> cases b <;> simp [CharTwo.add_self_eq_zero]
  simp only [toPoly, getLsbD_gfAdd, hbit, Finset.sum_add_distrib]

theorem toPoly_zero : toPoly 0x00 = 0 := by simp [toPoly]

theorem toPoly_unitByte {i : Nat} (hi : i < 8) : toPoly (unitByte i) = X ^ i := by
  have hbit : ∀ i < 8, ∀ j < 8, (unitByte i).getLsbD j = decide (j = i) := by decide
  rw [toPoly, Finset.sum_congr rfl fun j hj => by rw [hbit i hi j (Finset.mem_range.mp hj)]]
  simp [hi]

/-! ### Products modulo P -/

/-- The product with `x` is that of polynomials modulo P. -/
def MultipliesModP (x : Byte) : Prop := ∀ y, polyP ∣ toPoly x * toPoly y - toPoly (gfMul x y)

theorem MultipliesModP.add {x x' : Byte} (h : MultipliesModP x) (h' : MultipliesModP x') :
    MultipliesModP (gfAdd x x') := by
  intro y
  rw [add_gfMul, toPoly_gfAdd, toPoly_gfAdd, add_mul, add_sub_add_comm]
  exact dvd_add (h y) (h' y)

/-- Multiplying by both factors in turn multiplies by their product. -/
theorem MultipliesModP.mul {x x' : Byte} (h : MultipliesModP x) (h' : MultipliesModP x')
    (hprod : toPoly (gfMul x x') = toPoly x * toPoly x') : MultipliesModP (gfMul x x') := by
  intro y
  have hsplit : toPoly (gfMul x x') * toPoly y - toPoly (gfMul (gfMul x x') y) =
      toPoly x * (toPoly x' * toPoly y - toPoly (gfMul x' y)) +
        (toPoly x * toPoly (gfMul x' y) - toPoly (gfMul x (gfMul x' y))) := by
    rw [hprod, gfMul_assoc]
    ring
  rw [hsplit]
  exact dvd_add (dvd_mul_of_dvd_right (h' y) _) (h _)

theorem multipliesModP_zero : MultipliesModP 0x00 := by
  intro y
  rw [zero_gfMul, toPoly_zero, zero_mul, sub_zero]
  exact dvd_zero _

theorem multipliesModP_one : MultipliesModP 0x01 := by
  intro y
  rw [one_gfMul, show toPoly 0x01 = 1 from toPoly_unitByte (i := 0) (by decide), one_mul, sub_self]
  exact dvd_zero _

/-- Below x^8 the product of alpha and a monomial is the next monomial. -/
theorem alpha_gfMul_unitByte : ∀ i < 7, gfMul alpha (unitByte i) = unitByte (i + 1) := by decide +kernel

/-- The product of alpha and x^7 is x^8 less P. -/
theorem toPoly_alpha_gfMul_unitByte_seven : toPoly (gfMul alpha (unitByte 7)) = X ^ 8 - polyP := by
  have hbits : gfMul alpha (unitByte 7) =
      gfAdd (unitByte 4) (gfAdd (unitByte 3) (gfAdd (unitByte 2) (unitByte 0))) := by decide +kernel
  simp only [hbits, toPoly_gfAdd, toPoly_unitByte (show 4 < 8 by decide), toPoly_unitByte (show 3 < 8 by decide),
    toPoly_unitByte (show 2 < 8 by decide), toPoly_unitByte (show 0 < 8 by decide)]
  rw [polyP]
  linear_combination CharTwo.add_self_eq_zero (X ^ 4 + X ^ 3 + X ^ 2 + 1 : (ZMod 2)[X])

/-- Multiplying by alpha is multiplying by x: only at x^7 is there something to reduce. -/
theorem multipliesModP_alpha : MultipliesModP alpha := by
  have halpha : toPoly alpha = X := (toPoly_unitByte (i := 1) (by decide)).trans (pow_one X)
  refine byte_induction ?_ (fun i hi => ?_) fun x y hx hy => ?_
  · rw [gfMul_zero, toPoly_zero, mul_zero, sub_zero]
    exact dvd_zero _
  · rw [halpha, toPoly_unitByte hi]
    by_cases h7 : i < 7
    · rw [alpha_gfMul_unitByte i h7, toPoly_unitByte (by omega), ← pow_succ', sub_self]
      exact dvd_zero _
    · obtain rfl : i = 7 := by omega
      rw [toPoly_alpha_gfMul_unitByte_seven, ← pow_succ', sub_sub_cancel]
  · rw [gfMul_add, toPoly_gfAdd, toPoly_gfAdd, mul_add, add_sub_add_comm]
    exact dvd_add hx hy

theorem multipliesModP_unitByte {i : Nat} (hi : i < 8) : MultipliesModP (unitByte i) := by
  induction i with
  | zero => exact multipliesModP_one
  | succ i ih =>
    have hnext := alpha_gfMul_unitByte i (by omega)
    rw [← hnext]
    refine multipliesModP_alpha.mul (ih (by omega)) ?_
    rw [hnext, toPoly_unitByte hi, toPoly_unitByte (by omega), pow_succ',
      show toPoly alpha = X ^ 1 from toPoly_unitByte (i := 1) (by decide), pow_one]

theorem multipliesModP (x : Byte) : MultipliesModP x :=
  byte_induction multipliesModP_zero (fun _ => multipliesModP_unitByte) (fun _ _ => MultipliesModP.add) x

end Sys2Proof.Machine
end

-- ==== Proofs: the obligations on polynomials ====
section
/-! The statements on bytes and on coefficient lists as polynomials, settled from the layers above. -/

namespace Sys2Proof.Proofs

open Sys2Proof.Machine Sys2Proof.Claims

/-- Settles O13: multiplying by x takes a reduction at x^7 alone, and every byte is a sum of powers of x. -/
theorem multiplicationIsPolynomialProductModP : Obligations.MultiplicationIsPolynomialProductModP := multipliesModP

/-- Settles O20: Horner's rule, for the polynomial and for its derivative. -/
theorem polynomialEvaluationIsThePowerSum : Obligations.PolynomialEvaluationIsThePowerSum :=
  fun c x => ⟨polyEval_eq_evalSum c x, polyEval_formalDerivative c x⟩

end Sys2Proof.Proofs
end

-- ==== Proofs: commands and the bus outputs (20_memory.md R70) ====
section
/-! No command body reads what the bus showed last, so a write made with bus_re asserted too does what the write alone
does. -/

namespace Sys2Proof.Machine

open Sys2Proof.Claims

/-- The state with another reply on the bus and another count of drawn values. -/
def State.showing (s : State) (y : BusReply) (n : Nat) : State := { s with reply := y, draws := n }

/-- A body that does not read the bus outputs and leaves them. -/
def IgnoresBus (body : State → Except Fault State) : Prop :=
  ∀ s y n, body (s.showing y n) = (body s).map (State.showing · y n)

/-- Two stages that do not read the bus outputs make one. -/
theorem IgnoresBus.thenStage {first next : State → Except Fault State} (hfirst : IgnoresBus first)
    (hnext : IgnoresBus next) : IgnoresBus fun s => Machine.thenStage (first s) next := by
  intro s y n
  dsimp only
  rw [hfirst]
  cases first s with
  | error f => rfl
  | ok u =>
    by_cases hok : u.result = .ok
    · rw [thenStage_ok hok, ← hnext]
      exact thenStage_ok (s := u.showing y n) hok
    · rw [thenStage_stop hok]
      exact thenStage_stop (s := u.showing y n) hok

section
variable (s : State) (y : BusReply) (n : Nat)

@[simp] theorem showing_paramsOk : (s.showing y n).paramsOk = s.paramsOk := rfl
@[simp] theorem showing_dataCount : (s.showing y n).dataCount = s.dataCount := rfl
@[simp] theorem showing_parityCount : (s.showing y n).parityCount = s.parityCount := rfl
@[simp] theorem showing_codeLength : (s.showing y n).codeLength = s.codeLength := rfl
@[simp] theorem showing_locatorLength : (s.showing y n).locatorLength = s.locatorLength := rfl
@[simp] theorem showing_synValid : (s.showing y n).synValid = s.synValid := rfl
@[simp] theorem showing_locValid : (s.showing y n).locValid = s.locValid := rfl

@[simp] theorem readEntry_showing (buf : Buffer) (i : Nat) : readEntry (s.showing y n) buf i = readEntry s buf i :=
  readEntry_congr (s := s.showing y n) (t := s) rfl ..

@[simp] theorem readEntries_showing (buf : Buffer) (start len : Nat) :
    readEntries (s.showing y n) buf start len = readEntries s buf start len :=
  readEntries_congr (s := s.showing y n) (t := s) rfl ..

theorem setEntries_showing (buf : Buffer) (start : Nat) (vs : List Byte) :
    (s.showing y n).setEntries buf start vs = (s.setEntries buf start vs).showing y n := by
  induction vs generalizing s start with
  | nil => rfl
  | cons v vs ih => exact ih (s.setEntry buf start v) (start + 1)

@[simp] theorem writeEntries_showing (buf : Buffer) (start : Nat) (vs : List Byte) :
    writeEntries (s.showing y n) buf start vs = (writeEntries s buf start vs).map (State.showing · y n) := by
  unfold writeEntries
  split
  · rw [setEntries_showing]; rfl
  · rfl

@[simp] theorem applyCorrections_showing (ps : List (Nat × Byte)) :
    applyCorrections (s.showing y n) ps = (applyCorrections s ps).map (State.showing · y n) := by
  induction ps generalizing s with
  | nil => rfl
  | cons c ps ih =>
    obtain ⟨p, v⟩ := c
    rw [applyCorrections, applyCorrections, readEntry_showing]
    cases readEntry s .cw p with
    | error f => rfl
    | ok w => exact ih (s.setEntry .cw p (gfAdd w v))

@[simp] theorem recordErrors_showing (roots : List Nat) (mags : List Byte) :
    recordErrors (s.showing y n) roots mags = (recordErrors s roots mags).map (State.showing · y n) := by
  rw [recordErrors, recordErrors, writeEntries_showing]
  cases writeEntries s .errpos 0 (roots.map (BitVec.ofNat 8)) with
  | error f => rfl
  | ok u =>
    simp only [Except.map, writeEntries_showing]
    cases writeEntries u .errmag 0 mags <;> rfl

end

theorem encodeBody_ignoresBus : IgnoresBus encodeBody := by
  intro s y n
  simp only [encodeBody, showing_paramsOk, showing_dataCount, showing_parityCount, readEntries_showing,
    writeEntries_showing]
  split
  · cases readEntries s .cw 0 s.dataCount with
    | error f => rfl
    | ok d =>
      dsimp only
      cases writeEntries s .cw s.dataCount (parity d s.parityCount) <;> rfl
  · rfl

theorem syndromeBody_ignoresBus : IgnoresBus syndromeBody := by
  intro s y n
  simp only [syndromeBody, showing_paramsOk, showing_codeLength, showing_parityCount, readEntries_showing,
    writeEntries_showing]
  split
  · cases readEntries s .cw 0 s.codeLength with
    | error f => rfl
    | ok cw =>
      dsimp only
      cases writeEntries s .syn 0 (syndromes cw s.parityCount) <;> rfl
  · rfl

theorem locateBody_ignoresBus : IgnoresBus locateBody := by
  intro s y n
  simp only [locateBody, showing_synValid, showing_parityCount, readEntries_showing, writeEntries_showing]
  split
  · cases readEntries s .syn 0 s.parityCount with
    | error f => rfl
    | ok syn =>
      dsimp only
      cases writeEntries s .lambda 0 (locate syn).1 with
      | error f => rfl
      | ok u =>
        dsimp only
        rw [apply_ite (Except.map _)]
        rfl
  · rfl

theorem correctBody_ignoresBus : IgnoresBus correctBody := by
  intro s y n
  simp only [correctBody, showing_locValid, showing_parityCount, showing_codeLength, showing_locatorLength,
    readEntries_showing, applyCorrections_showing]
  split
  · cases readEntries s .lambda 0 (s.parityCount + 1) with
    | error f => rfl
    | ok lam =>
      dsimp only
      split
      · rfl
      · cases readEntries s .syn 0 s.parityCount with
        | error f => rfl
        | ok syn =>
          dsimp only
          generalize rootPositions lam s.codeLength = roots
          generalize magnitudes syn lam s.codeLength roots = mags
          cases applyCorrections s (roots.zip mags) with
          | error f => rfl
          | ok u =>
            simp only [Except.map, recordErrors_showing]
            cases recordErrors u roots mags <;> rfl
  · rfl

/-- No instruction reads the bus outputs. -/
theorem commandBody_ignoresBus (i : Instr) : IgnoresBus (commandBody i) := by
  cases i with
  | gfInv => intro s y n; rw [commandBody, commandBody, apply_ite (Except.map _)]; rfl
  | encode => exact encodeBody_ignoresBus
  | syndrome => exact syndromeBody_ignoresBus
  | locate => exact locateBody_ignoresBus
  | correct => exact correctBody_ignoresBus
  | decode => exact (syndromeBody_ignoresBus.thenStage locateBody_ignoresBus).thenStage correctBody_ignoresBus
  | _ => intro s y n; rfl

theorem exec_showing (i : Instr) (s : State) (y : BusReply) (n : Nat) :
    exec i (s.showing y n) = mapNext (State.showing · y n) (exec i s) := by
  rw [exec_eq_runCommand_commandBody, exec_eq_runCommand_commandBody, runCommand, runCommand, commandBody_ignoresBus,
    show (s.showing y n).fatal = s.fatal from rfl]
  split
  · rfl
  · cases commandBody i s <;> rfl

/-- A write does not read the bus outputs either. -/
theorem busWrite_showing (s : State) (y : BusReply) (n : Nat) (addr : Addr) (v : Byte) :
    busWrite (s.showing y n) addr v = mapNext (State.showing · y n) (busWrite s addr v) := by
  unfold busWrite
  split
  case h_1 => exact exec_showing (decodeByte v) { s with cmd := v } y n
  all_goals rfl

end Sys2Proof.Machine
end

-- ==== Proofs: the obligation on simultaneous requests ====
section
/-! The statement on a write made with bus_re asserted too, settled from the layer above. -/

namespace Sys2Proof.Proofs

open Sys2Proof.Machine Sys2Proof.Claims

/-- Settles O8: both steps make the same bus write, which neither reads nor changes what the bus shows. -/
theorem writeWithReadAssertedIsTheWrite : Obligations.WriteWithReadAssertedIsTheWrite := by
  intro s addr v rest
  rw [step_event _ _ rest rfl, step_event _ _ rest rfl]
  exact busWrite_showing ({ s with pending := rest, reply := .written }) _ _ addr v

end Sys2Proof.Proofs
end

-- ==== Proofs: the shape of the locator (43_locator.md R198) ====
section
/-! Massey's invariant read back in bytes: the locator's shape at every iteration, and that it generates the syndromes. -/

namespace Sys2Proof.Machine

open Sys2Proof.Claims Polynomial

/-- The coefficients of the locator beyond its length are zero, and its constant term is 1 (R198, items 1 to 3). -/
theorem berlekampMassey_shape {sq : List Byte} {n : Nat} (hn : n ≤ sq.length) :
    (berlekampMassey sq n).factor ≠ 0x00 ∧ (berlekampMassey sq n).current.getD 0 0x00 = 0x01 ∧
      ∀ i, (berlekampMassey sq n).len < i → (berlekampMassey sq n).current.getD i 0x00 = 0x00 := by
  obtain ⟨K, _, φ, h⟩ := exists_fieldEmbedding
  have hinv := keepsMassey_berlekampMassey h sq hn
  have hreg := hinv.register
  refine ⟨fun hzero => hinv.baseline.factor_ne_zero (hzero ▸ h.map_zero), h.injective ?_, fun i hi => ?_⟩
  · rw [← coeff_listPoly h, hreg.coeff_zero, h.map_one]
  · rw [← h.map_eq_zero_iff, ← coeff_listPoly h, hreg.coeff_eq_zero i hi]

/-- LOCATE's register has no discrepancy at any syndrome from its length on (R198, item 5). -/
theorem discrepancy_locate {K : Type} [Field K] {φ : Byte → K} (h : FieldEmbedding φ) (syn : List Byte) {n : Nat}
    (hL : (locate syn).2 ≤ n) (hn : n < syn.length) :
    discrepancy syn.reverse (berlekampMassey syn.reverse syn.length) n = 0x00 := by
  have hreg := isRegister_locate h syn
  exact h.map_eq_zero_iff.mp ((map_discrepancy h hL (hreg.mono hn.le)).symm.trans (hreg.generates _ (by omega) hn))

end Sys2Proof.Machine
end

-- ==== Proofs: the obligations of 43_locator.md R198 ====
section
/-! The statements on LOCATE's polynomial, settled from the layer above. -/

namespace Sys2Proof.Proofs

open Sys2Proof.Machine Sys2Proof.Claims

/-- Settles O32: the shape is part of Massey's invariant. -/
theorem locatorShapeHoldsAtEveryIteration : Obligations.LocatorShapeHoldsAtEveryIteration := by
  rintro syn n _ hn rfl
  obtain ⟨hfactor, hone, hzero⟩ := berlekampMassey_shape (sq := syn.reverse) (by simpa using hn)
  exact ⟨hfactor, hone, berlekampMassey_len_le _ n, fun i hi => not_lt.mp fun hlt => hi (hzero i hlt)⟩

/-- Settles O33: the sum is the discrepancy, and the register LOCATE returns has none. -/
theorem locatorGeneratesTheSyndromes : Obligations.LocatorGeneratesTheSyndromes := by
  intro syn n hL hn
  obtain ⟨K, _, φ, h⟩ := exists_fieldEmbedding
  exact discrepancy_locate h syn hL hn

end Sys2Proof.Proofs
end

-- ==== Proofs: the zeros of the locator (44_corrector.md R228) ====
section
/-! LOCATE's polynomial has a degree of at most L, so L distinct zeros are all it has and all are simple; and what that
says of CORRECT in a state with the invariants. -/

namespace Sys2Proof.Machine

open Sys2Proof.Claims Polynomial

section
variable {K : Type} [Field K] {φ : Byte → K}

/-- A nonzero polynomial of degree at most n has at most n distinct zeros, and where it has n, all of them are simple. -/
theorem length_zeros_le {p : K[X]} (hp : p ≠ 0) {n : Nat} (hdeg : p.natDegree ≤ n) {zs : List K} (hnodup : zs.Nodup)
    (hzs : ∀ z ∈ zs, p.IsRoot z) :
    zs.length ≤ n ∧ (zs.length = n → ∀ z ∈ zs, (derivative p).eval z ≠ 0) := by
  classical
  have hsub : (zs : Multiset K) ≤ p.roots :=
    (Multiset.le_iff_subset (Multiset.coe_nodup.mpr hnodup)).mpr fun z hz => (mem_roots hp).mpr (hzs z hz)
  have hroots : p.roots.card ≤ n := (card_roots' p).trans hdeg
  refine ⟨(Multiset.card_le_card hsub).trans hroots, fun hlen z hz hderiv => ?_⟩
  have hall : (zs : Multiset K) = p.roots := Multiset.eq_of_le_of_card_le hsub (hroots.trans hlen.ge)
  have hcount := Multiset.nodup_iff_count_le_one.mp (Multiset.coe_nodup.mpr hnodup) z
  rw [hall, count_roots] at hcount
  exact hcount.not_gt ((one_lt_rootMultiplicity_iff_isRoot hp).mpr ⟨hzs z hz, hderiv⟩)

/-- The zeros the root search looks for are distinct elements, one a position (40_field_arithmetic.md R134). -/
theorem locatorInverse_injOn {n : Nat} (hn : n ≤ 255) {p q : Nat} (hp : p < n) (hq : q < n)
    (h : locatorInverse n p = locatorInverse n q) : p = q := by
  rw [locatorInverse_eq_gfInv hn hp, locatorInverse_eq_gfInv hn hq] at h
  refine positionValue_inj hn hp hq (gfMul_left_cancel (x := gfInv (positionValue n p)) ?_ ?_)
  · exact ne_zero_of_gfMul_eq_one (gfMul_gfInv (positionValue_ne_zero n p))
  · rw [gfMul_comm, gfMul_gfInv (positionValue_ne_zero n p), gfMul_comm, h, gfMul_gfInv (positionValue_ne_zero n q)]

theorem natDegree_listPoly_locate_le (h : FieldEmbedding φ) (syn : List Byte) :
    (listPoly φ (locate syn).1).natDegree ≤ (locate syn).2 :=
  natDegree_le_iff_coeff_eq_zero.mpr (isRegister_locate h syn).coeff_eq_zero

theorem listPoly_locate_ne_zero (h : FieldEmbedding φ) (syn : List Byte) : listPoly φ (locate syn).1 ≠ 0 := by
  intro hzero
  have hone := (isRegister_locate h syn).coeff_zero
  rw [hzero, coeff_zero] at hone
  exact zero_ne_one hone

end

/-- LOCATE's polynomial has at most L zeros among the positions, and where it has L, they are simple (R228). -/
theorem rootPositions_locate (syn : List Byte) {n : Nat} (hn : n ≤ 255) :
    (rootPositions (locate syn).1 n).length ≤ (locate syn).2 ∧
      ((rootPositions (locate syn).1 n).length = (locate syn).2 →
        ∀ p ∈ rootPositions (locate syn).1 n, forneyDivisor (locate syn).1 n p ≠ 0x00) := by
  obtain ⟨K, _, φ, h⟩ := exists_fieldEmbedding
  have hnodup : ((rootPositions (locate syn).1 n).map fun p => φ (locatorInverse n p)).Nodup :=
    (rootPositions_nodup ..).map_on fun p hp q hq heq =>
      locatorInverse_injOn hn (lt_of_mem_rootPositions hp) (lt_of_mem_rootPositions hq) (h.injective heq)
  have hzeros := length_zeros_le (listPoly_locate_ne_zero h syn) (natDegree_listPoly_locate_le h syn) hnodup
  simp only [List.forall_mem_map, List.length_map, IsRoot, eval_listPoly h, ← listPoly_formalDerivative h] at hzeros
  obtain ⟨hle, hsimple⟩ := hzeros fun p hp => by rw [((mem_rootPositions ..).mp hp).2, h.map_zero]
  exact ⟨hle, fun hcount p hp hdiv => hsimple hcount p hp ((congrArg φ hdiv).trans h.map_zero)⟩

/-- Where LOC_VALID = 1 the invariants make LAMBDA the polynomial LOCATE computes from SYN and CW written, so CORRECT finds
every entry it reads, and completes. -/
theorem correctBody_of_inv {s : State} (hinv : s.Inv) (hv : s.locValid = true) :
    ∃ syn t, readEntries s .lambda 0 (s.parityCount + 1) = .ok (locate syn).1 ∧
      s.locatorLength = (locate syn).2 ∧ s.paramsOk = true ∧ correctBody s = .ok t ∧
      t.result = if (rootPositions (locate syn).1 s.codeLength).length = s.locatorLength then .ok else .uncorrectable := by
  obtain ⟨hp, cw, hcw, -, -⟩ := hinv.synCurrent (hinv.locSyn hv)
  obtain ⟨syn, hsyn, hlam, hldeg, hhalf⟩ := hinv.locCurrent hv
  obtain ⟨hn, hr⟩ := lengths_of_paramsOk hp
  by_cases hcount : (rootPositions (locate syn).1 s.codeLength).length = s.locatorLength
  · obtain ⟨u, -, -, hbody⟩ := correctBody_of_roots hv hlam hsyn hn rfl hcount (by omega) fun p hp => by
      rw [byteAt_cw_of_readEntries hcw (lt_of_mem_rootPositions hp)]
      rfl
    exact ⟨syn, _, hlam, hldeg, hp, hbody, (if_pos hcount).symm⟩
  · exact ⟨syn, _, hlam, hldeg, hp, correctBody_of_root_count_ne hv hlam hcount, (if_neg hcount).symm⟩

end Sys2Proof.Machine
end

-- ==== Proofs: the obligations of 44_corrector.md R228 ====
section
/-! The statements on Forney's divisor, settled from the layer above. -/

namespace Sys2Proof.Proofs

open Sys2Proof.Machine Sys2Proof.Claims

/-- Settles O37: a polynomial of degree at most L with L distinct zeros has no double zero. -/
theorem forneyNeverDividesByZero : Obligations.ForneyNeverDividesByZero :=
  fun syn _ _ hn => rootPositions_locate syn hn

/-- Settles O38: LAMBDA holds LOCATE's polynomial, so the fact about its roots speaks of the command. -/
theorem correctNeverDividesByZero : Obligations.CorrectNeverDividesByZero := by
  intro s lam roots hinv hf hv hlen hlam hroots
  obtain ⟨syn, t, hlocate, hldeg, hp, hbody, hresult⟩ := correctBody_of_inv hinv hv
  obtain ⟨hn, hr⟩ := lengths_of_paramsOk hp
  have hread : readEntries s .lambda 0 (s.parityCount + 1) = .ok lam :=
    readEntries_of_holds hlen (by simp; omega) hlam
  obtain rfl : lam = (locate syn).1 := Except.ok.inj (hread.symm.trans hlocate)
  obtain ⟨hle, hsimple⟩ := rootPositions_locate syn hn
  rw [← hldeg] at hle hsimple
  subst hroots
  refine ⟨hle, hsimple, t, ?_, (correctBody_fatal hbody).trans hf, hresult⟩
  rw [exec_unlocked .correct hf, commandBody, hbody]
  rfl

end Sys2Proof.Proofs
end

-- ==== Proofs: which steps can fault (10_state.md R54; 70_reset_and_hazards.md R302) ====
section
/-! Only unwritten entries stop a command, and with the invariants only those of CW; a step faults in a read or in a
command. -/

namespace Sys2Proof.Machine

open Sys2Proof.Claims

/-! ### Reading CW past what is written -/

/-- A word with an unwritten entry cannot be read, and the fault names the first one (10_state.md R54). -/
theorem readEntries_cw_of_unwritten {s : State} {p n : Nat} (hn : n ≤ 255) (hp : p < n)
    (hnone : byteAt s (0x100 + p) = none) (hsome : ∀ q, q < p → (byteAt s (0x100 + q)).isSome = true) :
    readEntries s .cw 0 n = .error (.unwrittenEntry .cw p) := by
  refine readEntries_error s .cw 0 n p _ hp ?_ fun q hq => ?_
  · rw [Nat.zero_add]
    exact (readEntry_unwritten_iff s .cw p (by simp; omega)).mpr hnone
  · obtain ⟨v, hv⟩ := Option.isSome_iff_exists.mp (hsome q hq)
    rw [Nat.zero_add]
    exact ⟨v, (readEntry_ok_iff ..).mpr ⟨by simp; omega, hv⟩⟩

/-- Where all entries of a run exist, only an unwritten one keeps it from being read. -/
theorem readEntries_fault {s : State} {buf : Buffer} {start n : Nat} {f : Fault} (hsize : start + n ≤ buf.size)
    (h : readEntries s buf start n = .error f) : ∃ i, f = .unwrittenEntry buf i := by
  induction n generalizing start with
  | zero => cases h
  | succ n ih =>
    rw [readEntries] at h
    split at h
    · next g hg =>
      cases h
      rw [readEntry, if_pos (by omega)] at hg
      split at hg
      · cases hg
      · cases hg; exact ⟨start, rfl⟩
    · next v hv =>
      split at h
      · next g hg => cases h; exact ih (by omega) hg
      · cases h

/-! ### Which commands can fault -/

theorem encodeBody_of_unreadable {s : State} {f : Fault} (hp : s.paramsOk = true)
    (h : readEntries s .cw 0 s.dataCount = .error f) : encodeBody s = .error f := by
  rw [encodeBody, if_pos hp, h]

theorem syndromeBody_of_unreadable {s : State} {f : Fault} (hp : s.paramsOk = true)
    (h : readEntries s .cw 0 s.codeLength = .error f) : syndromeBody s = .error f := by
  rw [syndromeBody, if_pos hp, h]

/-- A body that completes where a run of CW can be read, and else passes its fault on, faults at an unwritten entry only. -/
theorem fault_of_reading_cw {s : State} {result : Except Fault State} {n : Nat} {f : Fault} (hn : n ≤ 255)
    (hread : ∀ vs, readEntries s .cw 0 n = .ok vs → ∃ t, result = .ok t)
    (hfault : ∀ g, readEntries s .cw 0 n = .error g → result = .error g) (h : result = .error f) :
    ∃ p, f = .unwrittenEntry .cw p := by
  cases hcw : readEntries s .cw 0 n with
  | ok vs =>
    obtain ⟨t, ht⟩ := hread vs hcw
    cases ht.symm.trans h
  | error g =>
    cases (hfault g hcw).symm.trans h
    exact readEntries_fault (by simpa using hn) hcw

/-- A command that checks K and R faults only past the check. -/
theorem paramsOk_of_fault {i : Instr} (hi : Instr.checksParams i) {s : State} {f : Fault}
    (h : commandBody i s = .error f) : s.paramsOk = true := by
  by_contra hp
  cases (commandBody_of_not_paramsOk hi (Bool.eq_false_iff.mpr hp)).symm.trans h

theorem encodeBody_fault {s : State} {f : Fault} (h : encodeBody s = .error f) : ∃ p, f = .unwrittenEntry .cw p := by
  have hp := paramsOk_of_fault (i := .encode) (.inl rfl) h
  have hk : s.dataCount ≤ 255 := Nat.le_of_lt_succ s.k.isLt
  exact fault_of_reading_cw hk (fun _ hd => ⟨_, encodeBody_of_read hp hd⟩) (fun _ => encodeBody_of_unreadable hp) h

theorem syndromeBody_fault {s : State} {f : Fault} (h : syndromeBody s = .error f) :
    ∃ p, f = .unwrittenEntry .cw p := by
  have hp := paramsOk_of_fault (i := .syndrome) (.inr (.inl rfl)) h
  exact fault_of_reading_cw (lengths_of_paramsOk hp).1 (fun _ hcw => ⟨_, syndromeBody_of_read hp hcw⟩)
    (fun _ => syndromeBody_of_unreadable hp) h

/-- With the invariants LOCATE finds every entry it reads. -/
theorem locateBody_completes {s : State} (hinv : s.Inv) : ∃ t, locateBody s = .ok t := by
  cases hv : s.synValid with
  | false => exact ⟨_, locateBody_of_not_synValid hv⟩
  | true =>
    obtain ⟨hp, cw, -, hsyn, -⟩ := hinv.synCurrent hv
    exact ⟨_, locateBody_of_syn hv (lengths_of_paramsOk hp).2 hsyn⟩

/-- With the invariants CORRECT finds every entry it reads. -/
theorem correctBody_completes {s : State} (hinv : s.Inv) : ∃ t, correctBody s = .ok t := by
  cases hv : s.locValid with
  | false => exact ⟨_, correctBody_of_not_locValid hv⟩
  | true =>
    obtain ⟨syn, t, -, -, -, ht, -⟩ := correctBody_of_inv hinv hv
    exact ⟨t, ht⟩

/-- A stage that completes from every state with the invariants adds no fault to those of the stage before it. -/
theorem thenStage_fault {stage : Except Fault State} {next : State → Except Fault State} {f : Fault}
    (h : thenStage stage next = .error f) (hinv : ∀ u, stage = .ok u → u.Inv)
    (hnext : ∀ u, u.Inv → ∃ t, next u = .ok t) : stage = .error f := by
  cases stage with
  | error g => exact h
  | ok u =>
    obtain ⟨t, ht⟩ := hnext u (hinv u rfl)
    by_cases hok : u.result = .ok
    · rw [thenStage_ok hok, ht] at h; cases h
    · rw [thenStage_stop hok] at h; cases h

/-- SYNDROME is the only stage of DECODE that can fault: it leaves a state in which the later ones complete. -/
theorem decodeBody_fault {s : State} {f : Fault} (hs : s.Inv) (h : decodeBody s = .error f) :
    syndromeBody s = .error f := by
  have hsyn (u : State) (hu : syndromeBody s = .ok u) : u.Inv := syndromeBody_inv hs hu
  refine thenStage_fault (thenStage_fault h (fun u hu => ?_) fun _ => correctBody_completes) hsyn
    fun _ => locateBody_completes
  exact thenStage_preserves hu hsyn fun _ _ => locateBody_inv

/-- From a state with the invariants only ENCODE, SYNDROME and DECODE can fault, at an unwritten entry of CW. -/
theorem commandBody_fault {i : Instr} {s : State} {f : Fault} (hs : s.Inv) (h : commandBody i s = .error f) :
    Instr.checksParams i ∧ ∃ p, f = .unwrittenEntry .cw p := by
  cases i with
  | gfInv =>
    rw [commandBody] at h
    split at h <;> cases h
  | encode => exact ⟨.inl rfl, encodeBody_fault h⟩
  | syndrome => exact ⟨.inr (.inl rfl), syndromeBody_fault h⟩
  | locate =>
    obtain ⟨t, ht⟩ := locateBody_completes hs
    cases ht.symm.trans h
  | correct =>
    obtain ⟨t, ht⟩ := correctBody_completes hs
    cases ht.symm.trans h
  | decode => exact ⟨.inr (.inr rfl), syndromeBody_fault (decodeBody_fault hs h)⟩
  | _ => cases h

/-! ### Which steps can fault -/

theorem exec_ne_refused (i : Instr) (s : State) (q : Refusal) : exec i s ≠ .refused q :=
  exec_eq_runCommand_commandBody i s ▸ runCommand_ne_refused s _ q

/-- A locked core never faults. -/
theorem exec_fault {i : Instr} {s : State} {f : Fault} (h : exec i s = .fault f) : commandBody i s = .error f := by
  rw [exec_eq_runCommand_commandBody, runCommand] at h
  split at h
  · cases h
  · cases hbody : commandBody i s with
    | ok t => rw [hbody] at h; cases h
    | error g => rw [hbody] at h; cases h; rfl

/-- A bus write that runs no command completes. -/
theorem busWrite_cases (s : State) (addr : Addr) (v : Byte) :
    addr = 0x000 ∧ busWrite s addr v = exec (decodeByte v) { s with cmd := v } ∨ ∃ t, busWrite s addr v = .next t := by
  by_cases h : addr.toNat = 0x000
  · exact .inl ⟨BitVec.eq_of_toNat_eq h, busWrite_cmd s v h⟩
  · obtain ⟨t, ht, -, -⟩ := busWrite_mapRead s v h
    exact .inr ⟨t, ht⟩

theorem busWrite_ne_refused (s : State) (addr : Addr) (v : Byte) (q : Refusal) : busWrite s addr v ≠ .refused q := by
  obtain ⟨-, h⟩ | ⟨t, h⟩ := busWrite_cases s addr v
  · exact h ▸ exec_ne_refused _ _ q
  · simp [h]

theorem step_ne_refused (s : State) (q : Refusal) : step s ≠ .refused q := by
  cases hp : s.pending with
  | nil => simp [step_idle s hp]
  | cons ev rest =>
    rw [step_event s ev rest hp]
    cases ev with
    | access acc =>
      cases acc with
      | read addr =>
        rw [perform]
        cases busRead { s with pending := rest } addr <;> simp
      | write addr v => exact busWrite_ne_refused _ _ _ q
    | writeAndRead addr v => exact busWrite_ne_refused _ _ _ q
    | _ => simp [perform]

/-- A read that faults names the entry at its address. -/
theorem busRead_fault {s : State} {addr : Addr} {f : Fault} (h : busRead s addr = .error f) :
    ∃ buf i, buf.address i = addr.toNat ∧ f = .unwrittenEntry buf i := by
  cases hm : mapRead s addr.toNat with
  | some v => cases (busRead_of_mapRead_some hm).symm.trans h
  | none =>
    obtain ⟨buf, i, haddr, hread⟩ := busRead_of_mapRead_none hm
    cases hread.symm.trans h
    exact ⟨buf, i, haddr, rfl⟩

/-- A step that faults is a read, or a write on the state with the event taken off the host's list. -/
theorem step_fault_cases {s : State} {f : Fault} (h : step s = .fault f) :
    (∃ addr rest, s.pending = .access (.read addr) :: rest ∧
        ∃ buf i, buf.address i = addr.toNat ∧ f = .unwrittenEntry buf i) ∨
      ∃ p y n addr v, commandWritten s = (if addr = 0x000 then some v else none) ∧
        busWrite (s.onBus p y n) addr v = .fault f := by
  cases hp : s.pending with
  | nil => rw [step_idle s hp] at h; cases h
  | cons ev rest =>
    rw [step_event s ev rest hp] at h
    cases ev with
    | access acc =>
      cases acc with
      | read addr =>
        rw [perform] at h
        split at h
        · cases h
        · next g hg => cases h; exact .inl ⟨addr, rest, rfl, busRead_fault hg⟩
      | write addr v => exact .inr ⟨rest, .written, s.draws, addr, v, by simp [commandWritten, hp], h⟩
    | writeAndRead addr v => exact .inr ⟨rest, _, _, addr, v, by simp [commandWritten, hp], h⟩
    | _ => cases h

/-- The bytes of the commands that check K and R (30_encoding.md R101). -/
theorem eq_byte_of_checksParams {v : Byte} (h : Instr.checksParams (decodeByte v)) : v = 0x05 ∨ v = 0x06 ∨ v = 0x09 := by
  rw [← (encodeByte_decodeByte v).2]
  obtain h | h | h := h <;> rw [h] <;> decide

end Sys2Proof.Machine
end

-- ==== Proofs: the obligations on unwritten entries ====
section
/-! The statements on faults, settled from the layers above. -/

namespace Sys2Proof.Proofs

open Sys2Proof.Machine Sys2Proof.Claims

/-- Settles O51: each of the three begins by reading CW, and the read stops at the first unwritten entry. -/
theorem unwrittenOperandFaults : Obligations.UnwrittenOperandFaults := by
  intro s p hf hvalid hnone hsome
  have hp := (paramsOk_iff_validParams s).mpr hvalid
  have hn := (lengths_of_paramsOk hp).1
  refine ⟨fun hlt => ?_, fun hlt => ?_⟩
  · have hread := readEntries_cw_of_unwritten (n := s.dataCount) (by rw [State.codeLength] at hn; omega) hlt hnone hsome
    rw [exec_unlocked .encode hf, commandBody, encodeBody_of_unreadable hp hread]
    rfl
  · have hbody := syndromeBody_of_unreadable hp (readEntries_cw_of_unwritten hn hlt hnone hsome)
    rw [exec_unlocked .syndrome hf, exec_unlocked .decode hf, commandBody, commandBody, decodeBody, hbody]
    exact ⟨rfl, rfl⟩

/-- Settles O52: a read faults at its own address, and with the invariants a write only in a command that checks K and R. -/
theorem onlyTheHostMeetsUnwrittenEntries : Obligations.OnlyTheHostMeetsUnwrittenEntries := by
  refine ⟨step_ne_refused, fun s f hinv h => ?_⟩
  obtain ⟨addr, rest, hp, buf, i, haddr, rfl⟩ | ⟨p, y, n, addr, v, hcmd, hw⟩ := step_fault_cases h
  · exact ⟨buf, i, rfl, .inl ⟨addr, rest, hp, haddr⟩⟩
  · obtain ⟨rfl, hexec⟩ | ⟨t, ht⟩ := busWrite_cases (s.onBus p y n) addr v
    · obtain ⟨hchecks, i, hf⟩ := commandBody_fault (s := { s.onBus p y n with cmd := v })
        (hinv.congr ⟨rfl, rfl, rfl, rfl, rfl, rfl, rfl⟩) (exec_fault (hexec.symm.trans hw))
      exact ⟨.cw, i, hf, .inr ⟨rfl, by simpa [hcmd] using eq_byte_of_checksParams hchecks⟩⟩
    · cases ht.symm.trans hw

end Sys2Proof.Proofs
end

-- ==== Proofs: how DECODE ends (45_decode.md R251, R252) ====
section
/-! DECODE of a word that can be read always completes, in one of three states; what each of them holds. -/

namespace Sys2Proof.Machine

open Sys2Proof.Claims

/-- The state after SYNDROME and LOCATE, where LOCATE ends OK. -/
def State.located (s : State) (syn : List Byte) : State := (s.storeSyndromes syn).storeLocated syn

/-- The state after SYNDROME and LOCATE, where LOCATE ends UNCORRECTABLE. -/
def State.unlocated (s : State) (syn : List Byte) : State :=
  (((s.storeSyndromes syn).storeLocator syn).setLocValid false).raise .uncorrectable

/-- The positions CORRECT finds after LOCATE. -/
def State.foundRoots (s : State) (syn : List Byte) : List Nat := rootPositions (locate syn).1 s.codeLength

/-- The magnitudes CORRECT computes at them. -/
def State.foundMagnitudes (s : State) (syn : List Byte) : List Byte :=
  (s.foundRoots syn).map (magnitudeSum syn (locate syn).1 s.codeLength)

/-- The three ends of a DECODE that finds the syndromes `syn` (45_decode.md R252). -/
inductive DecodeEnd (s : State) (syn : List Byte) : State → Prop where
  /-- LOCATE's length is too large. -/
  | stopped : s.parityCount / 2 < (locate syn).2 → DecodeEnd s syn (s.unlocated syn)
  /-- LOCATE's polynomial has another number of roots. -/
  | mismatch : (locate syn).2 ≤ s.parityCount / 2 → (s.foundRoots syn).length ≠ (locate syn).2 →
      DecodeEnd s syn (((s.located syn).setNerr 0).clearValidity.raise .uncorrectable)
  /-- As many roots as LOCATE's length, each with its byte corrected. -/
  | corrected {u : State} : (locate syn).2 ≤ s.parityCount / 2 → (s.foundRoots syn).length = (locate syn).2 →
      applyCorrections (s.located syn) ((s.foundRoots syn).zip (s.foundMagnitudes syn)) = .ok u →
      DecodeEnd s syn (u.storeErrors (s.foundRoots syn) (s.foundMagnitudes syn))

/-- With a locator too long, LOCATE is the stage that ends DECODE. -/
theorem decodeBody_of_unlocated {s : State} {cw syn : List Byte} (hp : s.paramsOk = true)
    (hcw : readEntries s .cw 0 s.codeLength = .ok cw) (hsyn : syndromes cw s.parityCount = syn)
    (hL : ¬(locate syn).2 ≤ s.parityCount / 2) : decodeBody s = .ok (s.unlocated syn) := by
  have hr := (lengths_of_paramsOk hp).2
  have hread := readEntries_syn_storeSyndromes (hsyn ▸ syndromes_length cw _) hr
  have hlocate : locateBody (s.storeSyndromes syn) = .ok (s.unlocated syn) := by
    rw [locateBody_of_syn rfl (by simpa using hr) (by simpa using hread), storeSyndromes_parityCount,
      decide_eq_false hL, if_neg hL, State.unlocated]
  calc decodeBody s
    _ = thenStage (thenStage (.ok (s.storeSyndromes syn)) locateBody) correctBody := by
      rw [decodeBody, syndromeBody_of_read hp hcw, hsyn, State.storeSyndromes]
    _ = thenStage (.ok (s.unlocated syn)) correctBody := by rw [thenStage_ok rfl, hlocate]
    _ = _ := thenStage_stop (by simp [State.unlocated])

@[simp] theorem located_parityCount (s : State) (syn : List Byte) : (s.located syn).parityCount = s.parityCount := by
  simp [State.located]

@[simp] theorem located_codeLength (s : State) (syn : List Byte) : (s.located syn).codeLength = s.codeLength := by
  simp [State.located, State.codeLength]

/-- After a LOCATE that ends OK, CORRECT of a written word completes, and ends DECODE on either side of the root count. -/
theorem correctBody_located {s : State} {syn : List Byte} (hp : s.paramsOk = true) (hlen : syn.length = s.parityCount)
    (hw : ∀ p < s.codeLength, (byteAt s (0x100 + p)).isSome = true) (hL : (locate syn).2 ≤ s.parityCount / 2) :
    ∃ t, correctBody (s.located syn) = .ok t ∧ DecodeEnd s syn t := by
  obtain ⟨hn, hr⟩ := lengths_of_paramsOk hp
  have hlam : readEntries (s.located syn) .lambda 0 ((s.located syn).parityCount + 1) = .ok (locate syn).1 := by
    rw [located_parityCount]
    exact readEntries_lambda_storeLocated hlen hr
  have hsyn : readEntries (s.located syn) .syn 0 (s.located syn).parityCount = .ok syn := by
    rw [located_parityCount]
    exact readEntries_syn_storeLocated hlen hr
  have hldeg : (s.located syn).locatorLength = (locate syn).2 := storeLocated_locatorLength _ _ (by omega)
  have hroots : s.foundRoots syn = rootPositions (locate syn).1 (s.located syn).codeLength := by
    rw [located_codeLength, State.foundRoots]
  by_cases hcount : (s.foundRoots syn).length = (locate syn).2
  · obtain ⟨u, hu, -, hbody⟩ := correctBody_of_roots rfl hlam hsyn (by simpa using hn) hroots (hcount.trans hldeg.symm)
      (by omega) fun p hp => by
        have hpn : p < s.codeLength := lt_of_mem_rootPositions hp
        rw [State.located, byteAt_cw_storeLocated_storeSyndromes s syn (by omega)]
        exact hw p hpn
    rw [located_codeLength] at hu hbody
    exact ⟨_, hbody, .corrected hL hcount hu⟩
  · refine ⟨_, correctBody_of_root_count_ne rfl hlam ?_, .mismatch hL hcount⟩
    rwa [← hroots, hldeg]

/-- DECODE of a word that can be read completes in one of its three ends. -/
theorem decodeBody_of_read {s : State} {cw syn : List Byte} (hp : s.paramsOk = true)
    (hcw : readEntries s .cw 0 s.codeLength = .ok cw) (hsyn : syndromes cw s.parityCount = syn) :
    ∃ t, decodeBody s = .ok t ∧ DecodeEnd s syn t := by
  by_cases hL : (locate syn).2 ≤ s.parityCount / 2
  · rw [decodeBody_of_located hp hcw hsyn hL]
    refine correctBody_located hp (hsyn ▸ syndromes_length cw _) (fun p hpn => ?_) hL
    exact Option.isSome_of_eq_some (byteAt_cw_of_readEntries hcw hpn)
  · exact ⟨_, decodeBody_of_unlocated hp hcw hsyn hL, .stopped (by omega)⟩

/-- Everything a DECODE that completes can have done. -/
theorem decodeBody_cases {s t : State} (h : decodeBody s = .ok t) :
    (s.paramsOk = false ∧ t = s.raise .invalidParameters) ∨
      s.paramsOk = true ∧ ∃ cw, readEntries s .cw 0 s.codeLength = .ok cw ∧
        DecodeEnd s (syndromes cw s.parityCount) t := by
  cases hp : s.paramsOk with
  | false =>
    have hbody := commandBody_of_not_paramsOk (i := .decode) (.inr (.inr rfl)) hp
    exact .inl ⟨rfl, Except.ok.inj (h.symm.trans hbody)⟩
  | true =>
    cases hread : readEntries s .cw 0 s.codeLength with
    | error f =>
      rw [decodeBody, syndromeBody_of_unreadable hp hread] at h
      cases h
    | ok cw =>
      obtain ⟨u, hu, hend⟩ := decodeBody_of_read hp hread rfl
      cases h.symm.trans hu
      exact .inr ⟨rfl, cw, rfl, hend⟩

/-! ### The states after LOCATE -/

section
variable (s : State) (syn : List Byte)

theorem unlocated_eq : s.unlocated syn =
    { s with
      mem := (s.located syn).mem, ldeg := BitVec.ofNat 8 (locate syn).2, synValid := true, locValid := false,
      synZero := syn.all (· == 0x00), result := .uncorrectable } := by
  rw [State.unlocated, State.storeLocator, State.setEntries_eq, ← storeLocated_mem, ← State.located]
  generalize (s.located syn).mem = m
  rw [State.storeSyndromes, State.setEntries_eq]
  rfl

theorem located_eq : s.located syn =
    { s with
      mem := (s.located syn).mem, ldeg := BitVec.ofNat 8 (locate syn).2, synValid := true, locValid := true,
      synZero := syn.all (· == 0x00), result := .ok } := by
  have hmem := storeLocated_mem (s.storeSyndromes syn) syn
  rw [← State.located] at hmem
  rw [hmem, State.located, State.storeLocated, State.storeLocator, State.setEntries_eq]
  generalize ((s.storeSyndromes syn).setEntries .lambda 0 (locate syn).1).mem = m
  rw [State.storeSyndromes, State.setEntries_eq]
  rfl

variable {s syn}

theorem byteAt_located_lambda {i : Nat} (hi : i ≤ syn.length) :
    (byteAt (s.located syn) (0x300 + i)).isSome = true := by
  have hlt : i < (locate syn).1.length := by rw [locate_length]; omega
  rw [State.located, byteAt, storeLocated_mem]
  exact Option.isSome_of_eq_some (holds_setEntries _ .lambda 0 (locate syn).1 i hlt)

/-- SYN lies before LAMBDA. -/
theorem byteAt_located_syn {i : Nat} (hi : i < syn.length) (hr : syn.length ≤ 254) :
    (byteAt (s.located syn) (0x200 + i)).isSome = true := by
  rw [State.located, byteAt, storeLocated_mem]
  have hlam := sameOutside_setEntries (s.storeSyndromes syn) .lambda 0 (locate syn).1 (0x200 + i) (by simp; omega)
  exact Option.isSome_of_eq_some (hlam.trans (holds_setEntries s .syn 0 syn i hi))

theorem byteAt_located_outside {a : Nat} (hsyn : ¬(0x200 ≤ a ∧ a < 0x200 + syn.length))
    (hlam : ¬(0x300 ≤ a ∧ a ≤ 0x300 + syn.length)) : byteAt (s.located syn) a = byteAt s a := by
  rw [State.located, byteAt, storeLocated_mem]
  refine (sameOutside_setEntries _ .lambda 0 _ _ (by simp [locate_length]; omega)).trans ?_
  exact sameOutside_setEntries s .syn 0 syn a hsyn

end

/-! ### What the ends hold -/

section
variable {s t : State} {syn : List Byte}

/-- A locator longer than 0 comes of a syndrome that is not zero. -/
theorem all_zero_eq_false_of_locate (h : 0 < (locate syn).2) : syn.all (· == 0x00) = false := by
  refine Bool.eq_false_iff.mpr fun hall => ?_
  have hzero : syn = List.replicate syn.length 0x00 := List.eq_replicate_iff.mpr ⟨rfl, by simpa using hall⟩
  rw [hzero, locate_replicate_zero] at h
  exact Nat.lt_irrefl 0 h

/-- DECODE changes the memory, LDEG, NERR and STATUS, and leaves LOC_VALID and SYN_ZERO clear. -/
theorem DecodeEnd.eq (h : DecodeEnd s syn t) : t =
    { s with
      mem := t.mem, ldeg := BitVec.ofNat 8 (locate syn).2, nerr := t.nerr, synValid := t.synValid, locValid := false,
      synZero := false, result := t.result } := by
  cases h with
  | stopped hL => rw [unlocated_eq, all_zero_eq_false_of_locate (by omega)]
  | mismatch => rw [located_eq]; rfl
  | corrected _ _ hu => rw [storeErrors_eq, applyCorrections_eq hu, located_eq]

/-- SYN_VALID stays set only where DECODE stopped at LOCATE. -/
theorem DecodeEnd.result_of_synValid (h : DecodeEnd s syn t) (hv : t.synValid = true) : t.result = .uncorrectable := by
  cases h with
  | stopped => rfl
  | mismatch => cases hv
  | corrected => cases hv

theorem length_foundMagnitudes : (s.foundMagnitudes syn).length = (s.foundRoots syn).length := by
  simp [State.foundMagnitudes]

/-- CORRECT changes no byte but those at the roots and the first NERR entries of the two lists. -/
theorem byteAt_storeErrors_of_corrections {u : State} {roots : List Nat} {mags : List Byte}
    (hu : applyCorrections s (roots.zip mags) = .ok u) (hsize : roots.length ≤ 128) (hlen : mags.length = roots.length)
    {a : Nat} (hcw : ∀ p ∈ roots, a ≠ 0x100 + p)
    (hlists : ¬(0x400 ≤ a ∧ a < 0x400 + (u.storeErrors roots mags).nerr.toNat ∨
      0x480 ≤ a ∧ a < 0x480 + (u.storeErrors roots mags).nerr.toNat)) :
    byteAt (u.storeErrors roots mags) a = byteAt s a := by
  rw [storeErrors_nerr, BitVec.toNat_ofNat, Nat.mod_eq_of_lt (by omega)] at hlists
  rw [byteAt_storeErrors_outside u (by omega) (by omega)]
  exact applyCorrections_zip_byteAt_ne hu hcw

/-- After LOCATE, DECODE changes bytes at the roots and, where it ends OK, the first NERR entries of the two lists alone. -/
theorem DecodeEnd.byteAt_eq_located (h : DecodeEnd s syn t) {a : Nat} (hcw : ∀ p ∈ s.foundRoots syn, a ≠ 0x100 + p)
    (hlists : ¬(t.result = .ok ∧ (0x400 ≤ a ∧ a < 0x400 + t.nerr.toNat ∨ 0x480 ≤ a ∧ a < 0x480 + t.nerr.toNat))) :
    byteAt t a = byteAt (s.located syn) a := by
  cases h with
  | stopped => rw [unlocated_eq]
  | mismatch => rfl
  | @corrected u hL hcount hu =>
    have hr : s.parityCount ≤ 255 := Nat.le_of_lt_succ s.r.isLt
    exact byteAt_storeErrors_of_corrections hu (by omega) length_foundMagnitudes hcw (not_and.mp hlists rfl)

/-- DECODE writes nothing outside the word, SYN, LAMBDA and the two lists. -/
theorem DecodeEnd.byteAt_outside (h : DecodeEnd s syn t) (hlen : syn.length = s.parityCount) {a : Nat}
    (hcw : ¬(0x100 ≤ a ∧ a < 0x100 + s.codeLength)) (hsyn : ¬(0x200 ≤ a ∧ a < 0x200 + s.parityCount))
    (hlam : ¬(0x300 ≤ a ∧ a ≤ 0x300 + s.parityCount))
    (hlists : ¬(t.result = .ok ∧ (0x400 ≤ a ∧ a < 0x400 + t.nerr.toNat ∨ 0x480 ≤ a ∧ a < 0x480 + t.nerr.toNat))) :
    byteAt t a = byteAt s a := by
  rw [h.byteAt_eq_located (fun p hp => ?_) hlists, byteAt_located_outside (hlen ▸ hsyn) (hlen ▸ hlam)]
  have : p < s.codeLength := lt_of_mem_rootPositions hp
  omega

/-- A byte of the word changes only at a root. -/
theorem DecodeEnd.byteAt_cw (h : DecodeEnd s syn t) {p : Nat} (hp : p < 255) (hroot : p ∉ s.foundRoots syn) :
    byteAt t (0x100 + p) = byteAt s (0x100 + p) := by
  rw [h.byteAt_eq_located (fun q hq => ?_) (by omega), byteAt_located_outside (by omega) (by omega)]
  exact fun heq => hroot (Nat.add_left_cancel heq ▸ hq)

/-- DECODE changes the word only where it ends OK. -/
theorem DecodeEnd.byteAt_cw_of_uncorrectable (h : DecodeEnd s syn t) (hresult : t.result = .uncorrectable) {p : Nat}
    (hp : p < 255) : byteAt t (0x100 + p) = byteAt s (0x100 + p) := by
  have hlocated : byteAt (s.located syn) (0x100 + p) = byteAt s (0x100 + p) :=
    byteAt_located_outside (by omega) (by omega)
  cases h with
  | stopped => rw [unlocated_eq]; exact hlocated
  | mismatch => exact hlocated
  | corrected => cases hresult

/-- A byte of the word that a DECODE changes is one of those it lists. -/
theorem listed_of_byteAt_cw_ne {u : State} (h : DecodeEnd s syn (u.storeErrors (s.foundRoots syn) (s.foundMagnitudes syn)))
    (hsize : (s.foundRoots syn).length ≤ 128) {p : Nat} (hp : p < 255)
    (hne : byteAt (u.storeErrors (s.foundRoots syn) (s.foundMagnitudes syn)) (0x100 + p) ≠ byteAt s (0x100 + p)) :
    ∃ i < (s.foundRoots syn).length,
      byteAt (u.storeErrors (s.foundRoots syn) (s.foundMagnitudes syn)) (0x400 + i) = some (BitVec.ofNat 8 p) := by
  obtain ⟨i, hi, rfl⟩ := List.getElem_of_mem (not_not.mp fun hroot => hne (h.byteAt_cw hp hroot))
  exact ⟨i, hi, byteAt_errpos_storeErrors u hi hsize⟩

end

end Sys2Proof.Machine
end

-- ==== Proofs: the obligation on how DECODE ends ====
section
/-! The statement on DECODE's outcomes, settled from the layers above. -/

namespace Sys2Proof.Proofs

open Sys2Proof.Machine Sys2Proof.Claims

/-- Settles O40: the three ends of DECODE, with what each of them holds. -/
theorem decodeEndsInOneOfItsOutcomes : Obligations.DecodeEndsInOneOfItsOutcomes := by
  intro s hf hvalid hw
  have hp := (paramsOk_iff_validParams s).mpr hvalid
  obtain ⟨hn, hr⟩ := lengths_of_paramsOk hp
  obtain ⟨cw, hcw⟩ := readEntries_of_written s .cw 0 s.codeLength (by simpa using hn) fun i hi => by
    rw [Nat.zero_add]
    exact hw i hi
  obtain ⟨t, hbody, hend⟩ := decodeBody_of_read hp hcw rfl
  generalize hsyn : syndromes cw s.parityCount = syn at hend
  have hlen : syn.length = s.parityCount := hsyn ▸ syndromes_length ..
  have hL := locate_len_le syn
  have heq := hend.eq
  have hldeg : t.ldeg = BitVec.ofNat 8 (locate syn).2 := by rw [heq]
  have hldegNat : t.ldeg.toNat = (locate syn).2 := by rw [hldeg, BitVec.toNat_ofNat, Nat.mod_eq_of_lt (by omega)]
  have hroot {p : Nat} : p ∈ s.foundRoots syn → p < s.codeLength := lt_of_mem_rootPositions
  refine ⟨t, ?_, hldeg ▸ heq, fun i hi => ?_, fun i hi => ?_, fun a ha hasyn halam halists => ?_, ?_⟩
  · rw [exec_unlocked .decode hf, commandBody, hbody]
    rfl
  · have hi : i < s.parityCount := hi
    rw [hend.byteAt_eq_located (fun p hp => by have := hroot hp; omega) (by omega)]
    exact byteAt_located_syn (by omega) (by omega)
  · have hi : i ≤ s.parityCount := hi
    rw [hend.byteAt_eq_located (fun p hp => by have := hroot hp; omega) (by omega)]
    exact byteAt_located_lambda (by omega)
  · exact hend.byteAt_outside hlen (Nat.add_assoc 0x100 .. ▸ ha) hasyn halam halists
  · rw [hldegNat]
    have huncorrectable := hend.byteAt_cw_of_uncorrectable
    cases hend with
    | stopped hlarge => exact .inl ⟨rfl, hlarge, by rw [unlocated_eq], by rw [unlocated_eq], fun p => huncorrectable rfl⟩
    | mismatch hhalf => exact .inr (.inl ⟨rfl, hhalf, rfl, rfl, fun p => huncorrectable rfl⟩)
    | @corrected u hhalf hcount hu =>
      have hnerr := storeErrors_nerr u (s.foundRoots syn) (s.foundMagnitudes syn)
      rw [hcount, ← hldeg] at hnerr
      refine .inr (.inr ⟨rfl, hnerr, hhalf, rfl, fun p hp hne => ?_⟩)
      rw [hnerr, hldegNat, ← hcount]
      exact listed_of_byteAt_cw_ne (.corrected hhalf hcount hu) (by omega) hp hne

end Sys2Proof.Proofs
end

-- ==== Proofs: a word with one error (45_decode.md R253) ====
section
/-! A codeword with one byte changed differs from it by an error word with one error. -/

namespace Sys2Proof.Machine

open Sys2Proof.Claims

section
variable {sent : List Byte} {p : Nat} {y : Byte}

theorem errorWord_modify_getD (hp : p < sent.length) (q : Nat) :
    (errorWord sent (sent.modify p (gfAdd · y))).getD q 0x00 = if q = p then y else 0x00 := by
  by_cases hq : q < sent.length
  · rw [errorWord_getD (by simp) hq, List.getD_eq_getElem sent _ hq,
      List.getD_eq_getElem (sent.modify _ _) _ (by simpa using hq), List.getElem_modify]
    by_cases heq : q = p
    · rw [if_pos heq.symm, if_pos heq, ← gfAdd_assoc, gfAdd_self, zero_gfAdd]
    · rw [if_neg (Ne.symm heq), if_neg heq, gfAdd_self]
  · rw [List.getD_eq_default _ _ (by rw [errorWord_length (by simp)]; omega), if_neg (by omega)]

theorem errorPositions_modify (hp : p < sent.length) (hy : y ≠ 0x00) :
    errorPositions (errorWord sent (sent.modify p (gfAdd · y))) = [p] := by
  have hfilter : errorPositions (errorWord sent (sent.modify p (gfAdd · y))) =
      (List.range sent.length).filter (· == p) := by
    rw [errorPositions, errorWord_length (by simp)]
    refine List.filter_congr fun q _ => ?_
    rw [errorWord_modify_getD hp, Bool.eq_iff_iff, bne_iff_ne, beq_iff_eq]
    by_cases hq : q = p
    · rw [if_pos hq]
      exact iff_of_true hy hq
    · rw [if_neg hq]
      exact iff_of_false (not_not.mpr rfl) hq
  rw [hfilter, List.filter_beq, List.count_eq_one_of_mem List.nodup_range (List.mem_range.mpr hp)]
  rfl

end

end Sys2Proof.Machine
end

-- ==== Proofs: the obligation on a single error ====
section
/-! The statement on DECODE and one error, settled from the layers above. -/

namespace Sys2Proof.Proofs

open Sys2Proof.Machine Sys2Proof.Claims

/-- Settles O41: the error word has one error, which two syndromes determine. -/
theorem decodeCorrectsASingleError : Obligations.DecodeCorrectsASingleError := by
  intro s d p y hf hvalid hr hd hp hy hword
  have hparams := (paramsOk_iff_validParams s).mpr hvalid
  have hn := (lengths_of_paramsOk hparams).1
  have hlen : (d ++ parity d s.parityCount).length = s.codeLength := by
    rw [List.length_append, parity_length d _ (parityCount_pos hparams), hd]
    rfl
  have hword : Holds s 0x100 ((d ++ parity d s.parityCount).modify p (gfAdd · y)) := hword
  have hpLen : p < (d ++ parity d s.parityCount).length := hlen ▸ hp
  have hread := readEntries_of_holds (buf := .cw) (n := s.codeLength) (by rw [List.length_modify]; exact hlen)
    (by simpa using hn) hword
  have herrors := errorPositions_modify hpLen hy
  have hhalf : 1 ≤ s.parityCount / 2 := by rw [State.parityCount]; omega
  obtain ⟨t, ht, hcorrects, hrestored⟩ :=
    decodeBody_restores hparams hread (List.length_modify ..).symm (herrors ▸ hhalf)
  obtain ⟨hpos, hval⟩ := hcorrects.lists 0 (herrors ▸ Nat.one_pos)
  simp only [herrors, List.getElem_singleton] at hpos hval
  have hnerr := hcorrects.nerr
  rw [errorWord_modify_getD hpLen, if_pos rfl] at hval
  refine ⟨t, ?_, hcorrects.result, ?_, fun i hi => ?_, hpos, hval⟩
  · rw [exec_unlocked .decode hf, commandBody, ht]
    rfl
  · rw [herrors] at hnerr
    exact BitVec.eq_of_toNat_eq hnerr
  · rw [← List.getD_eq_getElem _ 0x00 hi]
    exact hrestored i (hlen ▸ hi)

end Sys2Proof.Proofs
end

-- ==== Proofs: what each command may write (30_encoding.md R104, R105) ====
section
/-! The registers and the bytes of memory that each command body leaves as they were. -/

namespace Sys2Proof.Machine

open Sys2Proof.Claims

section
variable {s t : State}

/-! ### Registers -/

theorem encodeBody_registers (h : encodeBody s = .ok t) : t.res = s.res ∧ t.ldeg = s.ldeg ∧ t.nerr = s.nerr := by
  obtain ⟨-, rfl⟩ | ⟨d, -, -, -, rfl⟩ := encodeBody_cases h <;> simp

theorem syndromeBody_registers (h : syndromeBody s = .ok t) : t.res = s.res ∧ t.ldeg = s.ldeg ∧ t.nerr = s.nerr := by
  obtain ⟨-, rfl⟩ | ⟨cw, -, -, rfl⟩ := syndromeBody_cases h <;> simp

theorem locateBody_registers (h : locateBody s = .ok t) : t.res = s.res ∧ t.nerr = s.nerr := by
  obtain ⟨-, rfl⟩ | ⟨syn, -, -, -, ⟨-, rfl⟩ | ⟨-, rfl⟩⟩ := locateBody_cases h <;> simp [State.storeLocator]

theorem correctBody_registers (h : correctBody s = .ok t) : t.res = s.res ∧ t.ldeg = s.ldeg := by
  obtain ⟨-, rfl⟩ | ⟨lam, -, -, ⟨-, rfl⟩ | ⟨-, syn, u, w, -, hu, hw, rfl⟩⟩ := correctBody_cases h
  · exact ⟨rfl, rfl⟩
  · exact ⟨rfl, rfl⟩
  · obtain ⟨-, -, rfl⟩ := recordErrors_cases hw
    rw [applyCorrections_eq hu]
    simp

theorem decodeBody_res (h : decodeBody s = .ok t) : t.res = s.res := by
  obtain ⟨-, rfl⟩ | ⟨-, cw, -, hend⟩ := decodeBody_cases h
  · rfl
  · rw [hend.eq]

/-- Which commands own RES, LDEG and NERR. -/
theorem commandBody_registers {i : Instr} (h : commandBody i s = .ok t) :
    (t.res ≠ s.res → i = .gfAdd ∨ i = .gfMul ∨ i = .gfInv ∨ i = .gfPow) ∧
      (t.ldeg ≠ s.ldeg → i = .locate ∨ i = .decode) ∧ (t.nerr ≠ s.nerr → i = .correct ∨ i = .decode) := by
  cases i with
  | gfInv =>
    rw [commandBody] at h
    split at h <;> cases h <;> simp
  | encode =>
    obtain ⟨hres, hldeg, hnerr⟩ := encodeBody_registers h
    exact ⟨fun hne => absurd hres hne, fun hne => absurd hldeg hne, fun hne => absurd hnerr hne⟩
  | syndrome =>
    obtain ⟨hres, hldeg, hnerr⟩ := syndromeBody_registers h
    exact ⟨fun hne => absurd hres hne, fun hne => absurd hldeg hne, fun hne => absurd hnerr hne⟩
  | locate =>
    obtain ⟨hres, hnerr⟩ := locateBody_registers h
    exact ⟨fun hne => absurd hres hne, fun _ => .inl rfl, fun hne => absurd hnerr hne⟩
  | correct =>
    obtain ⟨hres, hldeg⟩ := correctBody_registers h
    exact ⟨fun hne => absurd hres hne, fun hne => absurd hldeg hne, fun _ => .inl rfl⟩
  | decode => exact ⟨fun hne => absurd (decodeBody_res h) hne, fun _ => .inr rfl, fun _ => .inr rfl⟩
  | _ => cases h; simp

/-! ### Bytes of memory -/

variable {a : Nat} (hne : byteAt t a ≠ byteAt s a)
include hne

theorem encodeBody_byteAt_ne (h : encodeBody s = .ok t) :
    0x100 + s.k.toNat ≤ a ∧ a < 0x100 + s.k.toNat + s.r.toNat := by
  obtain ⟨-, rfl⟩ | ⟨d, hp, -, -, rfl⟩ := encodeBody_cases h
  · exact absurd rfl hne
  · have hsame := sameOutside_setEntries s .cw s.dataCount (parity d s.parityCount)
    rw [parity_length d _ (parityCount_pos hp)] at hsame
    exact not_not.mp fun hout => hne (hsame a hout)

theorem syndromeBody_byteAt_ne (h : syndromeBody s = .ok t) : 0x200 ≤ a ∧ a < 0x200 + s.r.toNat := by
  obtain ⟨-, rfl⟩ | ⟨cw, -, -, rfl⟩ := syndromeBody_cases h
  · exact absurd rfl hne
  · have hsame := sameOutside_setEntries s .syn 0 (syndromes cw s.parityCount)
    rw [syndromes_length] at hsame
    exact not_not.mp fun hout => hne (hsame a hout)

theorem locateBody_byteAt_ne (h : locateBody s = .ok t) : 0x300 ≤ a ∧ a ≤ 0x300 + s.r.toNat := by
  obtain ⟨-, rfl⟩ | ⟨syn, -, hsyn, -, hend⟩ := locateBody_cases h
  · exact absurd rfl hne
  · have hlen : (locate syn).1.length = s.r.toNat + 1 := by
      rw [locate_length, ((readEntries_ok_iff ..).1 hsyn).1, State.parityCount]
    have hmem : t.mem = (s.setEntries .lambda 0 (locate syn).1).mem := by
      obtain ⟨-, rfl⟩ | ⟨-, rfl⟩ := hend <;> rfl
    refine not_not.mp fun hout => hne ?_
    rw [byteAt, hmem]
    exact sameOutside_setEntries s .lambda 0 _ a (by simp; omega)

theorem correctBody_byteAt_ne (h : correctBody s = .ok t) :
    0x100 ≤ a ∧ a < 0x100 + s.k.toNat + s.r.toNat ∨ 0x400 ≤ a ∧ a < 0x400 + t.nerr.toNat ∨
      0x480 ≤ a ∧ a < 0x480 + t.nerr.toNat := by
  obtain ⟨-, rfl⟩ | ⟨lam, -, -, ⟨-, rfl⟩ | ⟨-, syn, u, w, -, hu, hw, rfl⟩⟩ := correctBody_cases h
  · exact absurd rfl hne
  · exact absurd rfl hne
  · obtain ⟨hsize, -, rfl⟩ := recordErrors_cases hw
    refine not_not.mp fun hout => hne (byteAt_storeErrors_of_corrections hu hsize (by simp) (fun p hp => ?_) ?_)
    · have : p < s.k.toNat + s.r.toNat := lt_of_mem_rootPositions hp
      omega
    · exact fun hlists => hout (.inr hlists)

theorem decodeBody_byteAt_ne (h : decodeBody s = .ok t) :
    0x200 ≤ a ∧ a < 0x200 + s.r.toNat ∨ 0x300 ≤ a ∧ a ≤ 0x300 + s.r.toNat ∨
      0x100 ≤ a ∧ a < 0x100 + s.k.toNat + s.r.toNat ∨ 0x400 ≤ a ∧ a < 0x400 + t.nerr.toNat ∨
      0x480 ≤ a ∧ a < 0x480 + t.nerr.toNat := by
  obtain ⟨-, rfl⟩ | ⟨-, cw, -, hend⟩ := decodeBody_cases h
  · exact absurd rfl hne
  · refine not_not.mp fun hout => hne ?_
    simp only [not_or] at hout
    obtain ⟨hsyn, hlam, hcw, hpos, hmag⟩ := hout
    refine hend.byteAt_outside (syndromes_length ..) (Nat.add_assoc 0x100 .. ▸ hcw) hsyn hlam fun hlists => ?_
    exact hlists.2.elim hpos hmag

end

end Sys2Proof.Machine
end

-- ==== Proofs: the obligation on what commands write ====
section
/-! The statement on what each command leaves unchanged, settled from the layer above. -/

namespace Sys2Proof.Proofs

open Sys2Proof.Machine Sys2Proof.Claims

/-- Settles O48: the host's side, the registers and the memory, body by body; a locked core writes RESULT alone. -/
theorem commandsWriteOnlyTheirResults : Obligations.CommandsWriteOnlyTheirResults := by
  intro i s t h
  have hhost := exec_hostSide h
  simp only [State.hostSide, Prod.mk.injEq] at hhost
  refine ⟨hhost, ?_⟩
  obtain ⟨-, rfl⟩ | ⟨-, hbody⟩ := exec_next_cases h
  · exact ⟨fun hne => absurd rfl hne, fun hne => absurd rfl hne, fun hne => absurd rfl hne, fun hne => absurd rfl hne,
      fun a hne => absurd rfl hne⟩
  obtain ⟨hres, hldeg, hnerr⟩ := commandBody_registers hbody
  refine ⟨hres, hldeg, hnerr, fun hne => ?_, fun a hne => ?_⟩
  · exact (not_not.mp fun hi => hne (commandBody_fatal hbody hi)).1
  · cases i with
    | gfInv =>
      rw [commandBody] at hbody
      split at hbody <;> cases hbody <;> exact absurd rfl hne
    | encode => exact .inl ⟨rfl, encodeBody_byteAt_ne hne hbody⟩
    | syndrome => exact .inr (.inl ⟨.inl rfl, syndromeBody_byteAt_ne hne hbody⟩)
    | locate => exact .inr (.inr (.inl ⟨.inl rfl, locateBody_byteAt_ne hne hbody⟩))
    | correct => exact .inr (.inr (.inr ⟨.inl rfl, correctBody_byteAt_ne hne hbody⟩))
    | decode =>
      obtain hsyn | hlam | hcorrect := decodeBody_byteAt_ne hne hbody
      · exact .inr (.inl ⟨.inr rfl, hsyn⟩)
      · exact .inr (.inr (.inl ⟨.inr rfl, hlam⟩))
      · exact .inr (.inr (.inr ⟨.inr rfl, hcorrect⟩))
    | _ => cases hbody; exact absurd rfl hne

end Sys2Proof.Proofs
end

-- ==== Proofs: the validity flags over one step (10_state.md R43 to R46) ====
section
/-! What one step can have done to SYN_VALID, LOC_VALID and SYN_ZERO, by the rule that let it. -/

namespace Sys2Proof.Machine

open Sys2Proof.Claims

/-- SYN_VALID, LOC_VALID and SYN_ZERO. -/
def State.validity (s : State) : Bool × Bool × Bool := (s.synValid, s.locValid, s.synZero)

theorem validity_eq_iff {s : State} {syn loc zero : Bool} :
    s.validity = (syn, loc, zero) ↔ s.synValid = syn ∧ s.locValid = loc ∧ s.synZero = zero := by
  simp [State.validity]

/-- The changes of the validity flags that a step may make, each with its cause. -/
inductive FlagEffect (s t : State) : Prop where
  /-- Every flag keeps its value. -/
  | hold : t.validity = s.validity → FlagEffect s t
  /-- All three are cleared: reset, an invalidation, and what ENCODE, CORRECT and DECODE do when they finish. -/
  | clear : t.validity = (false, false, false) →
      resetNext s ∨ invalidates s ∨ commandEnds s t 0x05 [.ok] ∨ commandEnds s t 0x08 [.ok, .uncorrectable] ∨
        commandEnds s t 0x09 [.ok, .uncorrectable] → FlagEffect s t
  /-- SYNDROME makes new syndromes, for which there is no locator yet. -/
  | syndromes (z : Bool) : t.validity = (true, false, z) → commandEnds s t 0x06 [.ok] → FlagEffect s t
  /-- LOCATE sets LOC_VALID where it ends OK. -/
  | located : t.validity = (s.synValid, true, s.synZero) → commandEnds s t 0x07 [.ok] → FlagEffect s t
  /-- LOCATE clears LOC_VALID where it ends UNCORRECTABLE. -/
  | unlocated : t.validity = (s.synValid, false, s.synZero) → commandEnds s t 0x07 [.uncorrectable] → FlagEffect s t
  /-- DECODE leaves its syndromes where it stopped at LOCATE; they are not all zero then. -/
  | stopped : t.validity = (true, false, false) → commandEnds s t 0x09 [.uncorrectable] → FlagEffect s t

/-- What the body of a command does to the flags of a state `u` that has those of `s`, where its byte was the one written. -/
theorem commandBody_flagEffect {i : Instr} {s u t : State} (hcmd : commandWritten s = some (encodeByte i))
    (hu : u.validity = s.validity) (h : commandBody i u = .ok t) : FlagEffect s t := by
  have hsyn : u.synValid = s.synValid := congrArg (·.1) hu
  have hzero : u.synZero = s.synZero := congrArg (·.2.2) hu
  cases i with
  | gfInv =>
    rw [commandBody] at h
    split at h <;> cases h <;> exact .hold hu
  | encode =>
    obtain ⟨-, rfl⟩ | ⟨d, -, -, -, rfl⟩ := encodeBody_cases h
    · exact .hold hu
    · exact .clear rfl (.inr (.inr (.inl ⟨hcmd, by simp⟩)))
  | syndrome =>
    obtain ⟨-, rfl⟩ | ⟨cw, -, -, rfl⟩ := syndromeBody_cases h
    · exact .hold hu
    · exact .syndromes _ rfl ⟨hcmd, by simp⟩
  | locate =>
    obtain ⟨-, rfl⟩ | ⟨syn, -, -, -, ⟨-, rfl⟩ | ⟨-, rfl⟩⟩ := locateBody_cases h
    · exact .hold hu
    · exact .located (by simp [State.validity, State.storeLocator, hsyn, hzero]) ⟨hcmd, by simp⟩
    · exact .unlocated (by simp [State.validity, State.storeLocator, hsyn, hzero]) ⟨hcmd, by simp⟩
  | correct =>
    obtain ⟨-, rfl⟩ | ⟨lam, -, -, ⟨-, rfl⟩ | ⟨-, syn, v, w, -, -, -, rfl⟩⟩ := correctBody_cases h
    · exact .hold hu
    · exact .clear rfl (.inr (.inr (.inr (.inl ⟨hcmd, by simp⟩))))
    · exact .clear rfl (.inr (.inr (.inr (.inl ⟨hcmd, by simp⟩))))
  | decode =>
    obtain ⟨-, rfl⟩ | ⟨-, cw, -, hend⟩ := decodeBody_cases h
    · exact .hold hu
    · cases hend with
      | stopped hL =>
        refine .stopped ?_ ⟨hcmd, by simp [State.unlocated]⟩
        rw [unlocated_eq, State.validity, all_zero_eq_false_of_locate (by omega)]
      | mismatch => exact .clear rfl (.inr (.inr (.inr (.inr ⟨hcmd, by simp⟩))))
      | corrected => exact .clear rfl (.inr (.inr (.inr (.inr ⟨hcmd, by simp [State.storeErrors]⟩))))
  | _ => cases h; exact .hold hu

/-- What a bus write does to the flags: a command's effect, an invalidation (10_state.md R45), or nothing. -/
theorem busWrite_flagEffect {s u t : State} {addr : Addr} {v : Byte} (haddr : addressWritten s = some addr.toNat)
    (hcmd : commandWritten s = if addr = 0x000 then some v else none) (hu : u.validity = s.validity)
    (h : busWrite u addr v = .next t) : FlagEffect s t := by
  by_cases h0 : addr.toNat = 0x000
  · rw [busWrite_cmd _ _ h0] at h
    rw [if_pos (BitVec.eq_of_toNat_eq h0), ← (encodeByte_decodeByte v).2] at hcmd
    obtain ⟨-, rfl⟩ | ⟨-, hbody⟩ := exec_next_cases h
    · exact .hold hu
    · exact commandBody_flagEffect (u := { u with cmd := v }) hcmd hu hbody
  by_cases hinv : addr.toNat = 0x002 ∨ addr.toNat = 0x003 ∨ 0x100 ≤ addr.toNat ∧ addr.toNat ≤ 0x1FE
  · refine .clear ?_ (.inr (.inl ⟨_, haddr, hinv⟩))
    obtain h2 | h3 | ⟨hlo, hhi⟩ := hinv
    · rw [busWrite_k _ _ h2] at h; cases h; rfl
    · rw [busWrite_r _ _ h3] at h; cases h; rfl
    · rw [busWrite_cw _ _ hlo hhi] at h; cases h; rfl
  · refine .hold ?_
    rw [← hu]
    by_cases h4 : addr.toNat = 0x004
    · rw [busWrite_a _ _ h4] at h; cases h; rfl
    by_cases h5 : addr.toNat = 0x005
    · rw [busWrite_b _ _ h5] at h; cases h; rfl
    by_cases h6 : addr.toNat = 0x006
    · rw [busWrite_e _ _ h6] at h; cases h; rfl
    · rw [busWrite_ignored _ _ (by omega)] at h; cases h; rfl

/-- What one step does to the flags. -/
theorem step_flagEffect {s t : State} (h : step s = .next t) : FlagEffect s t := by
  cases hp : s.pending with
  | nil => rw [step_idle s hp] at h; cases h; exact .hold rfl
  | cons ev rest =>
    rw [step_event s ev rest hp] at h
    cases ev with
    | access acc =>
      cases acc with
      | read addr =>
        rw [perform] at h
        split at h <;> cases h
        exact .hold rfl
      | write addr v =>
        refine busWrite_flagEffect ?_ ?_ ?_ h
        · simp [addressWritten, hp]
        · simp [commandWritten, hp]
        · rfl
    | writeAndRead addr v =>
      refine busWrite_flagEffect ?_ ?_ ?_ h
      · simp [addressWritten, hp]
      · simp [commandWritten, hp]
      · rfl
    | idle => cases h; exact .hold rfl
    | reset => cases h; exact .clear rfl (.inl ⟨rest, .inl hp⟩)
    | resetDuringCommand v => cases h; exact .clear rfl (.inl ⟨rest, .inr ⟨v, hp⟩⟩)

end Sys2Proof.Machine
end

-- ==== Proofs: the obligation on the validity flags ====
section
/-! The statement on the validity flags, settled from the layer above. -/

namespace Sys2Proof.Proofs

open Sys2Proof.Machine Sys2Proof.Claims

/-- Settles O47: each rule that changes flags, with its cause. -/
theorem validityFlagsChangeOnlyByTheirRules : Obligations.ValidityFlagsChangeOnlyByTheirRules := by
  intro s t h
  have hno {b : Bool} {P : Prop} (hfalse : b = false) (htrue : b = true) : P :=
    absurd (hfalse.symm.trans htrue) Bool.false_ne_true
  cases step_flagEffect h with
  | hold hv =>
    obtain ⟨hsyn, hloc, hzero⟩ := validity_eq_iff.mp hv
    rw [hsyn, hloc, hzero]
    exact ⟨hno, flip hno, hno, flip hno, hno, flip hno⟩
  | clear hv hcause =>
    obtain ⟨hsyn, hloc, hzero⟩ := validity_eq_iff.mp hv
    rw [hsyn, hloc, hzero]
    refine ⟨nofun, fun _ _ => ⟨hcause, rfl, rfl⟩, nofun, fun _ _ => ?_, nofun, fun _ _ => ?_⟩
    · exact hcause.imp_right (Or.imp_right (Or.imp_right fun h => .inr (.inr h)))
    · exact hcause.imp_right (Or.imp_right (Or.imp_right .inr))
  | syndromes z hv hcause =>
    obtain ⟨hsyn, hloc, -⟩ := validity_eq_iff.mp hv
    rw [hsyn, hloc]
    exact ⟨fun _ _ => .inl hcause, nofun, nofun, fun _ _ => .inr (.inr (.inr (.inl hcause))), fun _ _ => hcause,
      fun _ _ => .inr (.inr (.inr (.inl hcause)))⟩
  | located hv hcause =>
    obtain ⟨hsyn, hloc, hzero⟩ := validity_eq_iff.mp hv
    rw [hsyn, hloc, hzero]
    exact ⟨hno, flip hno, fun _ _ => hcause, nofun, hno, flip hno⟩
  | unlocated hv hcause =>
    obtain ⟨hsyn, hloc, hzero⟩ := validity_eq_iff.mp hv
    rw [hsyn, hloc, hzero]
    exact ⟨hno, flip hno, nofun, fun _ _ => .inr (.inr (.inr (.inr (.inl hcause)))), hno, flip hno⟩
  | stopped hv hcause =>
    obtain ⟨hsyn, hloc, hzero⟩ := validity_eq_iff.mp hv
    have hcause' : commandEnds s t 0x09 [.ok, .uncorrectable] := hcause.imp_right (List.mem_cons_of_mem _)
    rw [hsyn, hloc, hzero]
    exact ⟨fun _ _ => .inr hcause, nofun, nofun,
      fun _ _ => .inr (.inr (.inr (.inr (.inr (.inr hcause'))))), nofun,
      fun _ _ => .inr (.inr (.inr (.inr (.inr hcause'))))⟩

end Sys2Proof.Proofs
end
